-- ==== Sys2Proof/Word.lean ====
section
/-! DEFINITION. The value types of the engine and the one piece of plain arithmetic the rules share.

The contents of a `W_OFF`-bit register are a `Nat`, the unsigned integer rule R10 says they are: the width is a
parameter of the engine (rule R7), so the bound `2^W_OFF` is part of the invariant `State.Inv` of Safety.lean, not of
the type (notes/assumptions/4.md). -/

namespace Sys2Proof

/-- An 8-bit value: a command word (R70), a code word (R80) or a character (R83). -/
abbrev Byte := BitVec 8

/-- `ceil(a / b) = (a + b - 1) / b` (rule R10). -/
def ceilDiv (a b : Nat) : Nat := (a + b - 1) / b

end Sys2Proof
end

