-- ==== Sys2Proof/Config.lean ====
section
/-! DEFINITION. The parameters of one engine (00_scope.md rules R7 to R9) and the free values: the contents the
spec leaves unspecified, as constants without a body. -/

namespace Sys2Proof

/-- The four open parameters of rule R7. They are fixed for one engine (R37), so a machine state carries them as
data that no step writes: the model covers every instance, not one. -/
structure Config where
  /-- `BYTE_W`: bits per unit of BUF. -/
  byteW    : Nat
  /-- `W_OFF`: width in bits of the operand, result and offset registers. -/
  wOff     : Nat
  /-- `BUF_UNITS`: units in BUF. -/
  bufUnits : Nat
  /-- `TXT_BYTES`: cells in TXT. -/
  txtBytes : Nat
  deriving DecidableEq, Repr

namespace Config

/-- `CAP_BITS = BUF_UNITS * BYTE_W` (R9). -/
def capBits (c : Config) : Nat := c.bufUnits * c.byteW

/-- The parameters are those of an instance of the spec: `BYTE_W >= 1` (R7) and the two bounds of R8.
`10 <= W_OFF` is DEDUCED from the layout of STATUS, whose fields reach bit 9 of a `W_OFF`-bit register (R26);
see notes/assumptions/3.md. -/
abbrev Valid (c : Config) : Prop :=
  0 < c.byteW ∧ 10 ≤ c.wOff ∧ c.capBits < 2 ^ (c.wOff - 1) ∧ c.txtBytes < 2 ^ (c.wOff - 1)

/-- `MAX_CODE_LEN` (R7): the longest code, the bound of the pending code. -/
abbrev maxCodeLen : Nat := 5

/-- The parameters of `State.reset`. `BYTE_W = 8` and `W_OFF = 32` are the spec's defaults (R7). The two memory
sizes are open in the spec. DESIGN CHOICE: 65536 each (notes/assumptions/2.md). -/
def default : Config := { byteW := 8, wOff := 32, bufUnits := 65536, txtBytes := 65536 }

/-- FREE VALUE: what bit `o` of BUF holds before the host or a command has written it (R41, U11). -/
opaque unwrittenBit : Nat → Bool

/-- FREE VALUE: what cell `i` of TXT holds while nothing has written it since draw `d` of unspecified contents:
draw 0 is reset (R41, U11), each DECODE that raised an error makes a new one (U10). Arguments: `d`, then `i`. -/
opaque unwrittenCell : Nat → Nat → Byte

/-- FREE VALUE: what BMASK leaves in RES0 when its mask needs more than `W_OFF` bits (possible only when
`BYTE_W > W_OFF`), where R106's `zext` states no result. Arguments: the mask, then `W_OFF`. -/
opaque wideMask : Nat → Nat → Nat

end Config
end Sys2Proof
end

