-- ==== Sys2Proof/Machine/State.lean ====
section
/-! DEFINITION. The state of the engine as plain data (10_state.md), the transactions a host can issue (R42),
the reasons a step can stop, and the state after reset (R41). -/

namespace Sys2Proof.Machine

/-- The cause STATUS.ERR records (R26, R180); no error is `none : Option DecodeError`. -/
inductive DecodeError where
  /-- ERR = 1: a 1-run whose length is neither 1 nor 3 (R155). -/
  | malformedRun
  /-- ERR = 2: a code that is not in the table (R163). -/
  | unresolvableCode
  /-- ERR = 3: a sixth symbol before a letter boundary (R156). -/
  | oversizedCode
  deriving DecidableEq, Repr

/-- The states of the decode state machine (R31), numbered 0 to 4 in this order. -/
inductive DState where
  | accumulatingSymbol
  | atLetterBoundary
  | atWordBoundary
  | done
  | error
  deriving DecidableEq, Repr

/-- The states of the encode state machine (R30), numbered 0 to 4 in this order. -/
inductive EState where
  | skipLead
  | char
  | sep
  | eom
  | done
  deriving DecidableEq, Repr

/-- The six host-visible registers (R21 to R26), numbered 0 to 5 in this order. -/
inductive Reg where
  | cmd
  | arg0
  | arg1
  | arg2
  | res0
  | status
  deriving DecidableEq, Repr

/-- The six kinds of host transaction (R42; notation of R87). A register is named by its number; a value is the
unsigned integer the host puts on its port. -/
inductive HostTxn where
  /-- `WR reg, v`. -/
  | writeReg (reg v : Nat)
  /-- `RD reg`. -/
  | readReg (reg : Nat)
  /-- `WBUF i, v`. -/
  | writeBuf (i v : Nat)
  /-- `RBUF i`. -/
  | readBuf (i : Nat)
  /-- `WTXT i, v`. -/
  | writeTxt (i v : Nat)
  /-- `RTXT i`. -/
  | readTxt (i : Nat)
  deriving DecidableEq, Repr

/-- A memory by its written elements: (address, element) pairs, addresses strictly rising. An address that is not
listed has not been written, so it has no value of its own; what a read of it gives is said once, by
`State.getBit` for BUF and by `State.cell` for TXT (Ops.lean). -/
abbrev Memory (α : Type) := List (Nat × α)

/-- Why the machine stops with a fault: a precondition of 20_memory.md rule R59 or of R100 failed, which the
spec leaves undefined and has a model record as a fault (R187). All safe: nothing is claimed past the stop. -/
inductive Fault where
  /-- U1: a bit access at or beyond `CAP_BITS`. Raised by GETB, SETB, SETRUN and ENCODE. Safe. -/
  | bitOutOfRange
  /-- U2: a length operand over `BUF_UNITS`. Raised by RUNLEN and DECODE. Safe. -/
  | lengthBeyondBuf
  /-- U3: DECODE's text and its NUL do not fit in TXT. Raised by DECODE. Safe. -/
  | decodedTextBeyondTxt
  /-- U4: a text length over `TXT_BYTES`. Raised by ENCODE. Safe. -/
  | textLengthBeyondTxt
  /-- U7: a bit index of `BYTE_W` or more. Raised by BMASK. Safe. -/
  | maskIndexOutOfRange
  deriving DecidableEq, Repr

/-- Why the model gives a step no meaning. All safe: nothing is claimed past the stop. -/
inductive Refusal where
  /-- An instruction without a meaning yet. Raised by no arm of `exec`. Safe. -/
  | notModelled (mnemonic : String)
  /-- U6: a bit-value operand other than 0 or 1, reserved (R75). Raised by SETB and SETRUN. Safe. -/
  | reservedBitValue
  /-- U9: a register number above 5 (R42). Raised by host register accesses. Safe. -/
  | noSuchRegister
  /-- U9: a unit index of `BUF_UNITS` or more (R42). Raised by host BUF accesses. Safe. -/
  | noSuchUnit
  /-- U9: a cell index of `TXT_BYTES` or more (R42). Raised by host TXT accesses. Safe. -/
  | noSuchCell
  /-- A host write to RES0 or STATUS, which are read-only (R25, R26): the spec gives such a write no effect
  (notes/assumptions/14.md). Raised by host register writes. Safe. -/
  | readOnlyRegister
  /-- A host value that needs more bits than the register, unit or cell it is written to
  (notes/assumptions/15.md). Raised by host writes. Safe. -/
  | valueTooWide
  /-- U13: the parameters break R7 or R8: not an instance of the spec. Raised by `step`. Safe. -/
  | notAnInstance
  deriving DecidableEq, Repr

/-- Everything the spec gives the machine (R20), with its parameters, and three fields of the model's own at the
end. CMD holds nothing between commands (R21) and CTROM is a constant (R37), so neither has a field. -/
structure State where
  /-- The parameters, fixed for one engine (R37): no step writes them. -/
  cfg : Config
  /-- ARG0 (R22). -/
  arg0 : Nat
  /-- ARG1 (R23). -/
  arg1 : Nat
  /-- ARG2 (R24). -/
  arg2 : Nat
  /-- RES0 (R25). -/
  res0 : Nat
  /-- STATUS.ERR (R26). -/
  err : Option DecodeError
  /-- STATUS.NF (R26). -/
  notFound : Bool
  /-- STATUS.ILL (R26). -/
  illegal : Bool
  /-- DSTATE, STATUS[6:4] (R31). -/
  dstate : DState
  /-- ESTATE, STATUS[9:7] (R30). -/
  estate : EState
  /-- BOFF, the bit offset (R28). -/
  boff : Nat
  /-- TIDX, ENCODE's read index (R29). -/
  tidx : Nat
  /-- OLEN, DECODE's write index and count (R29). -/
  olen : Nat
  /-- PEND, the pending code (R32). -/
  pend : Byte
  /-- CUR, the code being emitted (R33). -/
  cur : Byte
  /-- SIDX, the number of the next symbol of CUR (R33). -/
  sidx : BitVec 3
  /-- BUF (R34), by its bits (R50, R52): (bit offset, bit). -/
  buf : Memory Bool
  /-- TXT (R35): (cell index, character). -/
  txt : Memory Byte
  /-- The model's own: which draw of unspecified TXT contents is current (U10, U11). -/
  txtDraw : Nat
  /-- The model's own: the host transactions not yet served, oldest first (R42). -/
  hostQueue : List HostTxn
  /-- The model's own: what the last host read returned (R87). -/
  reply : Option Nat
  deriving DecidableEq, Repr

/-- The state after reset of an engine with parameters `c` (R41, R200). BOFF, TIDX, OLEN, PEND, CUR and SIDX are
unspecified there and read by no rule before they are written (R40). DESIGN CHOICE: 0
(notes/assumptions/7.md). BUF and TXT list nothing: every element is unspecified. -/
def State.resetWith (c : Config) : State where
  cfg := c
  arg0 := 0
  arg1 := 0
  arg2 := 0
  res0 := 0
  err := none
  notFound := false
  illegal := false
  dstate := .done
  estate := .done
  boff := 0
  tidx := 0
  olen := 0
  pend := 0
  cur := 0
  sidx := 0
  buf := []
  txt := []
  txtDraw := 0
  hostQueue := []
  reply := none

/-- The machine right after reset, with the parameters of `Config.default`. -/
def State.reset : State := State.resetWith Config.default

end Sys2Proof.Machine
end

