-- ==== Sys2Proof/Machine/Flags.lean ====
section
/-! DEFINITION. STATUS: its fields, what every command does to the flags, and the word a host reads (10_state.md
rules R26, R27, R30, R31). -/

namespace Sys2Proof.Machine

/-- ERR `[1:0]` (R26, R180). -/
def errCode : Option DecodeError → Nat
  | none => 0
  | some .malformedRun => 1
  | some .unresolvableCode => 2
  | some .oversizedCode => 3

/-- The number of a DSTATE (R31). -/
def dstateCode : DState → Nat
  | .accumulatingSymbol => 0
  | .atLetterBoundary => 1
  | .atWordBoundary => 2
  | .done => 3
  | .error => 4

/-- The number of an ESTATE (R30). -/
def estateCode : EState → Nat
  | .skipLead => 0
  | .char => 1
  | .sep => 2
  | .eom => 3
  | .done => 4

/-- STATUS as a host reads it (R26): ERR `[1:0]`, NF `[2]`, ILL `[3]`, DSTATE `[6:4]`, ESTATE `[9:7]`, the rest 0. -/
def statusWord (s : State) : Nat :=
  errCode s.err + 4 * s.notFound.toNat + 8 * s.illegal.toNat + 16 * dstateCode s.dstate + 128 * estateCode s.estate

/-- What every write to CMD does first (R27, R188): ERR, NF and ILL are 0. This is also all there is of a return
from a decode error (R184): the engine has no return instruction, and the next CMD write clears ERR. -/
def State.clearFlags (s : State) : State := { s with err := none, notFound := false, illegal := false }

/-- RES0 and NF of a table lookup (R95, R96, R185): the value found, or 0 with NF = 1. -/
def State.answerLookup (s : State) (r : Option Byte) : State :=
  match r with
  | some v => { s with res0 := v.toNat, notFound := false }
  | none => { s with res0 := 0, notFound := true }

/-- A CMD write of a word that is no command (R186): the flags are cleared, ILL is set, nothing else happens. -/
def State.illegalCommand (s : State) : State := { s.clearFlags with illegal := true }

end Sys2Proof.Machine
end

