-- ==== Sys2Proof/Machine/Ops.lean ====
section
/-! DEFINITION. The shared operations: reading and writing the two memories, the functions of the bit-addressing
unit (41_bit_addressing.md rules R100 to R105), and the entry of a decode error (60_exceptions.md rule R183). -/

namespace Sys2Proof.Machine

/-- The canonical form: addresses strictly rising. A listed element is a written one and an unlisted address has
no value of its own, so no listed element equals what an unlisted address holds. -/
abbrev Memory.wf {α : Type} (m : Memory α) : Prop := m.Pairwise fun p q => p.1 < q.1

/-- What has been written at an address, if anything. -/
def Memory.read {α : Type} : Memory α → Nat → Option α
  | [], _ => none
  | (k, v) :: m, a => if k = a then some v else Memory.read m a

/-- Writing one element, in place of the one listed at its address or in the order of addresses. -/
def Memory.write {α : Type} : Memory α → Nat → α → Memory α
  | [], a, v => [(a, v)]
  | (k, w) :: m, a, v =>
    if a < k then (a, v) :: (k, w) :: m
    else if a = k then (a, v) :: m
    else (k, w) :: Memory.write m a v

/-- `get_bit(o)` (R103), equal to `bit(o)` of R52. A bit that neither the host nor a command has written reads as
a free value (R41, U11), the same at every read (R57). -/
def State.getBit (s : State) (o : Nat) : Bool := (s.buf.read o).getD (Config.unwrittenBit o)

/-- `TXT[i]` (R35). A cell not written since its contents became unspecified, by reset (R41, U11) or by a DECODE
that raised an error (U10), reads as a free value. -/
def State.cell (s : State) (i : Nat) : Byte := (s.txt.read i).getD (Config.unwrittenCell s.txtDraw i)

/-- `TXT[i] <- c`. -/
def State.setCell (s : State) (i : Nat) (c : Byte) : State := { s with txt := s.txt.write i c }

/-- `bit_mask(k)` (R100), for `k < BYTE_W`. -/
def bitMask (c : Config) (k : Nat) : Nat := 2 ^ (c.byteW - 1 - k)

/-- `byte_offset(o)` (R101). -/
def byteOffset (c : Config) (o : Nat) : Nat := o / c.byteW

/-- `bit_index(o)` (R102). -/
def bitIndex (c : Config) (o : Nat) : Nat := o % c.byteW

/-- `set_bit(o, v)` (R104): exactly one bit of BUF is written. BUF is held by its bits, so the read of the unit, the
mask and the write back of R104 and R55 are this one write; that the units come out as R104 says is a statement
about `State.unitAt`. -/
def State.setBit (s : State) (o : Nat) (v : Bool) : State := { s with buf := s.buf.write o v }

/-- `set_run(o, v, n)` (R105): the bits `o` to `o + n - 1` in this order. Its returned offset is `o + n`. -/
def State.setRun (s : State) (o : Nat) (v : Bool) : Nat → State
  | 0 => s
  | n + 1 => (s.setRun o v n).setBit (o + n) v

/-- The number whose binary digits, most significant first, are `bit 0` to `bit (n - 1)` (R51). -/
def bitsValue (bit : Nat → Bool) : Nat → Nat
  | 0 => 0
  | n + 1 => 2 * bitsValue bit n + (bit n).toNat

/-- `BUF[i]` as the host sees it: unit `i` by its bits, most significant bit first (R51, R52). -/
def State.unitAt (s : State) (i : Nat) : Nat :=
  bitsValue (fun k => s.getBit (i * s.cfg.byteW + k)) s.cfg.byteW

/-- The first `n` bits, in stream order, of a host write `BUF[i] <- v` (R51, R52). -/
def State.writeUnitBits (s : State) (i v : Nat) : Nat → State
  | 0 => s
  | n + 1 => (s.writeUnitBits i v n).setBit (i * s.cfg.byteW + n) (v.testBit (s.cfg.byteW - 1 - n))

/-- `BUF[i] <- v`: all `BYTE_W` bits of unit `i`. -/
def State.writeUnit (s : State) (i v : Nat) : State := s.writeUnitBits i v s.cfg.byteW

/-- The error value of RES0: all ones, `2^W_OFF - 1` (R172). -/
def errorValue (c : Config) : Nat := 2 ^ c.wOff - 1

/-- TAKING A DECODE ERROR, `raise DecodeError(e)` (R172, R183): ERR gets the cause, DSTATE becomes `ERROR`, RES0 all
ones. Nothing is saved and control goes nowhere. Every cell of TXT is unspecified afterwards (U10): nothing stays
listed, and the cells read as a new draw of free values. The return is `State.clearFlags` (R184). -/
def State.raiseDecodeError (s : State) (e : DecodeError) : State :=
  { s with
    err := some e
    dstate := .error
    res0 := errorValue s.cfg
    txt := []
    txtDraw := s.txtDraw + 1 }

end Sys2Proof.Machine
end

