-- ==== Sys2Proof/Machine/Operands.lean ====
section
/-! DEFINITION. Operands (30_encoding.md rules R73, R75): a whole register or `ARG0[7:0]`, and their preconditions
(20_memory.md rule R59). -/

namespace Sys2Proof.Machine

/-- `ARG0[7:0]`, the operand of CTM and MTC; the bits above are ignored (R75). -/
def State.arg0Byte (s : State) : Byte := BitVec.ofNat 8 s.arg0

/-- The bit-value operand of SETB and SETRUN: 0 or 1, any other value is reserved (R75, U6). -/
def bitOperand (v : Nat) : Option Bool :=
  if v = 0 then some false else if v = 1 then some true else none

/-- Precondition of GETB and SETB (R59): the bit exists. -/
abbrev bitInRange (c : Config) (o : Nat) : Prop := o < c.capBits

/-- Precondition of SETRUN (R59): an empty run, or one whose bits all exist. -/
abbrev runInRange (c : Config) (o n : Nat) : Prop := n = 0 ∨ o + n ≤ c.capBits

/-- The bit capacity of the first `n` units (R9). -/
def unitBits (c : Config) (n : Nat) : Nat := n * c.byteW

end Sys2Proof.Machine
end

