-- ==== Sys2Proof/Machine/BitAddr.lean ====
section
/-! DEFINITION. The commands of the bit-addressing unit (41_bit_addressing.md rules R106 to R111). -/

namespace Sys2Proof.Machine

/-- `zext(mask)` in RES0 (R106). DESIGN CHOICE for a mask that `W_OFF` bits cannot hold: the spec states no result,
a free value of `W_OFF` bits (notes/assumptions/9.md). -/
def maskResult (c : Config) (m : Nat) : Nat :=
  if m < 2 ^ c.wOff then m else Config.wideMask m c.wOff % 2 ^ c.wOff

/-- BMASK (R106). An index of `BYTE_W` or more is undefined (U7). -/
def execBmask (s : State) : Host.Outcome State Fault Refusal :=
  if s.arg0 < s.cfg.byteW then .next { s.clearFlags with res0 := maskResult s.cfg (bitMask s.cfg s.arg0) }
  else .fault .maskIndexOutOfRange

/-- BYOFF (R107): any operand, not checked against `BUF_UNITS`. -/
def execByoff (s : State) : Host.Outcome State Fault Refusal :=
  .next { s.clearFlags with res0 := byteOffset s.cfg s.arg0 }

/-- BIDX (R108). -/
def execBidx (s : State) : Host.Outcome State Fault Refusal :=
  .next { s.clearFlags with res0 := bitIndex s.cfg s.arg0 }

/-- GETB (R109). An offset out of range is undefined (U1). -/
def execGetb (s : State) : Host.Outcome State Fault Refusal :=
  if bitInRange s.cfg s.arg0 then .next { s.clearFlags with res0 := (s.getBit s.arg0).toNat }
  else .fault .bitOutOfRange

/-- SETB (R110): no result, RES0 keeps its value. A value other than 0 or 1 is reserved (U6), an offset out of range
undefined (U1); where both fail, the reserved value is the one reported (notes/assumptions/10.md). -/
def execSetb (s : State) : Host.Outcome State Fault Refusal :=
  match bitOperand s.arg1 with
  | none => .refused .reservedBitValue
  | some v => if bitInRange s.cfg s.arg0 then .next (s.clearFlags.setBit s.arg0 v) else .fault .bitOutOfRange

/-- SETRUN (R111). The precondition (R105) is on the run as a whole: where it fails nothing is written (U1). -/
def execSetrun (s : State) : Host.Outcome State Fault Refusal :=
  match bitOperand s.arg1 with
  | none => .refused .reservedBitValue
  | some v =>
    if runInRange s.cfg s.arg0 s.arg2 then
      .next { s.clearFlags.setRun s.arg0 v s.arg2 with res0 := s.arg0 + s.arg2 }
    else .fault .bitOutOfRange

end Sys2Proof.Machine
end

