-- ==== Sys2Proof/Syntax.lean ====
section
/-! DEFINITION. The commands: one constructor per row of spec/opcode_table.json. -/

namespace Sys2Proof

/-- The eleven operations of rule R72. A command word has no operand field (R70): the operands are the registers
ARG0, ARG1 and ARG2 (R73), so no constructor takes an argument. -/
inductive Instr where
  /-- CTM: `char_to_morse(c)` (R95). -/
  | ctm
  /-- MTC: `morse_to_char(code)` (R96). -/
  | mtc
  /-- BMASK: `bit_mask(bitIndex)` (R106). -/
  | bmask
  /-- BYOFF: `byte_offset(bitOffset)` (R107). -/
  | byoff
  /-- BIDX: `bit_index(bitOffset)` (R108). -/
  | bidx
  /-- GETB: `get_bit(buffer, bitOffset)` (R109). -/
  | getb
  /-- SETB: `set_bit(buffer, bitOffset, value)` (R110). -/
  | setb
  /-- SETRUN: `set_run(buffer, bitOffset, value, count)` (R111). -/
  | setrun
  /-- RUNLEN: `run_length(buffer, bufferByteLen, bitOffset)` (R121). -/
  | runlen
  /-- ENCODE: `encode(text) -> bits` (R130). -/
  | encode
  /-- DECODE: `decode(bits, bitCount) -> text` (R150). -/
  | decode
  deriving DecidableEq, Repr

end Sys2Proof
end

