-- ==== Sys2Proof/WellFormed.lean ====
section
/-! DEFINITION. The checks on command words, code words and parameters. -/

namespace Sys2Proof

/-- First check of R71 on a command word: the reserved field `[7:4]` is 0. -/
def rsvClear (w : Byte) : Bool := w.toNat / 16 == 0

/-- Second check of R71, R74: OPC `[3:0]` names an operation, that is it lies in 0x1 to 0xB. -/
def opcNamed (w : Byte) : Bool := 1 ≤ w.toNat % 16 && w.toNat % 16 ≤ 0xB

/-- A legal command word (R71, R74): both checks hold. -/
def legalWord (w : Byte) : Bool := rsvClear w && opcNamed w

/-- Well-formedness of a command as syntax. A command has no operand field (R70), so there is nothing that could
be ill-formed: every check on what a host writes is on the word (`legalWord`), every check on operands is a
precondition on registers (R59, R75). -/
def Instr.wellFormed : Instr → Bool := fun _ => true

/-- A well-formed code word, or the empty word 0x00 (R80): LEN `[7:5]` at most 5, and SYM bits at positions
`>= LEN` are 0. -/
def codeWordOk (w : Byte) : Bool :=
  w.toNat / 32 ≤ Config.maxCodeLen && w.toNat % 32 < 2 ^ (w.toNat / 32)

end Sys2Proof
end

