-- ==== Sys2Proof/Decode.lean ====
section
/-! DEFINITION. The command word: decoder and encoder (30_encoding.md rules R70 to R76). -/

namespace Sys2Proof

/-- Why a word is no command (R71). The engine answers both the same way, by STATUS.ILL (R186). -/
inductive DecodeReject where
  /-- RSV `[7:4]` is not 0. -/
  | reservedBits
  /-- OPC is 0x0, 0xC, 0xD, 0xE or 0xF (R74). -/
  | reservedOpcode
  deriving DecidableEq, Repr

/-- `RSV = word[7:4]` (R71). -/
def rsvField (w : Byte) : BitVec 4 := w.extractLsb' 4 4

/-- `OPC = word[3:0]` (R71). -/
def opcField (w : Byte) : BitVec 4 := w.extractLsb' 0 4

/-- The opcode map, R72: the operation an OPC value names, if any. -/
def opcInstr (opc : BitVec 4) : Option Instr :=
  match opc.toNat with
  | 0x1 => some .ctm
  | 0x2 => some .mtc
  | 0x3 => some .bmask
  | 0x4 => some .byoff
  | 0x5 => some .bidx
  | 0x6 => some .getb
  | 0x7 => some .setb
  | 0x8 => some .setrun
  | 0x9 => some .runlen
  | 0xA => some .encode
  | 0xB => some .decode
  | _ => none

/-- Decoding of a command word (R71): total, a word that is no command is rejected by name. -/
def decode (w : Byte) : Except DecodeReject Instr :=
  if rsvField w ≠ 0 then .error .reservedBits
  else
    match opcInstr (opcField w) with
    | some i => .ok i
    | none => .error .reservedOpcode

/-- The word of a command: the "word" column of R72. -/
def encode : Instr → Byte
  | .ctm => 0x01
  | .mtc => 0x02
  | .bmask => 0x03
  | .byoff => 0x04
  | .bidx => 0x05
  | .getb => 0x06
  | .setb => 0x07
  | .setrun => 0x08
  | .runlen => 0x09
  | .encode => 0x0A
  | .decode => 0x0B

/-- A command is one 8-bit word (R70), so the bits of an opcode-table row are that word itself, the bits above
`nbits` zero. -/
def tableWord (nbits w : Nat) : Nat := w % 2 ^ nbits % 256

/-- The instruction the decoder reads from an instruction whose bits are `w`, `nbits` of them. -/
def decodeTableWord (nbits w : Nat) : Option Instr :=
  match decode (BitVec.ofNat 8 (tableWord nbits w)) with
  | .ok i => some i
  | .error _ => none

end Sys2Proof
end

