-- ==== Sys2Proof/Machine/CodeWord.lean ====
section
/-! DEFINITION. Code words (30_encoding.md rules R80 to R82) and characters (R83 to R85). -/

namespace Sys2Proof.Machine

/-- LEN, bits `[7:5]` of a code word (R80): its number of symbols, 0 to 7. -/
def codeLen (w : Byte) : Nat := w.toNat / 32

/-- SYM, bits `[4:0]` of a code word (R80). -/
def codeSyms (w : Byte) : Nat := w.toNat % 32

/-- `SYM[k]`: symbol number `k`, false a dot and true a dash (R80). -/
def codeSym (w : Byte) (k : Nat) : Bool := (codeSyms w).testBit k

/-- The code word with the given LEN and SYM (R80). -/
def mkCode (len syms : Nat) : Byte := BitVec.ofNat 8 (32 * len + syms)

/-- `PSYM[PLEN] <- s ; PLEN <- PLEN + 1` (R150, R156), for a word with fewer than five symbols: the bits of SYM at
positions `>= LEN` are 0 (R32), so a dash adds `2^LEN`. -/
def pushSymbol (w : Byte) (dash : Bool) : Byte :=
  mkCode (codeLen w + 1) (codeSyms w + if dash then 2 ^ codeLen w else 0)

/-- Equality of code words as codes (R82): the LEN fields are equal and the SYM fields agree on `[LEN-1:0]`. -/
def sameCode (v w : Byte) : Bool :=
  codeLen v == codeLen w && codeSyms v % 2 ^ codeLen v == codeSyms w % 2 ^ codeLen w

/-- The end-of-message code `.-.-.` (R81, R138). -/
def eomCode : Byte := 0xAA

/-- `alnum(c)` (R84). -/
def alnum (c : Byte) : Bool :=
  (0x30 ≤ c.toNat && c.toNat ≤ 0x39) || (0x41 ≤ c.toNat && c.toNat ≤ 0x5A) || (0x61 ≤ c.toNat && c.toNat ≤ 0x7A)

/-- `is_nul(c)` (R84). -/
def isNul (c : Byte) : Bool := c.toNat == 0

/-- `sep(c) = not alnum(c) and not is_nul(c)` (R84). -/
def isSep (c : Byte) : Bool := !alnum c && !isNul c

/-- `upper(c)` (R85). -/
def upper (c : Byte) : Byte := if 0x61 ≤ c.toNat ∧ c.toNat ≤ 0x7A then c - 0x20 else c

/-- The space DECODE appends at a word gap (R161). -/
def spaceChar : Byte := 0x20

end Sys2Proof.Machine
end

