-- ==== Sys2Proof/Machine/CodeTable.lean ====
section
/-! DEFINITION. The code table ROM and its lookups (40_code_table.md): CTM and MTC. -/

namespace Sys2Proof.Machine

/-- CTROM (R90): 37 entries of 16 bits, the character in `[15:8]`, its code word in `[7:0]`: A to Z, 0 to 9, NUL. -/
def ctrom : List (BitVec 16) :=
  [0x4142, 0x4281, 0x4385, 0x4461, 0x4520, 0x4684, 0x4763, 0x4880, 0x4940, 0x4A8E, 0x4B65, 0x4C82, 0x4D43] ++
  [0x4E41, 0x4F67, 0x5086, 0x518B, 0x5262, 0x5360, 0x5421, 0x5564, 0x5688, 0x5766, 0x5889, 0x598D, 0x5A83] ++
  [0x30BF, 0x31BE, 0x32BC, 0x33B8, 0x34B0, 0x35A0, 0x36A1, 0x37A3, 0x38A7, 0x39AF] ++
  [0x00AA]

/-- `CTROM[i][15:8]`, the character of an entry (R90). -/
def entryChar (e : BitVec 16) : Byte := e.extractLsb' 8 8

/-- `CTROM[i][7:0]`, the code word of an entry (R90). -/
def entryCode (e : BitVec 16) : Byte := e.extractLsb' 0 8

/-- `lookup_char(c)` (R93); `none` is `not_found`. -/
def lookupChar (c : Byte) : Option Byte := (ctrom.find? fun e => entryChar e == c).map entryCode

/-- `lookup_code(w)` (R94); `none` is `not_found`. -/
def lookupCode (w : Byte) : Option Byte := (ctrom.find? fun e => sameCode w (entryCode e)).map entryChar

/-- CTM (R95). -/
def execCtm (s : State) : Host.Outcome State Fault Refusal :=
  .next (s.clearFlags.answerLookup (lookupChar s.arg0Byte))

/-- MTC (R96). -/
def execMtc (s : State) : Host.Outcome State Fault Refusal :=
  .next (s.clearFlags.answerLookup (lookupCode s.arg0Byte))

end Sys2Proof.Machine
end

