-- ==== Sys2Proof/Machine/RunLength.lean ====
section
/-! DEFINITION. The run-length scanner (42_run_length.md): RUNLEN. -/

namespace Sys2Proof.Machine

/-- How many of the `n` bits from position `p` on equal `b` before the first that differs: the loop of R120, `n`
the number of bits left before the bound. -/
def matchRun (bit : Nat → Bool) (b : Bool) : Nat → Nat → Nat
  | 0, _ => 0
  | n + 1, p => if bit p = b then matchRun bit b n (p + 1) + 1 else 0

/-- The length of the run that starts at `o`, in bits 0 to `cap - 1`; 0 at or beyond the bound (R120). -/
def runFrom (bit : Nat → Bool) (cap o : Nat) : Nat :=
  if cap ≤ o then 0 else matchRun bit (bit o) (cap - (o + 1)) (o + 1) + 1

/-- `run_length(n, o)` on the first `n` units of BUF (R120). -/
def State.runLength (s : State) (n o : Nat) : Nat := runFrom s.getBit (unitBits s.cfg n) o

/-- RUNLEN (R121): offset in ARG0, length in units in ARG1. A length over `BUF_UNITS` is undefined (U2). -/
def execRunlen (s : State) : Host.Outcome State Fault Refusal :=
  if s.arg1 ≤ s.cfg.bufUnits then .next { s.clearFlags with res0 := s.runLength s.arg1 s.arg0 }
  else .fault .lengthBeyondBuf

end Sys2Proof.Machine
end

