-- ==== Sys2Proof/Machine/Decoder.lean ====
section
/-! DEFINITION. The decode state machine (44_decoder.md): DECODE, written as the pseudocode of rule R150. -/

namespace Sys2Proof.Machine

/-- How one pass of the loop of R150 ends: `continue loop`, or the command is complete (`goto finish` done, or a
decode error raised). -/
inductive Pass where
  | again (s : State)
  | stop (s : State)
  deriving DecidableEq, Repr

/-- Going on within a pass unless the command is complete. -/
def Pass.andThen (p : Pass) (k : State → Pass) : Pass :=
  match p with
  | .again s => k s
  | .stop s => .stop s

/-- `DSTATE <- d`. -/
def State.setDstate (s : State) (d : DState) : State := { s with dstate := d }

/-- `BOFF <- BOFF + n` (R156, R157). -/
def State.advance (s : State) (n : Nat) : State := { s with boff := s.boff + n }

/-- `PSYM[PLEN] <- s ; PLEN <- PLEN + 1` (R156). -/
def State.push (s : State) (dash : Bool) : State := { s with pend := pushSymbol s.pend dash }

/-- `append(ch)` (R164). -/
def State.appendChar (s : State) (c : Byte) : State := { s.setCell s.olen c with olen := s.olen + 1 }

/-- `append(ch) ; PEND <- 0x00` (R163). -/
def State.takeChar (s : State) (c : Byte) : State := { s.appendChar c with pend := 0 }

/-- `finish` (R165): the terminating NUL, which is not counted, and RES0 the count. -/
def State.finishDecode (s : State) : State := { s.setCell s.olen 0 with res0 := s.olen, dstate := .done }

/-- `resolve()` (R163). -/
def State.resolve (s : State) : Pass :=
  match lookupCode s.pend with
  | none => .stop (s.raiseDecodeError .unresolvableCode)
  | some c => if isNul c then .stop s.finishDecode else .again (s.takeChar c)

/-- The bit capacity of the stream, `cap = BLEN * BYTE_W` (R150). BLEN is ARG0, which no command writes (R22). -/
def State.streamBits (s : State) : Nat := unitBits s.cfg s.arg0

/-- Start of DECODE and the skip of leading zeros (R152, R153). -/
def State.beginDecode (s : State) : State :=
  let s' := { s with boff := 0, olen := 0, pend := 0, dstate := .accumulatingSymbol }
  let z := s'.runLength s.arg0 0
  if 0 < z ∧ s'.getBit 0 = false then { s' with boff := z } else s'

/-- The tail of a word gap (R161): a space if any signal follows, else trailing silence. -/
def State.wordGap (s : State) : Pass :=
  if s.boff < s.streamBits then .again ((s.appendChar spaceChar).setDstate .accumulatingSymbol)
  else .stop s.finishDecode

/-- What a pass does after the 0-run of length `g` has been read (R157 to R162). -/
def State.afterGap (s : State) (g : Nat) : Pass :=
  if g = 0 then s.resolve.andThen fun s' => .stop s'.finishDecode
  else if g ≤ 2 then .again s
  else if g ≤ 6 then
    (s.setDstate .atLetterBoundary).resolve.andThen fun s' => .again (s'.setDstate .accumulatingSymbol)
  else if 0 < codeLen s.pend then (s.setDstate .atWordBoundary).resolve.andThen State.wordGap
  else (s.setDstate .atWordBoundary).wordGap

/-- The symbol of a 1-run of length `n` (R155): false a dot, true a dash, none malformed. -/
def runSymbol (n : Nat) : Option Bool :=
  if n = 1 then some false else if n = 3 then some true else none

/-- The rest of a pass once its symbol is in PEND: the 0-run, and what it leads to (R157). -/
def State.readGap (s : State) : Pass :=
  let g := s.runLength s.arg0 s.boff
  (s.advance g).afterGap g

/-- A pass whose run at BOFF has length `n` (R154 to R157), with its checks in the order of R173. -/
def State.afterRun (s : State) (n : Nat) : Pass :=
  if n = 0 then .stop s.finishDecode
  else
    match runSymbol n with
    | none => .stop (s.raiseDecodeError .malformedRun)
    | some dash =>
      if codeLen s.pend = Config.maxCodeLen then
        .stop ((s.advance n).raiseDecodeError .oversizedCode)
      else ((s.advance n).push dash).readGap

/-- One pass of the loop of R150: the run at BOFF is read first (R154). -/
def State.decodePass (s : State) : Pass := s.afterRun (s.runLength s.arg0 s.boff)

/-- The loop of R150, for at most `n` passes. Each pass advances BOFF or ends the command, so `cap + 1` passes
always end it (R166). -/
def State.decodeLoop (s : State) : Nat → State
  | 0 => s.finishDecode
  | n + 1 =>
    match s.decodePass with
    | .again s' => s'.decodeLoop n
    | .stop s' => s'

/-- All of R150 after the flags are cleared. -/
def State.decodeStream (s : State) : State := s.beginDecode.decodeLoop (s.streamBits + 1)

/-- DECODE (R150). A stream length over `BUF_UNITS` is undefined (U2), and so is a command at whose end
`OLEN + 1 > TXT_BYTES` (R59, U3; notes/assumptions/12.md). -/
def execDecode (s : State) : Host.Outcome State Fault Refusal :=
  if s.cfg.bufUnits < s.arg0 then .fault .lengthBeyondBuf
  else
    let t := s.clearFlags.decodeStream
    if t.olen + 1 ≤ s.cfg.txtBytes then .next t else .fault .decodedTextBeyondTxt

end Sys2Proof.Machine
end

