-- ==== Sys2Proof/Machine/Encoder.lean ====
section
/-! DEFINITION. The encode state machine (43_encoder.md): ENCODE, written as the pseudocode of rule R130. -/

namespace Sys2Proof.Machine

/-- `BOFF <- set_run(BOFF, v, n)` (R113, R135). -/
def State.emitRun (s : State) (v : Bool) (n : Nat) : State := { s.setRun s.boff v n with boff := s.boff + n }

/-- `emit_symbol` (R135): a dot is `10`, a dash `1110`. -/
def State.emitSymbol (s : State) (dash : Bool) : State :=
  (s.emitRun true (if dash then 3 else 1)).emitRun false 1

/-- The loop of `emit_code` (R136): `n` symbols of CUR from number SIDX on. -/
def State.emitSymbols (s : State) : Nat → State
  | 0 => s
  | n + 1 =>
    let s' := s.emitSymbol (codeSym s.cur s.sidx.toNat)
    { s' with sidx := s.sidx + 1 }.emitSymbols n

/-- `CUR <- w ; emit_code(CUR)` (R136): the symbols of `w`, then two more 0 bits. -/
def State.emitCode (s : State) (w : Byte) : State :=
  ({ s with cur := w, sidx := 0 }.emitSymbols (codeLen w)).emitRun false 2

/-- "end" of R140: `TIDX = TLEN` or the cell at TIDX is NUL. TLEN is ARG0, which no command writes (R22). -/
def State.textAtEnd (s : State) : Bool := s.arg0 ≤ s.tidx || isNul (s.cell s.tidx)

/-- Start of ENCODE (R130, R132). -/
def State.beginEncode (s : State) : State := { s with boff := 0, tidx := 0, estate := .skipLead }

/-- `while TIDX < TLEN and sep(TXT[TIDX]): TIDX <- TIDX + 1` (R133, R137), `n` being `TLEN - TIDX`. -/
def State.skipSeps (s : State) : Nat → State
  | 0 => s
  | n + 1 => if isSep (s.cell s.tidx) then { s with tidx := s.tidx + 1 }.skipSeps n else s

/-- The branch `alnum(c)` (R134). The lookup always finds an entry there (R134), so the default 0x00 is never
emitted. -/
def State.encodeLetter (s : State) : State :=
  let s' := s.emitCode ((lookupChar (upper (s.cell s.tidx))).getD 0)
  { s' with tidx := s.tidx + 1 }

/-- The branch `sep(c)` (R137): four 0 bits once, then the whole separator run is skipped. -/
def State.encodeGap (s : State) : State :=
  let s' := { s with estate := .sep }.emitRun false 4
  { s'.skipSeps (s.arg0 - s.tidx) with estate := .char }

/-- The main loop of R130, for at most `n` passes. Each pass advances TIDX, so `TLEN` passes reach the end (R141). -/
def State.encodeLoop (s : State) : Nat → State
  | 0 => s
  | n + 1 =>
    if s.textAtEnd then s
    else if alnum (s.cell s.tidx) then s.encodeLetter.encodeLoop n
    else s.encodeGap.encodeLoop n

/-- End of input (R138, R139): the end-of-message code, and RES0 the number of units touched. -/
def State.finishEncode (s : State) : State :=
  let s' := { s with estate := .eom }.emitCode eomCode
  { s' with estate := .done, res0 := ceilDiv s'.boff s.cfg.byteW }

/-- All of R130 after the flags are cleared. -/
def State.encodeText (s : State) : State :=
  let s' := s.beginEncode.skipSeps s.arg0
  ({ s' with estate := .char }.encodeLoop s.arg0).finishEncode

/-- ENCODE (R130). A text length over `TXT_BYTES` is undefined (U4), and so, as a whole, is a command whose final
offset passes `CAP_BITS` (U1). -/
def execEncode (s : State) : Host.Outcome State Fault Refusal :=
  if s.cfg.txtBytes < s.arg0 then .fault .textLengthBeyondTxt
  else
    let t := s.clearFlags.encodeText
    if t.boff ≤ s.cfg.capBits then .next t else .fault .bitOutOfRange

end Sys2Proof.Machine
end

