-- ==== Sys2Proof/Machine/Dispatch.lean ====
section
/-! DEFINITION. One arm per command: the opcode map of 30_encoding.md rule R72 to the meanings. -/

namespace Sys2Proof.Machine

def exec (i : Instr) (s : State) : Host.Outcome State Fault Refusal :=
  match i with
  | .ctm => Sys2Proof.Machine.execCtm s
  | .mtc => Sys2Proof.Machine.execMtc s
  | .bmask => Sys2Proof.Machine.execBmask s
  | .byoff => Sys2Proof.Machine.execByoff s
  | .bidx => Sys2Proof.Machine.execBidx s
  | .getb => Sys2Proof.Machine.execGetb s
  | .setb => Sys2Proof.Machine.execSetb s
  | .setrun => Sys2Proof.Machine.execSetrun s
  | .runlen => Sys2Proof.Machine.execRunlen s
  | .encode => Sys2Proof.Machine.execEncode s
  | .decode => Sys2Proof.Machine.execDecode s

end Sys2Proof.Machine
end

