-- ==== Sys2Proof/Machine/HostPort.lean ====
section
/-! DEFINITION. The host's port: the six kinds of transaction (10_state.md rule R42), and serving the next one. -/

namespace Sys2Proof.Machine

/-- The register a number names (R21 to R26); none above 5 (U9). -/
def regOf : Nat → Option Reg
  | 0 => some .cmd
  | 1 => some .arg0
  | 2 => some .arg1
  | 3 => some .arg2
  | 4 => some .res0
  | 5 => some .status
  | _ => none

/-- What a host read of a register answers: CMD reads 0 (R21). -/
def State.regValue (s : State) : Reg → Nat
  | .cmd => 0
  | .arg0 => s.arg0
  | .arg1 => s.arg1
  | .arg2 => s.arg2
  | .res0 => s.res0
  | .status => statusWord s

/-- A host read that answers `v`; it changes nothing in the engine (R57). -/
def State.answer (s : State) (v : Nat) : State := { s with reply := some v }

/-- A write of a word to CMD: the whole command, or the illegal-command flag (R21, R71, R186, R188). -/
def writeCmd (w : Byte) (s : State) : Host.Outcome State Fault Refusal :=
  match decode w with
  | .ok i => exec i s
  | .error _ => .next s.illegalCommand

/-- `WR reg, v`. RES0 and STATUS are read-only (R25, R26). -/
def hostWriteReg (r v : Nat) (s : State) : Host.Outcome State Fault Refusal :=
  match regOf r with
  | none => .refused .noSuchRegister
  | some .cmd => if v < 256 then writeCmd (BitVec.ofNat 8 v) s else .refused .valueTooWide
  | some .arg0 => if v < 2 ^ s.cfg.wOff then .next { s with arg0 := v } else .refused .valueTooWide
  | some .arg1 => if v < 2 ^ s.cfg.wOff then .next { s with arg1 := v } else .refused .valueTooWide
  | some .arg2 => if v < 2 ^ s.cfg.wOff then .next { s with arg2 := v } else .refused .valueTooWide
  | some .res0 => .refused .readOnlyRegister
  | some .status => .refused .readOnlyRegister

/-- `RD reg`. -/
def hostReadReg (r : Nat) (s : State) : Host.Outcome State Fault Refusal :=
  match regOf r with
  | none => .refused .noSuchRegister
  | some reg => .next (s.answer (s.regValue reg))

/-- `WBUF i, v`. -/
def hostWriteBuf (i v : Nat) (s : State) : Host.Outcome State Fault Refusal :=
  if i < s.cfg.bufUnits then
    if v < 2 ^ s.cfg.byteW then .next (s.writeUnit i v) else .refused .valueTooWide
  else .refused .noSuchUnit

/-- `RBUF i`. -/
def hostReadBuf (i : Nat) (s : State) : Host.Outcome State Fault Refusal :=
  if i < s.cfg.bufUnits then .next (s.answer (s.unitAt i)) else .refused .noSuchUnit

/-- `WTXT i, v`. -/
def hostWriteTxt (i v : Nat) (s : State) : Host.Outcome State Fault Refusal :=
  if i < s.cfg.txtBytes then
    if v < 256 then .next (s.setCell i (BitVec.ofNat 8 v)) else .refused .valueTooWide
  else .refused .noSuchCell

/-- `RTXT i`. -/
def hostReadTxt (i : Nat) (s : State) : Host.Outcome State Fault Refusal :=
  if i < s.cfg.txtBytes then .next (s.answer (s.cell i).toNat) else .refused .noSuchCell

/-- One transaction (R42). -/
def transact (t : HostTxn) (s : State) : Host.Outcome State Fault Refusal :=
  match t with
  | .writeReg r v => hostWriteReg r v s
  | .readReg r => hostReadReg r s
  | .writeBuf i v => hostWriteBuf i v s
  | .readBuf i => hostReadBuf i s
  | .writeTxt i v => hostWriteTxt i v s
  | .readTxt i => hostReadTxt i s

/-- The engine serves the host's oldest pending transaction; with none pending it waits and nothing changes (R201).
Parameters that break R7 or R8 are no instance of the spec (U13). -/
def serveNext (s : State) : Host.Outcome State Fault Refusal :=
  if s.cfg.Valid then
    match s.hostQueue with
    | [] => .next s
    | t :: rest => transact t { s with hostQueue := rest }
  else .refused .notAnInstance

/-- The transaction that issues the command whose word is `w`: `WR CMD, w`. -/
def issue (w : Nat) : HostTxn := .writeReg 0 w

end Sys2Proof.Machine
end

