-- ==== Sys2Proof/Machine/Step.lean ====
section
/-! DEFINITION. One step of the machine: one host transaction (10_state.md rules R39, R42). -/

namespace Sys2Proof.Machine

/-- One step: the oldest pending host transaction is served whole (R42), or, with none pending, the engine idles
(R201). -/
def step (s : State) : Host.Outcome State Fault Refusal := serveNext s

/-- The engine fetches nothing: a command runs because the host writes its word to CMD (R21). So the place a step
takes its next instruction from is the front of the pending host transactions. -/
def State.withFetchWord (s : State) (nbits w : Nat) : State :=
  { s with hostQueue := issue (tableWord nbits w) :: s.hostQueue }

end Sys2Proof.Machine
end

