-- ==== Sys2Proof/Machine/Assembler.lean ====
section
/-! DEFINITION. The assembler notation (30_encoding.md rules R86, R87): each line stands for a list of host
transactions. -/

namespace Sys2Proof.Machine

/-- A line of a program in the notation of R86 and R87. -/
inductive AsmLine where
  /-- A command with its operands in the order ARG0, ARG1, ARG2. -/
  | command (i : Instr) (operands : List Nat)
  /-- One host transaction: `WR`, `RD`, `WBUF`, `RBUF`, `WTXT`, `RTXT`. -/
  | txn (t : HostTxn)
  /-- `LDTXT "text"`. -/
  | ldtxt (text : List Byte)
  /-- `ZBUF n`. -/
  | zbuf (n : Nat)
  deriving DecidableEq, Repr

/-- How many operand registers a command reads, ARG0 first (R73). -/
def operandCount : Instr → Nat
  | .setrun => 3
  | .setb => 2
  | .runlen => 2
  | .ctm => 1
  | .mtc => 1
  | .bmask => 1
  | .byoff => 1
  | .bidx => 1
  | .getb => 1
  | .encode => 1
  | .decode => 1

/-- A line is well formed when a command is given the operands it reads, no fewer and no more (R86). -/
def AsmLine.wellFormed : AsmLine → Bool
  | .command i ops => ops.length == operandCount i
  | .txn _ => true
  | .ldtxt _ => true
  | .zbuf _ => true

/-- `WR ARG<k>, a` for each operand in turn, register numbers from `k + 1` on. -/
def operandWrites (r : Nat) : List Nat → List HostTxn
  | [] => []
  | a :: rest => .writeReg r a :: operandWrites (r + 1) rest

/-- `WTXT i, t_0 ; WTXT i+1, t_1 ; ...`. -/
def textWrites (i : Nat) : List Byte → List HostTxn
  | [] => []
  | c :: rest => .writeTxt i c.toNat :: textWrites (i + 1) rest

/-- The transactions a line stands for: a command is one write per operand and one write to CMD (R86). -/
def AsmLine.expand : AsmLine → List HostTxn
  | .command i ops => operandWrites 1 ops ++ [.writeReg 0 (encode i).toNat]
  | .txn t => [t]
  | .ldtxt text => textWrites 0 text
  | .zbuf n => (List.range n).map fun i => .writeBuf i 0

/-- The transactions of a whole program. -/
def assemble (p : List AsmLine) : List HostTxn := p.flatMap AsmLine.expand

end Sys2Proof.Machine
end

