-- ==== Sys2Proof/Machine/StateTables.lean ====
section
/-! DEFINITION. The two state machines row by row: the tables of 43_encoder.md rule R140 and 44_decoder.md rule
R160. The commands run the pseudocode of R130 and R150, which the spec calls these tables unrolled; the tables
stand here so that this can be stated and proved. -/

namespace Sys2Proof.Machine

/-- One row of the table of R140, after its first row (`State.beginEncode`). -/
def State.encodeRow (s : State) : State :=
  match s.estate with
  | .skipLead =>
    if !s.textAtEnd && isSep (s.cell s.tidx) then { s with tidx := s.tidx + 1 } else { s with estate := .char }
  | .char =>
    if s.textAtEnd then { s with estate := .eom }
    else if alnum (s.cell s.tidx) then s.encodeLetter
    else { s.emitRun false 4 with estate := .sep }
  | .sep =>
    if !s.textAtEnd && isSep (s.cell s.tidx) then { s with tidx := s.tidx + 1 } else { s with estate := .char }
  | .eom =>
    let s' := s.emitCode eomCode
    { s' with estate := .done, res0 := ceilDiv s'.boff s.cfg.byteW }
  | .done => s

/-- `n` rows of the table of R140. -/
def State.encodeRows (s : State) : Nat → State
  | 0 => s
  | n + 1 => s.encodeRow.encodeRows n

/-- The DSTATE a 0-run of length `g` leads to, R160: `ACCUMULATING_SYMBOL` for 1 and 2, `AT_LETTER_BOUNDARY` for 0
and 3 to 6, `AT_WORD_BOUNDARY` from 7 on. -/
def gapState (g : Nat) : DState :=
  if g = 1 ∨ g = 2 then .accumulatingSymbol
  else if g ≤ 6 then .atLetterBoundary
  else .atWordBoundary

/-- The rows of R160 for `ACCUMULATING_SYMBOL`, `n` the length of the run at BOFF. -/
def State.accumulateRow (s : State) (n : Nat) : State :=
  if n = 0 then s.finishDecode
  else
    match runSymbol n with
    | none => s.raiseDecodeError .malformedRun
    | some dash =>
      if codeLen s.pend = Config.maxCodeLen then (s.advance n).raiseDecodeError .oversizedCode
      else
        let g := s.runLength s.arg0 (s.boff + n)
        (((s.advance n).push dash).advance g).setDstate (gapState g)

/-- The rows of R160 for `AT_LETTER_BOUNDARY`. -/
def State.letterRow (s : State) : State :=
  match lookupCode s.pend with
  | none => s.raiseDecodeError .unresolvableCode
  | some c => if isNul c then s.finishDecode else (s.takeChar c).setDstate .accumulatingSymbol

/-- The two last rows of R160 for `AT_WORD_BOUNDARY`: a space and more signal, or the end. -/
def State.wordRowEnd (s : State) : State :=
  if s.boff < s.streamBits then (s.appendChar spaceChar).setDstate .accumulatingSymbol else s.finishDecode

/-- The rows of R160 for `AT_WORD_BOUNDARY`. -/
def State.wordRow (s : State) : State :=
  if 0 < codeLen s.pend then
    match lookupCode s.pend with
    | none => s.raiseDecodeError .unresolvableCode
    | some c => if isNul c then s.finishDecode else (s.takeChar c).wordRowEnd
  else { s with pend := 0 }.wordRowEnd

/-- One row of the table of R160, after its first row (`State.beginDecode`). -/
def State.decodeRow (s : State) : State :=
  match s.dstate with
  | .accumulatingSymbol => s.accumulateRow (s.runLength s.arg0 s.boff)
  | .atLetterBoundary => s.letterRow
  | .atWordBoundary => s.wordRow
  | .done => s
  | .error => s

/-- `n` rows of the table of R160. -/
def State.decodeRows (s : State) : Nat → State
  | 0 => s
  | n + 1 => s.decodeRow.decodeRows n

end Sys2Proof.Machine
end

