-- ==== Sys2Proof/Safety.lean ====
section
/-! DEFINITION. The terms the claims are stated in: the invariant of the machine between transactions, and what a
stream and a text are, said without the machine. -/

namespace Sys2Proof.Machine

/-- STATUS is consistent (R27, R184): an error is recorded only by a DECODE that failed, which left DSTATE at
`ERROR` and RES0 all ones; a flag describes the last command alone, so at most one of ERR, NF, ILL is set; a lookup
that found nothing left 0 in RES0. -/
structure State.StatusOk (s : State) : Prop where
  err_result : s.err ≠ none → s.dstate = .error ∧ s.res0 = errorValue s.cfg
  err_alone : s.err ≠ none → s.notFound = false ∧ s.illegal = false
  notFound_alone : s.notFound = true → s.res0 = 0 ∧ s.illegal = false
  dstate_terminal : s.dstate = .done ∨ s.dstate = .error
  estate_terminal : s.estate = .done

/-- What holds between any two transactions of an engine. -/
structure State.Inv (s : State) : Prop where
  /-- The parameters are an instance of the spec (R7, R8). -/
  valid : s.cfg.Valid
  /-- Every `W_OFF`-bit register holds a `W_OFF`-bit value (R22 to R25). -/
  arg0_fits : s.arg0 < 2 ^ s.cfg.wOff
  arg1_fits : s.arg1 < 2 ^ s.cfg.wOff
  arg2_fits : s.arg2 < 2 ^ s.cfg.wOff
  res0_fits : s.res0 < 2 ^ s.cfg.wOff
  /-- The cursors keep inside their memories (R28, R29, R38). -/
  boff_bound : s.boff ≤ s.cfg.capBits
  tidx_bound : s.tidx ≤ s.cfg.txtBytes
  olen_bound : s.olen ≤ s.cfg.txtBytes
  /-- PEND and CUR are code words or empty, SIDX at most 5 (R32, R33, R80). -/
  pend_ok : codeWordOk s.pend = true
  cur_ok : codeWordOk s.cur = true
  sidx_bound : s.sidx.toNat ≤ Config.maxCodeLen
  /-- STATUS (R26, R27, R184), terminal states only (R42). -/
  status : s.StatusOk
  /-- The memories keep their canonical form and hold nothing outside their bounds (R34, R35, R58). -/
  buf_wf : s.buf.wf
  buf_bound : ∀ p ∈ s.buf, p.1 < s.cfg.capBits
  txt_wf : s.txt.wf
  txt_bound : ∀ p ∈ s.txt, p.1 < s.cfg.txtBytes

/-! ### Streams -/

/-- The bits of one symbol with its intra-symbol gap (R135): a dot `10`, a dash `1110`. -/
def symbolBits (dash : Bool) : List Bool := List.replicate (if dash then 3 else 1) true ++ [false]

/-- The symbols of a code word, first one first (R81). -/
def codeSymbols (w : Byte) : List Bool := (List.range (codeLen w)).map (codeSym w)

/-- The bits of one code (R136): its symbols and two more 0 bits. -/
def codeBits (w : Byte) : List Bool := (codeSymbols w).flatMap symbolBits ++ [false, false]

/-- The bits of a text before the end-of-message code (R133 to R138). `afterSep` says that a separator has just
been passed, so that a run of separators counts once; it is true at the start, where separators count nothing. -/
def textBits (afterSep : Bool) : List Byte → List Bool
  | [] => []
  | c :: rest =>
    if isNul c then []
    else if alnum c then codeBits ((lookupChar (upper c)).getD 0) ++ textBits false rest
    else (if afterSep then [] else List.replicate 4 false) ++ textBits true rest

/-- The stream ENCODE writes for a text (R130). -/
def encodedBits (text : List Byte) : List Bool := textBits true text ++ codeBits eomCode

/-- `normalize` of R174 on the rest of a text: cut at the first NUL, letters to upper case, every maximal run of
separators one space; `afterSep` as in `textBits`. -/
def normalizeFrom (afterSep : Bool) : List Byte → List Byte
  | [] => []
  | c :: rest =>
    if isNul c then []
    else if alnum c then upper c :: normalizeFrom false rest
    else (if afterSep then [] else [spaceChar]) ++ normalizeFrom true rest

/-- `normalize` of R174: a leading space is removed. -/
def normalize (text : List Byte) : List Byte := normalizeFrom true text

/-- The text of an ENCODE: `TXT[0]` to `TXT[TLEN-1]` (R130). -/
def State.text (s : State) : List Byte := (List.range s.arg0).map s.cell

/-- BUF holds these bits from bit offset `o` on. -/
def State.HasBits (s : State) (o : Nat) (bits : List Bool) : Prop :=
  ∀ k < bits.length, s.getBit (o + k) = bits.getD k false

/-- TXT holds these characters from cell 0 on. -/
def State.HasText (s : State) (text : List Byte) : Prop :=
  ∀ k < text.length, s.cell k = text.getD k 0

/-- What a host can find out about two engines without running either: registers, STATUS and the two memories agree
(R20 to R26, R34, R35). The sequencing registers are not host-visible (R28, R29, R32, R33). -/
structure SameToHost (s t : State) : Prop where
  cfg : t.cfg = s.cfg
  arg0 : t.arg0 = s.arg0
  arg1 : t.arg1 = s.arg1
  arg2 : t.arg2 = s.arg2
  res0 : t.res0 = s.res0
  err : t.err = s.err
  notFound : t.notFound = s.notFound
  illegal : t.illegal = s.illegal
  dstate : t.dstate = s.dstate
  estate : t.estate = s.estate
  buf : t.buf = s.buf
  txt : t.txt = s.txt
  txtDraw : t.txtDraw = s.txtDraw
  hostQueue : t.hostQueue = s.hostQueue
  reply : t.reply = s.reply

/-- Two outcomes of a command agree for the host: the same stop, or next states that agree. -/
def SameOutcome : Host.Outcome State Fault Refusal → Host.Outcome State Fault Refusal → Prop
  | .next s, .next t => SameToHost s t
  | .fault a, .fault b => a = b
  | .refused a, .refused b => a = b
  | _, _ => False

end Sys2Proof.Machine
end

