-- ==== Sys2Proof/Certificates/Slice0/Obligations.lean ====
section
/-! DEFINITION. The statements for the provers. Each docstring says which rule of spec/ its statement is about. A
statement says what a command changes by an equation `t = { s with … }`: every field it does not name is unchanged. -/

open Sys2Proof Sys2Proof.Machine

/-! ### Command words -/

/-- 30_encoding.md section 1: the word of a command decodes to the command, also as a row of the opcode table. -/
def Obligations.EncodedCommandDecodesBack : Prop :=
  ∀ i : Instr, i.wellFormed = true → decode (encode i) = .ok i ∧ decodeTableWord 8 (encode i).toNat = some i

/-- R76: the legal words are the eleven of the table, each one command, and no others. -/
def Obligations.DecoderAcceptsExactlyTheElevenWords : Prop :=
  (∀ (w : Byte) (i : Instr), decode w = .ok i ↔ w = encode i) ∧
  (∀ w : Byte, (∃ i, decode w = .ok i) ↔ legalWord w = true) ∧
  (∀ w : Byte, legalWord w = true ↔ 1 ≤ w.toNat ∧ w.toNat ≤ 0xB)

/-- 30_encoding.md section 1: words written out from the table of R72 decode to their commands, and words with a
reserved field or a reserved OPC to none. -/
def Obligations.WrittenOutWordsDecode : Prop :=
  decode 0b00000001#8 = .ok .ctm ∧ decode 0b00000011#8 = .ok .bmask ∧ decode 0b00001000#8 = .ok .setrun ∧
  decode 0b00001001#8 = .ok .runlen ∧ decode 0b00001010#8 = .ok .encode ∧ decode 0b00001011#8 = .ok .decode ∧
  decode 0b00011011#8 = .error .reservedBits ∧ decode 0b00000000#8 = .error .reservedOpcode ∧
  decode 0b00001100#8 = .error .reservedOpcode

/-! ### Steps -/

/-- 10_state.md section 8 (R42), R21: a step that serves a host write of a legal word to CMD is the whole command, run
in the state without that transaction. -/
def Obligations.CommandWriteRunsTheDecodedCommand : Prop :=
  ∀ (s : State) (v : Nat) (i : Instr) (rest : List HostTxn), s.cfg.Valid → s.hostQueue = .writeReg 0 v :: rest →
    v < 256 → decode (BitVec.ofNat 8 v) = .ok i → step s = exec i { s with hostQueue := rest }

/-- The same for the command placed by `State.withFetchWord`: the very next step runs it. -/
def Obligations.FetchWordRunsNext : Prop :=
  ∀ (s : State) (i : Instr), s.cfg.Valid → step (s.withFetchWord 8 (encode i).toNat) = exec i s

/-- R186: an illegal word clears ERR and NF, sets ILL, and does nothing else; the next legal command clears ILL. -/
def Obligations.IllegalWordSetsIllOnly : Prop :=
  (∀ (s : State) (v : Nat) (rest : List HostTxn), s.cfg.Valid → s.hostQueue = .writeReg 0 v :: rest → v < 256 →
    ¬ (1 ≤ v ∧ v ≤ 0xB) →
      step s = .next { s with hostQueue := rest, err := none, notFound := false, illegal := true }) ∧
  (∀ (s t : State) (i : Instr), exec i s = .next t → t.illegal = false)

/-- R201: with no host transaction pending the engine waits and nothing changes; so it stands after reset. -/
def Obligations.IdleEngineWaits : Prop :=
  (∀ s : State, s.cfg.Valid → s.hostQueue = [] → step s = .next s) ∧
  (∀ c : Config, c.Valid → step (State.resetWith c) = .next (State.resetWith c))

/-- R41: what reset leaves, for the state the rule gives a value; an element of BUF or TXT that nothing has written
reads as a free value; CTROM holds the table of R90. -/
def Obligations.ResetLeavesTheTable : Prop :=
  ctrom = [0x4142, 0x4281, 0x4385, 0x4461, 0x4520, 0x4684, 0x4763, 0x4880, 0x4940, 0x4A8E, 0x4B65, 0x4C82, 0x4D43,
    0x4E41, 0x4F67, 0x5086, 0x518B, 0x5262, 0x5360, 0x5421, 0x5564, 0x5688, 0x5766, 0x5889, 0x598D, 0x5A83,
    0x30BF, 0x31BE, 0x32BC, 0x33B8, 0x34B0, 0x35A0, 0x36A1, 0x37A3, 0x38A7, 0x39AF, 0x00AA] ∧
  ∀ c : Config,
    (State.resetWith c).regValue .cmd = 0 ∧ (State.resetWith c).arg0 = 0 ∧ (State.resetWith c).arg1 = 0 ∧
    (State.resetWith c).arg2 = 0 ∧ (State.resetWith c).res0 = 0 ∧ (State.resetWith c).err = none ∧
    (State.resetWith c).notFound = false ∧ (State.resetWith c).illegal = false ∧ (State.resetWith c).dstate = .done ∧
    (State.resetWith c).estate = .done ∧ (State.resetWith c).regValue .status = 0x230 ∧
    (∀ o, (State.resetWith c).getBit o = Config.unwrittenBit o) ∧
    (∀ i, (State.resetWith c).cell i = Config.unwrittenCell 0 i)

/-- The invariant holds after reset, for every instance. It rests on the reset values of notes/assumptions/7.md only
in the clauses about the sequencing registers. -/
def Obligations.ResetMeetsTheInvariant : Prop :=
  ∀ c : Config, c.Valid → (State.resetWith c).Inv

/-- Every step keeps the invariant: registers fit `W_OFF` bits, cursors and memories stay in their bounds, memories
stay canonical, PEND and CUR are code words, STATUS is consistent. -/
def Obligations.StepKeepsTheInvariant : Prop :=
  ∀ s t : State, s.Inv → step s = .next t → t.Inv

/-- R205: after reset the operand registers meet every precondition, so every command completes, given a BUF with room
for the end-of-message code and a TXT with room for a NUL. GETB answers what bit 0 of BUF holds, SETRUN writes
nothing, RUNLEN answers 0, ENCODE emits the end-of-message code, DECODE gives the empty text. -/
def Obligations.EveryCommandCompletesAfterReset : Prop :=
  ∀ c : Config, c.Valid → 16 ≤ c.capBits → 1 ≤ c.txtBytes →
    (∀ i : Instr, ∃ t, step ((State.resetWith c).withFetchWord 8 (encode i).toNat) = .next t) ∧
    (∀ t, exec .getb (State.resetWith c) = .next t → t.res0 = (Config.unwrittenBit 0).toNat) ∧
    (∀ t, exec .setrun (State.resetWith c) = .next t → t = State.resetWith c) ∧
    (∀ t, exec .runlen (State.resetWith c) = .next t → t = State.resetWith c) ∧
    (∀ t, exec .encode (State.resetWith c) = .next t →
      t.boff = 16 ∧ t.HasBits 0 (codeBits eomCode) ∧ t.res0 = ceilDiv 16 c.byteW) ∧
    (∀ t, exec .decode (State.resetWith c) = .next t → t.res0 = 0 ∧ t.cell 0 = 0 ∧ t.err = none ∧ t.dstate = .done)

/-! ### What all commands share -/

/-- R27: the flags describe the last command alone; DSTATE and ESTATE keep their value until the next DECODE,
respectively ENCODE. -/
def Obligations.FlagsDescribeTheLastCommand : Prop :=
  ∀ (s t : State) (w : Byte), s.cfg.Valid → step (s.withFetchWord 8 w.toNat) = .next t →
    (t.err ≠ none → decode w = .ok .decode ∧ t.dstate = .error) ∧
    (t.notFound = true → (decode w = .ok .ctm ∧ lookupChar s.arg0Byte = none) ∨
      (decode w = .ok .mtc ∧ lookupCode s.arg0Byte = none)) ∧
    (t.illegal = true ↔ ¬ ∃ i, decode w = .ok i) ∧
    (decode w ≠ .ok .decode → t.dstate = s.dstate) ∧ (decode w ≠ .ok .encode → t.estate = s.estate)

/-- 10_state.md section 8 (the "writes" column of R43), R22 to R24: no command writes a parameter, an operand register
or a host transaction; BUF, TXT, RES0 and the sequencing registers are written only by the commands the table names. -/
def Obligations.CommandsWriteOnlyTheirRow : Prop :=
  ∀ (s t : State) (i : Instr), exec i s = .next t →
    t.cfg = s.cfg ∧ t.arg0 = s.arg0 ∧ t.arg1 = s.arg1 ∧ t.arg2 = s.arg2 ∧ t.hostQueue = s.hostQueue ∧
    t.reply = s.reply ∧
    (i ≠ .setb → i ≠ .setrun → i ≠ .encode → t.buf = s.buf ∧ ∀ o, t.getBit o = s.getBit o) ∧
    (i ≠ .decode → t.txt = s.txt ∧ t.txtDraw = s.txtDraw ∧ ∀ k, t.cell k = s.cell k) ∧
    (i = .setb → t.res0 = s.res0) ∧
    (i ≠ .encode → t.estate = s.estate ∧ t.tidx = s.tidx ∧ t.cur = s.cur ∧ t.sidx = s.sidx) ∧
    (i ≠ .decode → t.dstate = s.dstate ∧ t.olen = s.olen ∧ t.pend = s.pend) ∧
    (i ≠ .encode → i ≠ .decode → t.boff = s.boff)

/-- R40: no command reads what an earlier one left in BOFF, TIDX, OLEN, PEND, CUR or SIDX: whatever they hold, the
outcome is the same for the host. -/
def Obligations.SequencingRegistersDoNotCarryOver : Prop :=
  ∀ (s : State) (i : Instr) (b k o : Nat) (p c : Byte) (x : BitVec 3),
    SameOutcome (exec i s) (exec i { s with boff := b, tidx := k, olen := o, pend := p, cur := c, sidx := x })

/-! ### The code table -/

/-- R93, R95: CTM answers the code word of the one entry whose character is `ARG0[7:0]`, or 0 with NF; nothing but
RES0 and the flags changes. -/
def Obligations.CtmAnswersTheTable : Prop :=
  decode 0x01 = .ok .ctm ∧
  (∀ (s : State) (e : BitVec 16), e ∈ ctrom → (entryChar e).toNat = s.arg0 % 256 →
    exec .ctm s = .next { s with err := none, illegal := false, notFound := false, res0 := (entryCode e).toNat }) ∧
  (∀ s : State, (∀ e ∈ ctrom, (entryChar e).toNat ≠ s.arg0 % 256) →
    exec .ctm s = .next { s with err := none, illegal := false, notFound := true, res0 := 0 })

/-- R96, with the equality of codes of R82: MTC answers the character of the one entry with the same length and the
same symbols, or 0 with NF; nothing but RES0 and the flags changes. -/
def Obligations.MtcAnswersTheTable : Prop :=
  decode 0x02 = .ok .mtc ∧
  (∀ (s : State) (e : BitVec 16), e ∈ ctrom → codeLen (entryCode e) = codeLen s.arg0Byte →
    (∀ k < codeLen (entryCode e), codeSym (entryCode e) k = codeSym s.arg0Byte k) →
    exec .mtc s = .next { s with err := none, illegal := false, notFound := false, res0 := (entryChar e).toNat }) ∧
  (∀ s : State,
    (∀ e ∈ ctrom, ¬ (codeLen (entryCode e) = codeLen s.arg0Byte ∧
      ∀ k < codeLen (entryCode e), codeSym (entryCode e) k = codeSym s.arg0Byte k)) →
    exec .mtc s = .next { s with err := none, illegal := false, notFound := true, res0 := 0 })

/-- R91: 37 entries; characters distinct; codes distinct; one entry is NUL, the last; every code has 1 to 5 symbols. -/
def Obligations.CodeTableIsUnambiguous : Prop :=
  ctrom.length = 37 ∧ (ctrom.map entryChar).Nodup ∧
  ctrom.Pairwise (fun a b => sameCode (entryCode a) (entryCode b) = false) ∧
  (ctrom.filter fun e => entryChar e == 0) = [0x00AA] ∧
  (ctrom.all fun e => decide (1 ≤ codeLen (entryCode e)) && codeWordOk (entryCode e)) = true

/-- R97: CTM and MTC are inverse on the table. -/
def Obligations.CtmAndMtcAreInverse : Prop :=
  ∀ (s : State) (e : BitVec 16), e ∈ ctrom →
    (∃ t u, exec .ctm { s with arg0 := (entryChar e).toNat } = .next t ∧ t.notFound = false ∧
      exec .mtc { t with arg0 := t.res0 } = .next u ∧ u.notFound = false ∧ u.res0 = (entryChar e).toNat) ∧
    (∃ t u, exec .mtc { s with arg0 := (entryCode e).toNat } = .next t ∧ t.notFound = false ∧
      exec .ctm { t with arg0 := t.res0 } = .next u ∧ u.notFound = false ∧ u.res0 = (entryCode e).toNat)

/-- R82: two operands with the same LEN and the same symbols below LEN ask MTC the same question; a word with LEN 0,
6 or 7 is never found. -/
def Obligations.MtcIgnoresUnusedSymbolBits : Prop :=
  (∀ (s : State) (v w : Byte), codeLen v = codeLen w → codeLen v ≤ 5 → (∀ k < codeLen v, codeSym v k = codeSym w k) →
    ∃ t, exec .mtc { s with arg0 := v.toNat } = .next t ∧
      exec .mtc { s with arg0 := w.toNat } = .next { t with arg0 := w.toNat }) ∧
  (∀ s : State, codeLen s.arg0Byte = 0 ∨ 6 ≤ codeLen s.arg0Byte →
    exec .mtc s = .next { s with err := none, illegal := false, notFound := true, res0 := 0 })

/-! ### Bit addressing -/

/-- R106, R100: BMASK answers `2^(BYTE_W-1-k)`; an index of `BYTE_W` or more is undefined. For `BYTE_W` up to
`W_OFF`, where the mask fits RES0. -/
def Obligations.BmaskGivesTheMask : Prop :=
  decode 0x03 = .ok .bmask ∧ ∀ s : State, s.cfg.byteW ≤ s.cfg.wOff →
    (s.arg0 < s.cfg.byteW → exec .bmask s = .next
      { s with err := none, notFound := false, illegal := false, res0 := 2 ^ (s.cfg.byteW - 1 - s.arg0) }) ∧
    (s.cfg.byteW ≤ s.arg0 → exec .bmask s = .fault .maskIndexOutOfRange)

/-- Also where `BYTE_W > W_OFF`: a mask that fits is answered as R106 says, and one that does not is the model's choice
of notes/assumptions/9.md: some `W_OFF`-bit value, everything else as R106 says. -/
def Obligations.BmaskCompletesForEveryWidth : Prop :=
  ∀ s : State, s.arg0 < s.cfg.byteW → ∃ v < 2 ^ s.cfg.wOff,
    exec .bmask s = .next { s with err := none, notFound := false, illegal := false, res0 := v } ∧
    (2 ^ (s.cfg.byteW - 1 - s.arg0) < 2 ^ s.cfg.wOff → v = 2 ^ (s.cfg.byteW - 1 - s.arg0))

/-- R107, R108, R112: BYOFF and BIDX split any offset into unit index and bit index, uniquely. -/
def Obligations.ByoffAndBidxSplitTheOffset : Prop :=
  decode 0x04 = .ok .byoff ∧ decode 0x05 = .ok .bidx ∧ ∀ s : State, s.cfg.Valid → ∃ q r,
    exec .byoff s = .next { s with err := none, notFound := false, illegal := false, res0 := q } ∧
    exec .bidx s = .next { s with err := none, notFound := false, illegal := false, res0 := r } ∧
    q = s.arg0 / s.cfg.byteW ∧ r = s.arg0 % s.cfg.byteW ∧ s.arg0 = q * s.cfg.byteW + r ∧ r < s.cfg.byteW ∧
    ∀ a b, b < s.cfg.byteW → s.arg0 = a * s.cfg.byteW + b → a = q ∧ b = r

/-- R109, R103: GETB answers 1 exactly when the unit and the mask of the bit have a bit in common; an offset out of
range is undefined. -/
def Obligations.GetbReadsTheMaskedUnit : Prop :=
  decode 0x06 = .ok .getb ∧ ∀ s : State, s.cfg.Valid →
    (s.arg0 < s.cfg.capBits → exec .getb s = .next
      { s with
        err := none, notFound := false, illegal := false
        res0 := if s.unitAt (s.arg0 / s.cfg.byteW) &&& 2 ^ (s.cfg.byteW - 1 - s.arg0 % s.cfg.byteW) ≠ 0
          then 1 else 0 }) ∧
    (s.cfg.capBits ≤ s.arg0 → exec .getb s = .fault .bitOutOfRange)

/-- R110, R104: SETB changes exactly one bit of one unit, by the mask (or, and-not); RES0 keeps its value. A reserved
value is refused, an offset out of range is undefined; that the refusal is the one reported where both fail is the
model's choice of notes/assumptions/10.md, not the spec's. -/
def Obligations.SetbWritesOneBitOfOneUnit : Prop :=
  decode 0x07 = .ok .setb ∧ ∀ s : State, s.cfg.Valid →
    (s.arg0 < s.cfg.capBits → s.arg1 = 0 ∨ s.arg1 = 1 → ∃ t, exec .setb s = .next t ∧
      t = { s with err := none, notFound := false, illegal := false, buf := t.buf } ∧
      t.unitAt (s.arg0 / s.cfg.byteW) =
        (if s.arg1 = 1 then
          s.unitAt (s.arg0 / s.cfg.byteW) ||| 2 ^ (s.cfg.byteW - 1 - s.arg0 % s.cfg.byteW)
        else
          s.unitAt (s.arg0 / s.cfg.byteW) &&&
            (2 ^ s.cfg.byteW - 1 - 2 ^ (s.cfg.byteW - 1 - s.arg0 % s.cfg.byteW))) ∧
      (∀ i, i ≠ s.arg0 / s.cfg.byteW → t.unitAt i = s.unitAt i) ∧
      t.getBit s.arg0 = decide (s.arg1 = 1) ∧ ∀ p, p ≠ s.arg0 → t.getBit p = s.getBit p) ∧
    (s.cfg.capBits ≤ s.arg0 → s.arg1 = 0 ∨ s.arg1 = 1 → exec .setb s = .fault .bitOutOfRange) ∧
    (2 ≤ s.arg1 → exec .setb s = .refused .reservedBitValue)

/-- R111, R105: SETRUN gives the bits `o` to `o + n - 1` the value and every other bit keeps its own; RES0 is the
offset after the run; with count 0 it writes nothing, whatever the offset. A reserved value is refused: that the refusal is the one reported
where the run does not fit either is the model's choice of notes/assumptions/10.md, and that it is refused with count 0
too an inference, notes/assumptions/11.md. -/
def Obligations.SetrunWritesTheRun : Prop :=
  decode 0x08 = .ok .setrun ∧ ∀ s : State,
    (s.arg2 = 0 ∨ s.arg0 + s.arg2 ≤ s.cfg.capBits → s.arg1 = 0 ∨ s.arg1 = 1 → ∃ t, exec .setrun s = .next t ∧
      t = { s with err := none, notFound := false, illegal := false, buf := t.buf, res0 := s.arg0 + s.arg2 } ∧
      (∀ p, t.getBit p = if s.arg0 ≤ p ∧ p < s.arg0 + s.arg2 then decide (s.arg1 = 1) else s.getBit p) ∧
      (s.arg2 = 0 → t.buf = s.buf)) ∧
    (0 < s.arg2 → s.cfg.capBits < s.arg0 + s.arg2 → s.arg1 = 0 ∨ s.arg1 = 1 →
      exec .setrun s = .fault .bitOutOfRange) ∧
    (2 ≤ s.arg1 → exec .setrun s = .refused .reservedBitValue)

/-- R113: two chained runs, the second from the offset the first returned. -/
def Obligations.SetrunChains : Prop :=
  ∀ (s : State) (v1 v2 : Bool) (n1 n2 : Nat), s.arg0 + n1 + n2 ≤ s.cfg.capBits → ∃ t u,
    exec .setrun { s with arg1 := v1.toNat, arg2 := n1 } = .next t ∧
    exec .setrun { t with arg0 := t.res0, arg1 := v2.toNat, arg2 := n2 } = .next u ∧
    u.res0 = s.arg0 + n1 + n2 ∧
    ∀ p, u.getBit p =
      if s.arg0 ≤ p ∧ p < s.arg0 + n1 then v1
      else if s.arg0 + n1 ≤ p ∧ p < s.arg0 + n1 + n2 then v2
      else s.getBit p

/-- R59: a precondition that fails is a fault of the model, for the commands whose length or offset it bounds. -/
def Obligations.FailedPreconditionsAreFaults : Prop :=
  ∀ s : State,
    (s.cfg.bufUnits < s.arg1 → exec .runlen s = .fault .lengthBeyondBuf) ∧
    (s.cfg.txtBytes < s.arg0 → exec .encode s = .fault .textLengthBeyondTxt) ∧
    (s.cfg.bufUnits < s.arg0 → exec .decode s = .fault .lengthBeyondBuf) ∧
    (s.arg0 ≤ s.cfg.txtBytes → s.cfg.capBits < (encodedBits s.text).length → exec .encode s = .fault .bitOutOfRange) ∧
    (s.arg0 ≤ s.cfg.bufUnits →
      (∃ t, exec .decode s = .next t ∧ t.olen + 1 ≤ s.cfg.txtBytes) ∨ exec .decode s = .fault .decodedTextBeyondTxt)

/-! ### Run-length scanner -/

/-- R121, R122: RUNLEN answers 0 exactly at or beyond the bound, else the length of the rest of the run: all its bits
equal, ended by the bound or by a different bit. It writes nothing else. -/
def Obligations.RunlenMeasuresTheRun : Prop :=
  decode 0x09 = .ok .runlen ∧ ∀ s : State, s.arg1 ≤ s.cfg.bufUnits → ∃ r,
    exec .runlen s = .next { s with err := none, notFound := false, illegal := false, res0 := r } ∧
    (r = 0 ↔ s.arg1 * s.cfg.byteW ≤ s.arg0) ∧
    (s.arg0 < s.arg1 * s.cfg.byteW →
      1 ≤ r ∧ r ≤ s.arg1 * s.cfg.byteW - s.arg0 ∧
      (∀ p, s.arg0 ≤ p → p < s.arg0 + r → s.getBit p = s.getBit s.arg0) ∧
      (s.arg0 + r = s.arg1 * s.cfg.byteW ∨ s.getBit (s.arg0 + r) ≠ s.getBit s.arg0))

/-! ### Encoder -/

/-- R130, R139: ENCODE writes the stream of its text from bit offset 0, no other bit of BUF, and counts the units
touched; its frame. -/
def Obligations.EncodeWritesTheStreamOfItsText : Prop :=
  ∀ s : State, s.arg0 ≤ s.cfg.txtBytes → (encodedBits s.text).length ≤ s.cfg.capBits → ∃ t, exec .encode s = .next t ∧
    t = { s with
      err := none, notFound := false, illegal := false
      res0 := ceilDiv (encodedBits s.text).length s.cfg.byteW
      estate := .done
      boff := (encodedBits s.text).length
      tidx := t.tidx, cur := t.cur, sidx := t.sidx, buf := t.buf } ∧
    t.HasBits 0 (encodedBits s.text) ∧
    (∀ p, (encodedBits s.text).length ≤ p → t.getBit p = s.getBit p) ∧
    ∀ k, t.cell k = s.cell k

/-- 20_memory.md section 4 (R60), R202: a BUF of `22 * N + 16` bits is enough for any text of length `N`. -/
def Obligations.EncodeFitsTheWorstCase : Prop :=
  ∀ s : State, s.arg0 ≤ s.cfg.txtBytes → 22 * s.arg0 + 16 ≤ s.cfg.capBits →
    ∃ t, exec .encode s = .next t ∧ t.boff ≤ 22 * s.arg0 + 16 ∧ t.err = none ∧ t.estate = .done

/-- R140: the table of the encode state machine, run row by row from the start of the command, ends in the state
ENCODE's pseudocode leaves, after at most `2 * TLEN + 3` rows. -/
def Obligations.EncodeTableIsItsPseudocode : Prop :=
  ∀ s : State, ∃ k ≤ 2 * s.arg0 + 3,
    s.beginEncode.encodeRows k = s.encodeText ∧ s.encodeText.estate = .done

/-- R146: case does not matter. Texts that agree after case folding give the same bits and the same result. -/
def Obligations.EncodeFoldsCase : Prop :=
  ∀ (s s' t : State), s'.cfg = s.cfg → s'.arg0 = s.arg0 → s'.buf = s.buf →
    (∀ k < s.arg0, upper (s'.cell k) = upper (s.cell k)) → exec .encode s = .next t →
      ∃ t', exec .encode s' = .next t' ∧ t'.res0 = t.res0 ∧ ∀ p, t'.getBit p = t.getBit p

/-- R143: a text of separators alone, or of no characters, or that begins with NUL, gives the sixteen bits of the
end-of-message code and nothing else. -/
def Obligations.EncodeOfNoLettersIsTheMarker : Prop :=
  ∀ (s : State) (n : Nat), s.arg0 ≤ s.cfg.txtBytes → 16 ≤ s.cfg.capBits → n ≤ s.arg0 →
    (∀ k < n, isSep (s.cell k) = true) → n = s.arg0 ∨ s.cell n = 0 → ∃ t, exec .encode s = .next t ∧
      t.boff = 16 ∧ t.res0 = ceilDiv 16 s.cfg.byteW ∧
      t.HasBits 0 [true, false, true, true, true, false, true, false, true, true, true, false, true, false, false,
        false] ∧
      (∀ p, 16 ≤ p → t.getBit p = s.getBit p) ∧
      (s.cfg.byteW = 8 → t.res0 = 2 ∧ t.unitAt 0 = 0xBA ∧ t.unitAt 1 = 0xE8)

/-- R144: a NUL ends the input wherever it stands; cells after it are not read. -/
def Obligations.EncodeStopsAtNul : Prop :=
  ∀ (s t : State) (n : Nat), n < s.arg0 → s.arg0 ≤ s.cfg.txtBytes → s.cell n = 0 → exec .encode s = .next t →
    ∃ t', exec .encode { s with arg0 := n } = .next t' ∧ t'.res0 = t.res0 ∧ t'.boff = t.boff ∧
      ∀ p, t'.getBit p = t.getBit p

/-- R142: the stream begins with a 1; its 1-runs have length 1 or 3, its 0-runs length 1, 3 or 7. -/
def Obligations.EncodedRunsHaveTheModelLengths : Prop :=
  ∀ s t : State, exec .encode s = .next t →
    t.getBit 0 = true ∧
    ∀ o < t.boff, o = 0 ∨ t.getBit (o - 1) ≠ t.getBit o →
      (t.getBit o = true → runFrom t.getBit t.boff o = 1 ∨ runFrom t.getBit t.boff o = 3) ∧
      (t.getBit o = false →
        runFrom t.getBit t.boff o = 1 ∨ runFrom t.getBit t.boff o = 3 ∨ runFrom t.getBit t.boff o = 7)

/-! ### Decoder -/

/-- 20_memory.md section 4 (R60), R166, R203: with a TXT of `ceil(cap / 4) + 1` cells DECODE always ends, in success
or in one of the three errors. -/
def Obligations.DecodeAlwaysEnds : Prop :=
  ∀ s : State, s.arg0 ≤ s.cfg.bufUnits → ceilDiv (s.arg0 * s.cfg.byteW) 4 + 1 ≤ s.cfg.txtBytes →
    ∃ t, exec .decode s = .next t ∧ t.olen ≤ ceilDiv (s.arg0 * s.cfg.byteW) 4 ∧
      ((t.dstate = .done ∧ t.err = none) ∨ (t.dstate = .error ∧ t.err ≠ none))

/-- R165: a DECODE that succeeds leaves the count in RES0, a NUL after the text, the cells above as they were, and ERR
0; its frame. -/
def Obligations.DecodeSuccessLeavesCountAndNul : Prop :=
  ∀ s t : State, exec .decode s = .next t → t.err = none →
    t = { s with
      err := none, notFound := false, illegal := false
      res0 := t.olen, dstate := .done, boff := t.boff, olen := t.olen, pend := t.pend, txt := t.txt } ∧
    t.cell t.res0 = 0 ∧ t.res0 + 1 ≤ s.cfg.txtBytes ∧ (∀ k, t.res0 < k → t.cell k = s.cell k) ∧
    ∀ o, t.getBit o = s.getBit o

/-- R183: a DECODE that raises an error writes ERR, DSTATE, RES0; BUF is unchanged, TXT unspecified; its frame. -/
def Obligations.DecodeErrorEntry : Prop :=
  ∀ s t : State, exec .decode s = .next t → t.err ≠ none →
    t = { s with
      err := t.err, notFound := false, illegal := false
      res0 := 2 ^ s.cfg.wOff - 1, dstate := .error, boff := t.boff, olen := t.olen, pend := t.pend
      txt := t.txt, txtDraw := t.txtDraw } ∧
    ∀ o, t.getBit o = s.getBit o

/-- R184: after a DECODE, RES0 is all ones exactly when ERR is not 0. -/
def Obligations.DecodeResultAgreesWithErr : Prop :=
  ∀ s t : State, s.cfg.Valid → exec .decode s = .next t → (t.res0 = 2 ^ s.cfg.wOff - 1 ↔ t.err ≠ none)

/-- R164, R166: the text of a successful DECODE holds upper-case letters, digits and spaces only, begins with no space
and has no two spaces in a row. -/
def Obligations.DecodedTextIsClean : Prop :=
  ∀ s t : State, exec .decode s = .next t → t.err = none →
    (∀ k < t.res0, (0x41 ≤ (t.cell k).toNat ∧ (t.cell k).toNat ≤ 0x5A) ∨
      (0x30 ≤ (t.cell k).toNat ∧ (t.cell k).toNat ≤ 0x39) ∨ (t.cell k).toNat = 0x20) ∧
    (0 < t.res0 → (t.cell 0).toNat ≠ 0x20) ∧
    ∀ k, k + 1 < t.res0 → (t.cell k).toNat = 0x20 → (t.cell (k + 1)).toNat ≠ 0x20

/-- R160: the table of the decode state machine, run row by row from the start of the command, ends in the state
DECODE's pseudocode leaves, after at most `2 * cap + 1` rows. -/
def Obligations.DecodeTableIsItsPseudocode : Prop :=
  ∀ s : State, ∃ k ≤ 2 * (s.arg0 * s.cfg.byteW) + 1,
    s.beginDecode.decodeRows k = s.decodeStream ∧
    (s.decodeStream.dstate = .done ∨ s.decodeStream.dstate = .error)

/-- 20_memory.md sections 4 and 7 (R58, R67): the bits at and beyond `BLEN * BYTE_W` do not exist for a DECODE. -/
def Obligations.DecodeReadsOnlyItsUnits : Prop :=
  ∀ (s t : State) (m : Memory Bool),
    (∀ o < s.arg0 * s.cfg.byteW, ({ s with buf := m } : State).getBit o = s.getBit o) →
    exec .decode s = .next t → exec .decode { s with buf := m } = .next { t with buf := m }

/-- R174, R175: decoding what ENCODE wrote gives the normalized text, whatever BUF held before and whatever follows
the stream in the units DECODE is given. -/
def Obligations.DecodeInvertsEncode : Prop :=
  ∀ (s t : State) (n : Nat), s.cfg.Valid → exec .encode s = .next t → t.res0 ≤ n → n ≤ s.cfg.bufUnits →
    (normalize s.text).length + 1 ≤ s.cfg.txtBytes →
      ∃ u, exec .decode { t with arg0 := n } = .next u ∧ u.err = none ∧ u.dstate = .done ∧
        u.res0 = (normalize s.text).length ∧ u.HasText (normalize s.text) ∧ u.cell u.res0 = 0

/-- 44_decoder.md section 2 (R155): a first 1-run whose length is neither 1 nor 3 is error 1. -/
def Obligations.MalformedFirstRunIsErrorOne : Prop :=
  ∀ (s : State) (z : Nat), s.arg0 ≤ s.cfg.bufUnits → 1 ≤ s.cfg.txtBytes → z < s.arg0 * s.cfg.byteW →
    (∀ p < z, s.getBit p = false) → s.getBit z = true →
    s.runLength s.arg0 z ≠ 1 → s.runLength s.arg0 z ≠ 3 →
      ∃ t, exec .decode s = .next t ∧ t.err = some .malformedRun ∧ t.dstate = .error ∧ t.res0 = 2 ^ s.cfg.wOff - 1

/-- 44_decoder.md section 2 (R163), R181: a first code that is not in the table, ended by a gap of three or more, is
error 2. -/
def Obligations.UnresolvableFirstCodeIsErrorTwo : Prop :=
  ∀ (s : State) (w : Byte), s.arg0 ≤ s.cfg.bufUnits → 1 ≤ s.cfg.txtBytes → codeWordOk w = true → 1 ≤ codeLen w →
    lookupCode w = none → s.HasBits 0 (codeBits w) → (codeBits w).length ≤ s.arg0 * s.cfg.byteW →
      ∃ t, exec .decode s = .next t ∧ t.err = some .unresolvableCode ∧ t.dstate = .error ∧
        t.res0 = 2 ^ s.cfg.wOff - 1

/-- 44_decoder.md section 2 (R156): six symbols before a letter boundary are error 3. -/
def Obligations.SixthSymbolIsErrorThree : Prop :=
  ∀ (s : State) (ds : List Bool), s.arg0 ≤ s.cfg.bufUnits → 1 ≤ s.cfg.txtBytes → ds.length = 6 →
    s.HasBits 0 (ds.flatMap symbolBits) → (ds.flatMap symbolBits).length ≤ s.arg0 * s.cfg.byteW →
      ∃ t, exec .decode s = .next t ∧ t.err = some .oversizedCode ∧ t.dstate = .error ∧ t.res0 = 2 ^ s.cfg.wOff - 1

/-- R173: a run that is neither a dot nor a dash is error 1 also where five symbols are pending, not error 3. -/
def Obligations.MalformedRunWinsOverASixthSymbol : Prop :=
  ∀ (s : State) (ds : List Bool), s.arg0 ≤ s.cfg.bufUnits → 1 ≤ s.cfg.txtBytes → ds.length = 5 →
    s.HasBits 0 (ds.flatMap symbolBits ++ [true]) →
    (ds.flatMap symbolBits).length < s.arg0 * s.cfg.byteW →
    s.runLength s.arg0 (ds.flatMap symbolBits).length ≠ 1 → s.runLength s.arg0 (ds.flatMap symbolBits).length ≠ 3 →
      ∃ t, exec .decode s = .next t ∧ t.err = some .malformedRun ∧ t.dstate = .error ∧ t.res0 = 2 ^ s.cfg.wOff - 1

/-- R205, R153: a stream with no 1 in it, the empty stream among them, gives the empty text. -/
def Obligations.DecodeOfSilenceIsEmpty : Prop :=
  ∀ s : State, s.arg0 ≤ s.cfg.bufUnits → 1 ≤ s.cfg.txtBytes → (∀ p < s.arg0 * s.cfg.byteW, s.getBit p = false) →
    ∃ t, exec .decode s = .next t ∧ t.err = none ∧ t.dstate = .done ∧ t.res0 = 0 ∧ t.cell 0 = 0

/-- R170: a stream that ends after an intra-symbol gap: the pending symbols are dropped and DECODE succeeds. -/
def Obligations.CodeCutAfterAGapIsDropped : Prop :=
  ∀ (s : State) (ds : List Bool), s.arg0 ≤ s.cfg.bufUnits → 1 ≤ s.cfg.txtBytes → ds.length ≤ 5 →
    s.HasBits 0 (ds.flatMap symbolBits) → s.arg0 * s.cfg.byteW = (ds.flatMap symbolBits).length →
      ∃ t, exec .decode s = .next t ∧ t.err = none ∧ t.dstate = .done ∧ t.res0 = 0 ∧ t.cell 0 = 0

/-- R162, R171: a stream that ends in the last 1-run of a code: the code is resolved, without any terminator. -/
def Obligations.CodeCutInItsLastSymbolIsResolved : Prop :=
  ∀ (s : State) (w c : Byte), s.arg0 ≤ s.cfg.bufUnits → 2 ≤ s.cfg.txtBytes → codeWordOk w = true →
    lookupCode w = some c → c ≠ 0 → s.HasBits 0 ((codeSymbols w).flatMap symbolBits).dropLast →
    s.arg0 * s.cfg.byteW = ((codeSymbols w).flatMap symbolBits).length - 1 →
      ∃ t, exec .decode s = .next t ∧ t.err = none ∧ t.dstate = .done ∧ t.res0 = 1 ∧ t.cell 0 = c ∧ t.cell 1 = 0

/-- 44_decoder.md section 2 (R157 to R161), R169: two letters with a gap of `3 + z` zeros and then silence: no space up
to a gap of 6, exactly one from 7 on, and none after the last letter. -/
def Obligations.GapLengthSeparatesLettersAndWords : Prop :=
  ∀ (s : State) (v w a b : Byte) (z : Nat), s.arg0 ≤ s.cfg.bufUnits → 4 ≤ s.cfg.txtBytes →
    codeWordOk v = true → codeWordOk w = true → lookupCode v = some a → lookupCode w = some b → a ≠ 0 → b ≠ 0 →
    s.HasBits 0 (codeBits v ++ List.replicate z false ++ codeBits w) →
    (codeBits v ++ List.replicate z false ++ codeBits w).length ≤ s.arg0 * s.cfg.byteW →
    (∀ p, (codeBits v ++ List.replicate z false ++ codeBits w).length ≤ p → p < s.arg0 * s.cfg.byteW →
      s.getBit p = false) →
      ∃ t, exec .decode s = .next t ∧ t.err = none ∧ t.dstate = .done ∧
        t.res0 = (if z ≤ 3 then 2 else 3) ∧ t.HasText (if z ≤ 3 then [a, b] else [a, spaceChar, b]) ∧
        t.cell t.res0 = 0

/-! ### The host's port -/

/-- 10_state.md section 8 (R42), R34, R57: the host reads back the unit it wrote; no other unit, and nothing but BUF,
changes; a read changes nothing. -/
def Obligations.HostUnitsReadBack : Prop :=
  ∀ (s : State) (i v : Nat) (rest : List HostTxn), s.cfg.Valid → i < s.cfg.bufUnits →
    (s.hostQueue = .writeBuf i v :: rest → v < 2 ^ s.cfg.byteW → ∃ t, step s = .next t ∧
      t = { s with hostQueue := rest, buf := t.buf } ∧ t.unitAt i = v ∧ ∀ j, j ≠ i → t.unitAt j = s.unitAt j) ∧
    (s.hostQueue = .readBuf i :: rest → step s = .next { s with hostQueue := rest, reply := some (s.unitAt i) })

/-- 10_state.md section 8 (R42), R35, R57: the same for a cell of TXT. -/
def Obligations.HostCellsReadBack : Prop :=
  ∀ (s : State) (i v : Nat) (rest : List HostTxn), s.cfg.Valid → i < s.cfg.txtBytes →
    (s.hostQueue = .writeTxt i v :: rest → v < 256 → ∃ t, step s = .next t ∧
      t = { s with hostQueue := rest, txt := t.txt } ∧ (t.cell i).toNat = v ∧ ∀ j, j ≠ i → t.cell j = s.cell j) ∧
    (s.hostQueue = .readTxt i :: rest → step s = .next { s with hostQueue := rest, reply := some (s.cell i).toNat })

/-- 10_state.md section 2 (R21 to R26): the host writes and reads ARG0, ARG1, ARG2, reads RES0 and STATUS, and reads 0
from CMD. -/
def Obligations.HostRegistersReadBack : Prop :=
  ∀ (s : State) (v : Nat) (rest : List HostTxn), s.cfg.Valid →
    (v < 2 ^ s.cfg.wOff →
      (s.hostQueue = .writeReg 1 v :: rest → step s = .next { s with hostQueue := rest, arg0 := v }) ∧
      (s.hostQueue = .writeReg 2 v :: rest → step s = .next { s with hostQueue := rest, arg1 := v }) ∧
      (s.hostQueue = .writeReg 3 v :: rest → step s = .next { s with hostQueue := rest, arg2 := v })) ∧
    (s.hostQueue = .readReg 0 :: rest → step s = .next { s with hostQueue := rest, reply := some 0 }) ∧
    (s.hostQueue = .readReg 1 :: rest → step s = .next { s with hostQueue := rest, reply := some s.arg0 }) ∧
    (s.hostQueue = .readReg 2 :: rest → step s = .next { s with hostQueue := rest, reply := some s.arg1 }) ∧
    (s.hostQueue = .readReg 3 :: rest → step s = .next { s with hostQueue := rest, reply := some s.arg2 }) ∧
    (s.hostQueue = .readReg 4 :: rest → step s = .next { s with hostQueue := rest, reply := some s.res0 }) ∧
    (s.hostQueue = .readReg 5 :: rest → step s = .next { s with hostQueue := rest, reply := some (statusWord s) })

/-- R26: the fields of STATUS, with the numbers of R30, R31 and R180; the bits above ESTATE are 0. -/
def Obligations.StatusHoldsItsFields : Prop :=
  ∀ s : State,
    (s.regValue .status % 4 = match s.err with
      | none => 0
      | some .malformedRun => 1
      | some .unresolvableCode => 2
      | some .oversizedCode => 3) ∧
    ((s.regValue .status).testBit 2 = s.notFound ∧ (s.regValue .status).testBit 3 = s.illegal) ∧
    (s.regValue .status / 16 % 8 = match s.dstate with
      | .accumulatingSymbol => 0
      | .atLetterBoundary => 1
      | .atWordBoundary => 2
      | .done => 3
      | .error => 4) ∧
    (s.regValue .status / 128 % 8 = match s.estate with
      | .skipLead => 0
      | .char => 1
      | .sep => 2
      | .eom => 3
      | .done => 4) ∧
    s.regValue .status < 2 ^ 10

/-- 10_state.md section 8 (R42), U9: a host access to a register, unit or cell that does not exist has no meaning and
is refused. -/
def Obligations.HostAccessOutsideIsRefused : Prop :=
  ∀ (s : State) (i v : Nat) (rest : List HostTxn), s.cfg.Valid →
    (6 ≤ i → s.hostQueue = .writeReg i v :: rest ∨ s.hostQueue = .readReg i :: rest →
      step s = .refused .noSuchRegister) ∧
    (s.cfg.bufUnits ≤ i → s.hostQueue = .writeBuf i v :: rest ∨ s.hostQueue = .readBuf i :: rest →
      step s = .refused .noSuchUnit) ∧
    (s.cfg.txtBytes ≤ i → s.hostQueue = .writeTxt i v :: rest ∨ s.hostQueue = .readTxt i :: rest →
      step s = .refused .noSuchCell)

/-- R86: a command in assembler notation is its operand writes and one CMD write: the steps of its expansion run the
operation on those operands. -/
def Obligations.AssemblerLineRunsItsCommand : Prop :=
  ∀ (s : State) (i : Instr) (ops : List Nat) (rest : List HostTxn), s.cfg.Valid →
    (AsmLine.command i ops).wellFormed = true → (∀ a ∈ ops, a < 2 ^ s.cfg.wOff) →
      core.run (ops.length + 1) { s with hostQueue := (AsmLine.command i ops).expand ++ rest } =
        exec i { s with
          arg0 := ops.getD 0 s.arg0, arg1 := ops.getD 1 s.arg1, arg2 := ops.getD 2 s.arg2, hostQueue := rest }
end

