-- ==== Sys2Proof/Laws/State.lean ====
section
/-! SUPPORT. One lemma per field for each named update of State, so that no proof unfolds a record update. -/

namespace Sys2Proof.Machine

@[simp] theorem State.clearFlags_cfg (s : State) : s.clearFlags.cfg = s.cfg := rfl
@[simp] theorem State.clearFlags_arg0 (s : State) : s.clearFlags.arg0 = s.arg0 := rfl
@[simp] theorem State.clearFlags_arg1 (s : State) : s.clearFlags.arg1 = s.arg1 := rfl
@[simp] theorem State.clearFlags_arg2 (s : State) : s.clearFlags.arg2 = s.arg2 := rfl
@[simp] theorem State.clearFlags_res0 (s : State) : s.clearFlags.res0 = s.res0 := rfl
@[simp] theorem State.clearFlags_err (s : State) : s.clearFlags.err = none := rfl
@[simp] theorem State.clearFlags_notFound (s : State) : s.clearFlags.notFound = false := rfl
@[simp] theorem State.clearFlags_illegal (s : State) : s.clearFlags.illegal = false := rfl
@[simp] theorem State.clearFlags_dstate (s : State) : s.clearFlags.dstate = s.dstate := rfl
@[simp] theorem State.clearFlags_estate (s : State) : s.clearFlags.estate = s.estate := rfl
@[simp] theorem State.clearFlags_boff (s : State) : s.clearFlags.boff = s.boff := rfl
@[simp] theorem State.clearFlags_tidx (s : State) : s.clearFlags.tidx = s.tidx := rfl
@[simp] theorem State.clearFlags_olen (s : State) : s.clearFlags.olen = s.olen := rfl
@[simp] theorem State.clearFlags_pend (s : State) : s.clearFlags.pend = s.pend := rfl
@[simp] theorem State.clearFlags_cur (s : State) : s.clearFlags.cur = s.cur := rfl
@[simp] theorem State.clearFlags_sidx (s : State) : s.clearFlags.sidx = s.sidx := rfl
@[simp] theorem State.clearFlags_buf (s : State) : s.clearFlags.buf = s.buf := rfl
@[simp] theorem State.clearFlags_txt (s : State) : s.clearFlags.txt = s.txt := rfl
@[simp] theorem State.clearFlags_txtDraw (s : State) : s.clearFlags.txtDraw = s.txtDraw := rfl
@[simp] theorem State.clearFlags_hostQueue (s : State) : s.clearFlags.hostQueue = s.hostQueue := rfl
@[simp] theorem State.clearFlags_reply (s : State) : s.clearFlags.reply = s.reply := rfl

@[simp] theorem State.illegalCommand_cfg (s : State) : s.illegalCommand.cfg = s.cfg := rfl
@[simp] theorem State.illegalCommand_arg0 (s : State) : s.illegalCommand.arg0 = s.arg0 := rfl
@[simp] theorem State.illegalCommand_arg1 (s : State) : s.illegalCommand.arg1 = s.arg1 := rfl
@[simp] theorem State.illegalCommand_arg2 (s : State) : s.illegalCommand.arg2 = s.arg2 := rfl
@[simp] theorem State.illegalCommand_res0 (s : State) : s.illegalCommand.res0 = s.res0 := rfl
@[simp] theorem State.illegalCommand_err (s : State) : s.illegalCommand.err = none := rfl
@[simp] theorem State.illegalCommand_notFound (s : State) : s.illegalCommand.notFound = false := rfl
@[simp] theorem State.illegalCommand_illegal (s : State) : s.illegalCommand.illegal = true := rfl
@[simp] theorem State.illegalCommand_dstate (s : State) : s.illegalCommand.dstate = s.dstate := rfl
@[simp] theorem State.illegalCommand_estate (s : State) : s.illegalCommand.estate = s.estate := rfl
@[simp] theorem State.illegalCommand_boff (s : State) : s.illegalCommand.boff = s.boff := rfl
@[simp] theorem State.illegalCommand_tidx (s : State) : s.illegalCommand.tidx = s.tidx := rfl
@[simp] theorem State.illegalCommand_olen (s : State) : s.illegalCommand.olen = s.olen := rfl
@[simp] theorem State.illegalCommand_pend (s : State) : s.illegalCommand.pend = s.pend := rfl
@[simp] theorem State.illegalCommand_cur (s : State) : s.illegalCommand.cur = s.cur := rfl
@[simp] theorem State.illegalCommand_sidx (s : State) : s.illegalCommand.sidx = s.sidx := rfl
@[simp] theorem State.illegalCommand_buf (s : State) : s.illegalCommand.buf = s.buf := rfl
@[simp] theorem State.illegalCommand_txt (s : State) : s.illegalCommand.txt = s.txt := rfl
@[simp] theorem State.illegalCommand_txtDraw (s : State) : s.illegalCommand.txtDraw = s.txtDraw := rfl
@[simp] theorem State.illegalCommand_hostQueue (s : State) : s.illegalCommand.hostQueue = s.hostQueue := rfl
@[simp] theorem State.illegalCommand_reply (s : State) : s.illegalCommand.reply = s.reply := rfl

@[simp] theorem State.setBit_cfg (s : State) (o : Nat) (v : Bool) : (s.setBit o v).cfg = s.cfg := rfl
@[simp] theorem State.setBit_arg0 (s : State) (o : Nat) (v : Bool) : (s.setBit o v).arg0 = s.arg0 := rfl
@[simp] theorem State.setBit_arg1 (s : State) (o : Nat) (v : Bool) : (s.setBit o v).arg1 = s.arg1 := rfl
@[simp] theorem State.setBit_arg2 (s : State) (o : Nat) (v : Bool) : (s.setBit o v).arg2 = s.arg2 := rfl
@[simp] theorem State.setBit_res0 (s : State) (o : Nat) (v : Bool) : (s.setBit o v).res0 = s.res0 := rfl
@[simp] theorem State.setBit_err (s : State) (o : Nat) (v : Bool) : (s.setBit o v).err = s.err := rfl
@[simp] theorem State.setBit_notFound (s : State) (o : Nat) (v : Bool) : (s.setBit o v).notFound = s.notFound := rfl
@[simp] theorem State.setBit_illegal (s : State) (o : Nat) (v : Bool) : (s.setBit o v).illegal = s.illegal := rfl
@[simp] theorem State.setBit_dstate (s : State) (o : Nat) (v : Bool) : (s.setBit o v).dstate = s.dstate := rfl
@[simp] theorem State.setBit_estate (s : State) (o : Nat) (v : Bool) : (s.setBit o v).estate = s.estate := rfl
@[simp] theorem State.setBit_boff (s : State) (o : Nat) (v : Bool) : (s.setBit o v).boff = s.boff := rfl
@[simp] theorem State.setBit_tidx (s : State) (o : Nat) (v : Bool) : (s.setBit o v).tidx = s.tidx := rfl
@[simp] theorem State.setBit_olen (s : State) (o : Nat) (v : Bool) : (s.setBit o v).olen = s.olen := rfl
@[simp] theorem State.setBit_pend (s : State) (o : Nat) (v : Bool) : (s.setBit o v).pend = s.pend := rfl
@[simp] theorem State.setBit_cur (s : State) (o : Nat) (v : Bool) : (s.setBit o v).cur = s.cur := rfl
@[simp] theorem State.setBit_sidx (s : State) (o : Nat) (v : Bool) : (s.setBit o v).sidx = s.sidx := rfl
@[simp] theorem State.setBit_buf (s : State) (o : Nat) (v : Bool) : (s.setBit o v).buf = s.buf.write o v := rfl
@[simp] theorem State.setBit_txt (s : State) (o : Nat) (v : Bool) : (s.setBit o v).txt = s.txt := rfl
@[simp] theorem State.setBit_txtDraw (s : State) (o : Nat) (v : Bool) : (s.setBit o v).txtDraw = s.txtDraw := rfl
@[simp] theorem State.setBit_hostQueue (s : State) (o : Nat) (v : Bool) : (s.setBit o v).hostQueue = s.hostQueue := rfl
@[simp] theorem State.setBit_reply (s : State) (o : Nat) (v : Bool) : (s.setBit o v).reply = s.reply := rfl

@[simp] theorem State.setCell_cfg (s : State) (i : Nat) (c : Byte) : (s.setCell i c).cfg = s.cfg := rfl
@[simp] theorem State.setCell_arg0 (s : State) (i : Nat) (c : Byte) : (s.setCell i c).arg0 = s.arg0 := rfl
@[simp] theorem State.setCell_arg1 (s : State) (i : Nat) (c : Byte) : (s.setCell i c).arg1 = s.arg1 := rfl
@[simp] theorem State.setCell_arg2 (s : State) (i : Nat) (c : Byte) : (s.setCell i c).arg2 = s.arg2 := rfl
@[simp] theorem State.setCell_res0 (s : State) (i : Nat) (c : Byte) : (s.setCell i c).res0 = s.res0 := rfl
@[simp] theorem State.setCell_err (s : State) (i : Nat) (c : Byte) : (s.setCell i c).err = s.err := rfl
@[simp] theorem State.setCell_notFound (s : State) (i : Nat) (c : Byte) : (s.setCell i c).notFound = s.notFound := rfl
@[simp] theorem State.setCell_illegal (s : State) (i : Nat) (c : Byte) : (s.setCell i c).illegal = s.illegal := rfl
@[simp] theorem State.setCell_dstate (s : State) (i : Nat) (c : Byte) : (s.setCell i c).dstate = s.dstate := rfl
@[simp] theorem State.setCell_estate (s : State) (i : Nat) (c : Byte) : (s.setCell i c).estate = s.estate := rfl
@[simp] theorem State.setCell_boff (s : State) (i : Nat) (c : Byte) : (s.setCell i c).boff = s.boff := rfl
@[simp] theorem State.setCell_tidx (s : State) (i : Nat) (c : Byte) : (s.setCell i c).tidx = s.tidx := rfl
@[simp] theorem State.setCell_olen (s : State) (i : Nat) (c : Byte) : (s.setCell i c).olen = s.olen := rfl
@[simp] theorem State.setCell_pend (s : State) (i : Nat) (c : Byte) : (s.setCell i c).pend = s.pend := rfl
@[simp] theorem State.setCell_cur (s : State) (i : Nat) (c : Byte) : (s.setCell i c).cur = s.cur := rfl
@[simp] theorem State.setCell_sidx (s : State) (i : Nat) (c : Byte) : (s.setCell i c).sidx = s.sidx := rfl
@[simp] theorem State.setCell_buf (s : State) (i : Nat) (c : Byte) : (s.setCell i c).buf = s.buf := rfl
@[simp] theorem State.setCell_txt (s : State) (i : Nat) (c : Byte) : (s.setCell i c).txt = s.txt.write i c := rfl
@[simp] theorem State.setCell_txtDraw (s : State) (i : Nat) (c : Byte) : (s.setCell i c).txtDraw = s.txtDraw := rfl
@[simp] theorem State.setCell_hostQueue (s : State) (i : Nat) (c : Byte) : (s.setCell i c).hostQueue = s.hostQueue := rfl
@[simp] theorem State.setCell_reply (s : State) (i : Nat) (c : Byte) : (s.setCell i c).reply = s.reply := rfl

@[simp] theorem State.raiseDecodeError_cfg (s : State) (e : DecodeError) : (s.raiseDecodeError e).cfg = s.cfg := rfl
@[simp] theorem State.raiseDecodeError_arg0 (s : State) (e : DecodeError) : (s.raiseDecodeError e).arg0 = s.arg0 := rfl
@[simp] theorem State.raiseDecodeError_arg1 (s : State) (e : DecodeError) : (s.raiseDecodeError e).arg1 = s.arg1 := rfl
@[simp] theorem State.raiseDecodeError_arg2 (s : State) (e : DecodeError) : (s.raiseDecodeError e).arg2 = s.arg2 := rfl
@[simp] theorem State.raiseDecodeError_res0 (s : State) (e : DecodeError) : (s.raiseDecodeError e).res0 = errorValue s.cfg := rfl
@[simp] theorem State.raiseDecodeError_err (s : State) (e : DecodeError) : (s.raiseDecodeError e).err = some e := rfl
@[simp] theorem State.raiseDecodeError_notFound (s : State) (e : DecodeError) : (s.raiseDecodeError e).notFound = s.notFound := rfl
@[simp] theorem State.raiseDecodeError_illegal (s : State) (e : DecodeError) : (s.raiseDecodeError e).illegal = s.illegal := rfl
@[simp] theorem State.raiseDecodeError_dstate (s : State) (e : DecodeError) : (s.raiseDecodeError e).dstate = .error := rfl
@[simp] theorem State.raiseDecodeError_estate (s : State) (e : DecodeError) : (s.raiseDecodeError e).estate = s.estate := rfl
@[simp] theorem State.raiseDecodeError_boff (s : State) (e : DecodeError) : (s.raiseDecodeError e).boff = s.boff := rfl
@[simp] theorem State.raiseDecodeError_tidx (s : State) (e : DecodeError) : (s.raiseDecodeError e).tidx = s.tidx := rfl
@[simp] theorem State.raiseDecodeError_olen (s : State) (e : DecodeError) : (s.raiseDecodeError e).olen = s.olen := rfl
@[simp] theorem State.raiseDecodeError_pend (s : State) (e : DecodeError) : (s.raiseDecodeError e).pend = s.pend := rfl
@[simp] theorem State.raiseDecodeError_cur (s : State) (e : DecodeError) : (s.raiseDecodeError e).cur = s.cur := rfl
@[simp] theorem State.raiseDecodeError_sidx (s : State) (e : DecodeError) : (s.raiseDecodeError e).sidx = s.sidx := rfl
@[simp] theorem State.raiseDecodeError_buf (s : State) (e : DecodeError) : (s.raiseDecodeError e).buf = s.buf := rfl
@[simp] theorem State.raiseDecodeError_txt (s : State) (e : DecodeError) : (s.raiseDecodeError e).txt = [] := rfl
@[simp] theorem State.raiseDecodeError_txtDraw (s : State) (e : DecodeError) : (s.raiseDecodeError e).txtDraw = s.txtDraw + 1 := rfl
@[simp] theorem State.raiseDecodeError_hostQueue (s : State) (e : DecodeError) : (s.raiseDecodeError e).hostQueue = s.hostQueue := rfl
@[simp] theorem State.raiseDecodeError_reply (s : State) (e : DecodeError) : (s.raiseDecodeError e).reply = s.reply := rfl

@[simp] theorem State.appendChar_cfg (s : State) (c : Byte) : (s.appendChar c).cfg = s.cfg := rfl
@[simp] theorem State.appendChar_arg0 (s : State) (c : Byte) : (s.appendChar c).arg0 = s.arg0 := rfl
@[simp] theorem State.appendChar_arg1 (s : State) (c : Byte) : (s.appendChar c).arg1 = s.arg1 := rfl
@[simp] theorem State.appendChar_arg2 (s : State) (c : Byte) : (s.appendChar c).arg2 = s.arg2 := rfl
@[simp] theorem State.appendChar_res0 (s : State) (c : Byte) : (s.appendChar c).res0 = s.res0 := rfl
@[simp] theorem State.appendChar_err (s : State) (c : Byte) : (s.appendChar c).err = s.err := rfl
@[simp] theorem State.appendChar_notFound (s : State) (c : Byte) : (s.appendChar c).notFound = s.notFound := rfl
@[simp] theorem State.appendChar_illegal (s : State) (c : Byte) : (s.appendChar c).illegal = s.illegal := rfl
@[simp] theorem State.appendChar_dstate (s : State) (c : Byte) : (s.appendChar c).dstate = s.dstate := rfl
@[simp] theorem State.appendChar_estate (s : State) (c : Byte) : (s.appendChar c).estate = s.estate := rfl
@[simp] theorem State.appendChar_boff (s : State) (c : Byte) : (s.appendChar c).boff = s.boff := rfl
@[simp] theorem State.appendChar_tidx (s : State) (c : Byte) : (s.appendChar c).tidx = s.tidx := rfl
@[simp] theorem State.appendChar_olen (s : State) (c : Byte) : (s.appendChar c).olen = s.olen + 1 := rfl
@[simp] theorem State.appendChar_pend (s : State) (c : Byte) : (s.appendChar c).pend = s.pend := rfl
@[simp] theorem State.appendChar_cur (s : State) (c : Byte) : (s.appendChar c).cur = s.cur := rfl
@[simp] theorem State.appendChar_sidx (s : State) (c : Byte) : (s.appendChar c).sidx = s.sidx := rfl
@[simp] theorem State.appendChar_buf (s : State) (c : Byte) : (s.appendChar c).buf = s.buf := rfl
@[simp] theorem State.appendChar_txt (s : State) (c : Byte) : (s.appendChar c).txt = s.txt.write s.olen c := rfl
@[simp] theorem State.appendChar_txtDraw (s : State) (c : Byte) : (s.appendChar c).txtDraw = s.txtDraw := rfl
@[simp] theorem State.appendChar_hostQueue (s : State) (c : Byte) : (s.appendChar c).hostQueue = s.hostQueue := rfl
@[simp] theorem State.appendChar_reply (s : State) (c : Byte) : (s.appendChar c).reply = s.reply := rfl

@[simp] theorem State.finishDecode_cfg (s : State) : s.finishDecode.cfg = s.cfg := rfl
@[simp] theorem State.finishDecode_arg0 (s : State) : s.finishDecode.arg0 = s.arg0 := rfl
@[simp] theorem State.finishDecode_arg1 (s : State) : s.finishDecode.arg1 = s.arg1 := rfl
@[simp] theorem State.finishDecode_arg2 (s : State) : s.finishDecode.arg2 = s.arg2 := rfl
@[simp] theorem State.finishDecode_res0 (s : State) : s.finishDecode.res0 = s.olen := rfl
@[simp] theorem State.finishDecode_err (s : State) : s.finishDecode.err = s.err := rfl
@[simp] theorem State.finishDecode_notFound (s : State) : s.finishDecode.notFound = s.notFound := rfl
@[simp] theorem State.finishDecode_illegal (s : State) : s.finishDecode.illegal = s.illegal := rfl
@[simp] theorem State.finishDecode_dstate (s : State) : s.finishDecode.dstate = .done := rfl
@[simp] theorem State.finishDecode_estate (s : State) : s.finishDecode.estate = s.estate := rfl
@[simp] theorem State.finishDecode_boff (s : State) : s.finishDecode.boff = s.boff := rfl
@[simp] theorem State.finishDecode_tidx (s : State) : s.finishDecode.tidx = s.tidx := rfl
@[simp] theorem State.finishDecode_olen (s : State) : s.finishDecode.olen = s.olen := rfl
@[simp] theorem State.finishDecode_pend (s : State) : s.finishDecode.pend = s.pend := rfl
@[simp] theorem State.finishDecode_cur (s : State) : s.finishDecode.cur = s.cur := rfl
@[simp] theorem State.finishDecode_sidx (s : State) : s.finishDecode.sidx = s.sidx := rfl
@[simp] theorem State.finishDecode_buf (s : State) : s.finishDecode.buf = s.buf := rfl
@[simp] theorem State.finishDecode_txt (s : State) : s.finishDecode.txt = s.txt.write s.olen 0 := rfl
@[simp] theorem State.finishDecode_txtDraw (s : State) : s.finishDecode.txtDraw = s.txtDraw := rfl
@[simp] theorem State.finishDecode_hostQueue (s : State) : s.finishDecode.hostQueue = s.hostQueue := rfl
@[simp] theorem State.finishDecode_reply (s : State) : s.finishDecode.reply = s.reply := rfl

@[simp] theorem State.beginEncode_cfg (s : State) : s.beginEncode.cfg = s.cfg := rfl
@[simp] theorem State.beginEncode_arg0 (s : State) : s.beginEncode.arg0 = s.arg0 := rfl
@[simp] theorem State.beginEncode_arg1 (s : State) : s.beginEncode.arg1 = s.arg1 := rfl
@[simp] theorem State.beginEncode_arg2 (s : State) : s.beginEncode.arg2 = s.arg2 := rfl
@[simp] theorem State.beginEncode_res0 (s : State) : s.beginEncode.res0 = s.res0 := rfl
@[simp] theorem State.beginEncode_err (s : State) : s.beginEncode.err = s.err := rfl
@[simp] theorem State.beginEncode_notFound (s : State) : s.beginEncode.notFound = s.notFound := rfl
@[simp] theorem State.beginEncode_illegal (s : State) : s.beginEncode.illegal = s.illegal := rfl
@[simp] theorem State.beginEncode_dstate (s : State) : s.beginEncode.dstate = s.dstate := rfl
@[simp] theorem State.beginEncode_estate (s : State) : s.beginEncode.estate = .skipLead := rfl
@[simp] theorem State.beginEncode_boff (s : State) : s.beginEncode.boff = 0 := rfl
@[simp] theorem State.beginEncode_tidx (s : State) : s.beginEncode.tidx = 0 := rfl
@[simp] theorem State.beginEncode_olen (s : State) : s.beginEncode.olen = s.olen := rfl
@[simp] theorem State.beginEncode_pend (s : State) : s.beginEncode.pend = s.pend := rfl
@[simp] theorem State.beginEncode_cur (s : State) : s.beginEncode.cur = s.cur := rfl
@[simp] theorem State.beginEncode_sidx (s : State) : s.beginEncode.sidx = s.sidx := rfl
@[simp] theorem State.beginEncode_buf (s : State) : s.beginEncode.buf = s.buf := rfl
@[simp] theorem State.beginEncode_txt (s : State) : s.beginEncode.txt = s.txt := rfl
@[simp] theorem State.beginEncode_txtDraw (s : State) : s.beginEncode.txtDraw = s.txtDraw := rfl
@[simp] theorem State.beginEncode_hostQueue (s : State) : s.beginEncode.hostQueue = s.hostQueue := rfl
@[simp] theorem State.beginEncode_reply (s : State) : s.beginEncode.reply = s.reply := rfl

@[simp] theorem State.answer_cfg (s : State) (v : Nat) : (s.answer v).cfg = s.cfg := rfl
@[simp] theorem State.answer_arg0 (s : State) (v : Nat) : (s.answer v).arg0 = s.arg0 := rfl
@[simp] theorem State.answer_arg1 (s : State) (v : Nat) : (s.answer v).arg1 = s.arg1 := rfl
@[simp] theorem State.answer_arg2 (s : State) (v : Nat) : (s.answer v).arg2 = s.arg2 := rfl
@[simp] theorem State.answer_res0 (s : State) (v : Nat) : (s.answer v).res0 = s.res0 := rfl
@[simp] theorem State.answer_err (s : State) (v : Nat) : (s.answer v).err = s.err := rfl
@[simp] theorem State.answer_notFound (s : State) (v : Nat) : (s.answer v).notFound = s.notFound := rfl
@[simp] theorem State.answer_illegal (s : State) (v : Nat) : (s.answer v).illegal = s.illegal := rfl
@[simp] theorem State.answer_dstate (s : State) (v : Nat) : (s.answer v).dstate = s.dstate := rfl
@[simp] theorem State.answer_estate (s : State) (v : Nat) : (s.answer v).estate = s.estate := rfl
@[simp] theorem State.answer_boff (s : State) (v : Nat) : (s.answer v).boff = s.boff := rfl
@[simp] theorem State.answer_tidx (s : State) (v : Nat) : (s.answer v).tidx = s.tidx := rfl
@[simp] theorem State.answer_olen (s : State) (v : Nat) : (s.answer v).olen = s.olen := rfl
@[simp] theorem State.answer_pend (s : State) (v : Nat) : (s.answer v).pend = s.pend := rfl
@[simp] theorem State.answer_cur (s : State) (v : Nat) : (s.answer v).cur = s.cur := rfl
@[simp] theorem State.answer_sidx (s : State) (v : Nat) : (s.answer v).sidx = s.sidx := rfl
@[simp] theorem State.answer_buf (s : State) (v : Nat) : (s.answer v).buf = s.buf := rfl
@[simp] theorem State.answer_txt (s : State) (v : Nat) : (s.answer v).txt = s.txt := rfl
@[simp] theorem State.answer_txtDraw (s : State) (v : Nat) : (s.answer v).txtDraw = s.txtDraw := rfl
@[simp] theorem State.answer_hostQueue (s : State) (v : Nat) : (s.answer v).hostQueue = s.hostQueue := rfl
@[simp] theorem State.answer_reply (s : State) (v : Nat) : (s.answer v).reply = some v := rfl

@[simp] theorem State.setDstate_cfg (s : State) (d : DState) : (s.setDstate d).cfg = s.cfg := rfl
@[simp] theorem State.setDstate_arg0 (s : State) (d : DState) : (s.setDstate d).arg0 = s.arg0 := rfl
@[simp] theorem State.setDstate_arg1 (s : State) (d : DState) : (s.setDstate d).arg1 = s.arg1 := rfl
@[simp] theorem State.setDstate_arg2 (s : State) (d : DState) : (s.setDstate d).arg2 = s.arg2 := rfl
@[simp] theorem State.setDstate_res0 (s : State) (d : DState) : (s.setDstate d).res0 = s.res0 := rfl
@[simp] theorem State.setDstate_err (s : State) (d : DState) : (s.setDstate d).err = s.err := rfl
@[simp] theorem State.setDstate_notFound (s : State) (d : DState) : (s.setDstate d).notFound = s.notFound := rfl
@[simp] theorem State.setDstate_illegal (s : State) (d : DState) : (s.setDstate d).illegal = s.illegal := rfl
@[simp] theorem State.setDstate_dstate (s : State) (d : DState) : (s.setDstate d).dstate = d := rfl
@[simp] theorem State.setDstate_estate (s : State) (d : DState) : (s.setDstate d).estate = s.estate := rfl
@[simp] theorem State.setDstate_boff (s : State) (d : DState) : (s.setDstate d).boff = s.boff := rfl
@[simp] theorem State.setDstate_tidx (s : State) (d : DState) : (s.setDstate d).tidx = s.tidx := rfl
@[simp] theorem State.setDstate_olen (s : State) (d : DState) : (s.setDstate d).olen = s.olen := rfl
@[simp] theorem State.setDstate_pend (s : State) (d : DState) : (s.setDstate d).pend = s.pend := rfl
@[simp] theorem State.setDstate_cur (s : State) (d : DState) : (s.setDstate d).cur = s.cur := rfl
@[simp] theorem State.setDstate_sidx (s : State) (d : DState) : (s.setDstate d).sidx = s.sidx := rfl
@[simp] theorem State.setDstate_buf (s : State) (d : DState) : (s.setDstate d).buf = s.buf := rfl
@[simp] theorem State.setDstate_txt (s : State) (d : DState) : (s.setDstate d).txt = s.txt := rfl
@[simp] theorem State.setDstate_txtDraw (s : State) (d : DState) : (s.setDstate d).txtDraw = s.txtDraw := rfl
@[simp] theorem State.setDstate_hostQueue (s : State) (d : DState) : (s.setDstate d).hostQueue = s.hostQueue := rfl
@[simp] theorem State.setDstate_reply (s : State) (d : DState) : (s.setDstate d).reply = s.reply := rfl

@[simp] theorem State.advance_cfg (s : State) (n : Nat) : (s.advance n).cfg = s.cfg := rfl
@[simp] theorem State.advance_arg0 (s : State) (n : Nat) : (s.advance n).arg0 = s.arg0 := rfl
@[simp] theorem State.advance_arg1 (s : State) (n : Nat) : (s.advance n).arg1 = s.arg1 := rfl
@[simp] theorem State.advance_arg2 (s : State) (n : Nat) : (s.advance n).arg2 = s.arg2 := rfl
@[simp] theorem State.advance_res0 (s : State) (n : Nat) : (s.advance n).res0 = s.res0 := rfl
@[simp] theorem State.advance_err (s : State) (n : Nat) : (s.advance n).err = s.err := rfl
@[simp] theorem State.advance_notFound (s : State) (n : Nat) : (s.advance n).notFound = s.notFound := rfl
@[simp] theorem State.advance_illegal (s : State) (n : Nat) : (s.advance n).illegal = s.illegal := rfl
@[simp] theorem State.advance_dstate (s : State) (n : Nat) : (s.advance n).dstate = s.dstate := rfl
@[simp] theorem State.advance_estate (s : State) (n : Nat) : (s.advance n).estate = s.estate := rfl
@[simp] theorem State.advance_boff (s : State) (n : Nat) : (s.advance n).boff = s.boff + n := rfl
@[simp] theorem State.advance_tidx (s : State) (n : Nat) : (s.advance n).tidx = s.tidx := rfl
@[simp] theorem State.advance_olen (s : State) (n : Nat) : (s.advance n).olen = s.olen := rfl
@[simp] theorem State.advance_pend (s : State) (n : Nat) : (s.advance n).pend = s.pend := rfl
@[simp] theorem State.advance_cur (s : State) (n : Nat) : (s.advance n).cur = s.cur := rfl
@[simp] theorem State.advance_sidx (s : State) (n : Nat) : (s.advance n).sidx = s.sidx := rfl
@[simp] theorem State.advance_buf (s : State) (n : Nat) : (s.advance n).buf = s.buf := rfl
@[simp] theorem State.advance_txt (s : State) (n : Nat) : (s.advance n).txt = s.txt := rfl
@[simp] theorem State.advance_txtDraw (s : State) (n : Nat) : (s.advance n).txtDraw = s.txtDraw := rfl
@[simp] theorem State.advance_hostQueue (s : State) (n : Nat) : (s.advance n).hostQueue = s.hostQueue := rfl
@[simp] theorem State.advance_reply (s : State) (n : Nat) : (s.advance n).reply = s.reply := rfl

@[simp] theorem State.push_cfg (s : State) (d : Bool) : (s.push d).cfg = s.cfg := rfl
@[simp] theorem State.push_arg0 (s : State) (d : Bool) : (s.push d).arg0 = s.arg0 := rfl
@[simp] theorem State.push_arg1 (s : State) (d : Bool) : (s.push d).arg1 = s.arg1 := rfl
@[simp] theorem State.push_arg2 (s : State) (d : Bool) : (s.push d).arg2 = s.arg2 := rfl
@[simp] theorem State.push_res0 (s : State) (d : Bool) : (s.push d).res0 = s.res0 := rfl
@[simp] theorem State.push_err (s : State) (d : Bool) : (s.push d).err = s.err := rfl
@[simp] theorem State.push_notFound (s : State) (d : Bool) : (s.push d).notFound = s.notFound := rfl
@[simp] theorem State.push_illegal (s : State) (d : Bool) : (s.push d).illegal = s.illegal := rfl
@[simp] theorem State.push_dstate (s : State) (d : Bool) : (s.push d).dstate = s.dstate := rfl
@[simp] theorem State.push_estate (s : State) (d : Bool) : (s.push d).estate = s.estate := rfl
@[simp] theorem State.push_boff (s : State) (d : Bool) : (s.push d).boff = s.boff := rfl
@[simp] theorem State.push_tidx (s : State) (d : Bool) : (s.push d).tidx = s.tidx := rfl
@[simp] theorem State.push_olen (s : State) (d : Bool) : (s.push d).olen = s.olen := rfl
@[simp] theorem State.push_pend (s : State) (d : Bool) : (s.push d).pend = pushSymbol s.pend d := rfl
@[simp] theorem State.push_cur (s : State) (d : Bool) : (s.push d).cur = s.cur := rfl
@[simp] theorem State.push_sidx (s : State) (d : Bool) : (s.push d).sidx = s.sidx := rfl
@[simp] theorem State.push_buf (s : State) (d : Bool) : (s.push d).buf = s.buf := rfl
@[simp] theorem State.push_txt (s : State) (d : Bool) : (s.push d).txt = s.txt := rfl
@[simp] theorem State.push_txtDraw (s : State) (d : Bool) : (s.push d).txtDraw = s.txtDraw := rfl
@[simp] theorem State.push_hostQueue (s : State) (d : Bool) : (s.push d).hostQueue = s.hostQueue := rfl
@[simp] theorem State.push_reply (s : State) (d : Bool) : (s.push d).reply = s.reply := rfl

@[simp] theorem State.takeChar_cfg (s : State) (c : Byte) : (s.takeChar c).cfg = s.cfg := rfl
@[simp] theorem State.takeChar_arg0 (s : State) (c : Byte) : (s.takeChar c).arg0 = s.arg0 := rfl
@[simp] theorem State.takeChar_arg1 (s : State) (c : Byte) : (s.takeChar c).arg1 = s.arg1 := rfl
@[simp] theorem State.takeChar_arg2 (s : State) (c : Byte) : (s.takeChar c).arg2 = s.arg2 := rfl
@[simp] theorem State.takeChar_res0 (s : State) (c : Byte) : (s.takeChar c).res0 = s.res0 := rfl
@[simp] theorem State.takeChar_err (s : State) (c : Byte) : (s.takeChar c).err = s.err := rfl
@[simp] theorem State.takeChar_notFound (s : State) (c : Byte) : (s.takeChar c).notFound = s.notFound := rfl
@[simp] theorem State.takeChar_illegal (s : State) (c : Byte) : (s.takeChar c).illegal = s.illegal := rfl
@[simp] theorem State.takeChar_dstate (s : State) (c : Byte) : (s.takeChar c).dstate = s.dstate := rfl
@[simp] theorem State.takeChar_estate (s : State) (c : Byte) : (s.takeChar c).estate = s.estate := rfl
@[simp] theorem State.takeChar_boff (s : State) (c : Byte) : (s.takeChar c).boff = s.boff := rfl
@[simp] theorem State.takeChar_tidx (s : State) (c : Byte) : (s.takeChar c).tidx = s.tidx := rfl
@[simp] theorem State.takeChar_olen (s : State) (c : Byte) : (s.takeChar c).olen = s.olen + 1 := rfl
@[simp] theorem State.takeChar_pend (s : State) (c : Byte) : (s.takeChar c).pend = 0 := rfl
@[simp] theorem State.takeChar_cur (s : State) (c : Byte) : (s.takeChar c).cur = s.cur := rfl
@[simp] theorem State.takeChar_sidx (s : State) (c : Byte) : (s.takeChar c).sidx = s.sidx := rfl
@[simp] theorem State.takeChar_buf (s : State) (c : Byte) : (s.takeChar c).buf = s.buf := rfl
@[simp] theorem State.takeChar_txt (s : State) (c : Byte) : (s.takeChar c).txt = s.txt.write s.olen c := rfl
@[simp] theorem State.takeChar_txtDraw (s : State) (c : Byte) : (s.takeChar c).txtDraw = s.txtDraw := rfl
@[simp] theorem State.takeChar_hostQueue (s : State) (c : Byte) : (s.takeChar c).hostQueue = s.hostQueue := rfl
@[simp] theorem State.takeChar_reply (s : State) (c : Byte) : (s.takeChar c).reply = s.reply := rfl

end Sys2Proof.Machine
end

