-- ==== Sys2Proof/Laws/CodeTable.lean ====
section
/-! SUPPORT. Facts about code words and the code table (30_encoding.md rules R80 to R85, 40_code_table.md rules R90
to R94). -/

namespace Sys2Proof.Machine

/-- A fact about every byte follows from its 256 instances. -/
theorem byte_forall {p : Byte → Prop} (h : ∀ n < 256, p (BitVec.ofNat 8 n)) (w : Byte) : p w := by
  simpa using h w.toNat w.isLt

/-- A fact about every entry follows from evaluating it on the list. -/
theorem ctrom_forall {p : BitVec 16 → Prop} [DecidablePred p] (h : (ctrom.all fun e => decide (p e)) = true) :
    ∀ e ∈ ctrom, p e := by
  simpa using h

theorem codeSyms_lt (w : Byte) : codeSyms w < 32 := Nat.mod_lt _ (by decide)

theorem codeLen_lt (w : Byte) : codeLen w < 8 := by
  have := w.isLt
  simp only [codeLen]; omega

theorem codeLen_mkCode {n s : Nat} (hn : n < 8) (hs : s < 32) : codeLen (mkCode n s) = n := by
  simp only [codeLen, mkCode, BitVec.toNat_ofNat]; omega

theorem codeSyms_mkCode {n s : Nat} (hs : s < 32) : codeSyms (mkCode n s) = s := by
  simp only [codeSyms, mkCode, BitVec.toNat_ofNat]; omega

theorem mkCode_codeLen_codeSyms (w : Byte) : mkCode (codeLen w) (codeSyms w) = w := by
  apply BitVec.eq_of_toNat_eq
  have := w.isLt
  simp only [mkCode, codeLen, codeSyms, BitVec.toNat_ofNat]; omega

theorem codeWordOk_iff (w : Byte) : codeWordOk w = true ↔ codeLen w ≤ 5 ∧ codeSyms w < 2 ^ codeLen w := by
  simp only [codeWordOk, Bool.and_eq_true, decide_eq_true_eq]
  exact Iff.rfl

@[simp] theorem codeWordOk_zero : codeWordOk 0#8 = true := by decide

@[simp] theorem codeLen_zero : codeLen 0#8 = 0 := by decide

theorem pushSymbol_syms_lt {w : Byte} (dash : Bool) (h : codeWordOk w = true) :
    (codeSyms w + if dash then 2 ^ codeLen w else 0) < 2 ^ (codeLen w + 1) := by
  obtain ⟨_, hs⟩ := (codeWordOk_iff w).1 h
  rw [Nat.pow_succ]
  split_ifs <;> omega

theorem codeLen_pushSymbol {w : Byte} (dash : Bool) (h : codeWordOk w = true) (hl : codeLen w < 5) :
    codeLen (pushSymbol w dash) = codeLen w + 1 := by
  refine codeLen_mkCode (by omega) (lt_of_lt_of_le (pushSymbol_syms_lt dash h) ?_)
  calc 2 ^ (codeLen w + 1) ≤ 2 ^ 5 := Nat.pow_le_pow_right (by decide) (by omega)
    _ = 32 := rfl

theorem codeSyms_pushSymbol {w : Byte} (dash : Bool) (h : codeWordOk w = true) (hl : codeLen w < 5) :
    codeSyms (pushSymbol w dash) = codeSyms w + if dash then 2 ^ codeLen w else 0 := by
  refine codeSyms_mkCode (lt_of_lt_of_le (pushSymbol_syms_lt dash h) ?_)
  calc 2 ^ (codeLen w + 1) ≤ 2 ^ 5 := Nat.pow_le_pow_right (by decide) (by omega)
    _ = 32 := rfl

/-- PEND stays a code word when a symbol is pushed into one with room (R32, R156). -/
theorem codeWordOk_pushSymbol {w : Byte} (dash : Bool) (h : codeWordOk w = true) (hl : codeLen w < 5) :
    codeWordOk (pushSymbol w dash) = true := by
  rw [codeWordOk_iff, codeLen_pushSymbol dash h hl, codeSyms_pushSymbol dash h hl]
  exact ⟨by omega, pushSymbol_syms_lt dash h⟩

/-- Pushing the symbols of a code one by one into an empty PEND builds its code word. -/
def pushAll (w : Byte) (symbols : List Bool) : Byte := symbols.foldl pushSymbol w

@[simp] theorem pushAll_nil (w : Byte) : pushAll w [] = w := rfl

@[simp] theorem pushAll_cons (w : Byte) (d : Bool) (ds : List Bool) :
    pushAll w (d :: ds) = pushAll (pushSymbol w d) ds := rfl

theorem codeWordOk_pushAll {w : Byte} (ds : List Bool) (h : codeWordOk w = true) (hl : codeLen w + ds.length ≤ 5) :
    codeWordOk (pushAll w ds) = true ∧ codeLen (pushAll w ds) = codeLen w + ds.length := by
  induction ds generalizing w with
  | nil => exact ⟨h, rfl⟩
  | cons d ds ih =>
    simp only [List.length_cons] at hl
    have e := codeLen_pushSymbol d h (by omega)
    obtain ⟨h1, h2⟩ := ih (codeWordOk_pushSymbol d h (by omega)) (by omega)
    exact ⟨h1, by rw [pushAll_cons, h2, e, List.length_cons]; omega⟩

/-- The symbols of a well-formed code word, pushed one by one, give the word back (R32, R80). -/
theorem pushAll_codeSymbols : ∀ w : Byte, codeWordOk w = true → pushAll 0 (codeSymbols w) = w :=
  byte_forall (by decide +kernel)

theorem codeSymbols_length (w : Byte) : (codeSymbols w).length = codeLen w := by simp [codeSymbols]

/-! ### The table -/

/-- Every entry's code is a well-formed, not empty code word (R80, R91). -/
theorem ctrom_codes_ok : ∀ e ∈ ctrom, codeWordOk (entryCode e) = true ∧ 1 ≤ codeLen (entryCode e) :=
  ctrom_forall (by decide +kernel)

/-- Every character with an entry is found, and its code resolves to it (R93, R94, R97). -/
theorem ctrom_inverse :
    ∀ e ∈ ctrom, lookupChar (entryChar e) = some (entryCode e) ∧ lookupCode (entryCode e) = some (entryChar e) :=
  ctrom_forall (by decide +kernel)

theorem lookupChar_some {c w : Byte} (h : lookupChar c = some w) : ∃ e ∈ ctrom, entryChar e = c ∧ entryCode e = w := by
  simp only [lookupChar, Option.map_eq_some_iff] at h
  obtain ⟨e, he, hw⟩ := h
  exact ⟨e, List.mem_of_find?_eq_some he, by simpa using List.find?_some he, hw⟩

theorem lookupChar_none {c : Byte} : lookupChar c = none ↔ ∀ e ∈ ctrom, entryChar e ≠ c := by
  simp [lookupChar]

theorem lookupCode_some {w c : Byte} (h : lookupCode w = some c) :
    ∃ e ∈ ctrom, sameCode w (entryCode e) = true ∧ entryChar e = c := by
  simp only [lookupCode, Option.map_eq_some_iff] at h
  obtain ⟨e, he, hc⟩ := h
  exact ⟨e, List.mem_of_find?_eq_some he, by simpa using List.find?_some he, hc⟩

theorem lookupCode_none {w : Byte} : lookupCode w = none ↔ ∀ e ∈ ctrom, sameCode w (entryCode e) = false := by
  simp [lookupCode]

/-- Every alphanumeric character has, after case folding, a code of one to five symbols, and that code resolves to
the folded character (R84, R134). -/
theorem alnum_lookup : ∀ c : Byte, alnum c = true →
    ∃ w, lookupChar (upper c) = some w ∧ codeWordOk w = true ∧ 1 ≤ codeLen w ∧ lookupCode w = some (upper c) := by
  have h : ∀ c : Byte, alnum c = true → (match lookupChar (upper c) with
      | some w => codeWordOk w && decide (1 ≤ codeLen w) && lookupCode w == some (upper c)
      | none => false) = true := byte_forall (by decide +kernel)
  intro c hc
  have := h c hc
  cases hl : lookupChar (upper c) with
  | none => simp [hl] at this
  | some w =>
    simp only [hl, Bool.and_eq_true, decide_eq_true_eq, beq_iff_eq] at this
    exact ⟨w, rfl, this.1.1, this.1.2, this.2⟩

/-- A code that resolves has a symbol (R91). -/
theorem codeLen_pos_of_lookup {w c : Byte} (h : lookupCode w = some c) : 1 ≤ codeLen w := by
  obtain ⟨e, he, hs, -⟩ := lookupCode_some h
  have := (ctrom_codes_ok e he).2
  simp only [sameCode, Bool.and_eq_true, beq_iff_eq] at hs
  omega

/-- What a code resolves to is NUL, an upper-case letter or a digit (R90, R164). -/
theorem lookupCode_range {w c : Byte} (h : lookupCode w = some c) :
    c = 0 ∨ (0x41 ≤ c.toNat ∧ c.toNat ≤ 0x5A) ∨ (0x30 ≤ c.toNat ∧ c.toNat ≤ 0x39) := by
  obtain ⟨e, he, _, rfl⟩ := lookupCode_some h
  have : ∀ e ∈ ctrom, entryChar e = 0 ∨ (0x41 ≤ (entryChar e).toNat ∧ (entryChar e).toNat ≤ 0x5A) ∨
      (0x30 ≤ (entryChar e).toNat ∧ (entryChar e).toNat ≤ 0x39) := ctrom_forall (by decide +kernel)
  exact this e he

theorem upper_upper (c : Byte) : upper (upper c) = upper c :=
  byte_forall (p := fun c => upper (upper c) = upper c) (by decide +kernel) c
theorem alnum_upper (c : Byte) : alnum (upper c) = alnum c :=
  byte_forall (p := fun c => alnum (upper c) = alnum c) (by decide +kernel) c
theorem isNul_upper (c : Byte) : isNul (upper c) = isNul c :=
  byte_forall (p := fun c => isNul (upper c) = isNul c) (by decide +kernel) c
theorem isSep_upper (c : Byte) : isSep (upper c) = isSep c := by simp [isSep, alnum_upper, isNul_upper]
theorem isNul_iff (c : Byte) : isNul c = true ↔ c = 0 :=
  byte_forall (p := fun c => isNul c = true ↔ c = 0) (by decide +kernel) c
theorem not_isNul_of_alnum {c : Byte} : alnum c = true → isNul c = false :=
  byte_forall (p := fun c => alnum c = true → isNul c = false) (by decide +kernel) c

/-- The end-of-message code resolves to NUL (R94). -/
theorem lookupCode_eom : lookupCode eomCode = some 0 := by decide +kernel

end Sys2Proof.Machine
end

