-- ==== Sys2Proof/Laws/Memory.lean ====
section
/-! SUPPORT. The laws of the two memories: read after write, the canonical form and the bounds are kept; and the
same for one bit of BUF and one cell of TXT. -/

namespace Sys2Proof.Machine

variable {α : Type}

@[simp] theorem Memory.read_nil (a : Nat) : Memory.read ([] : Memory α) a = none := rfl

theorem Memory.read_write (m : Memory α) (a b : Nat) (v : α) :
    (m.write a v).read b = if b = a then some v else m.read b := by
  induction m with
  | nil => simp [Memory.write, Memory.read, eq_comm]
  | cons p m ih =>
    obtain ⟨k, w⟩ := p
    by_cases hb : b = a
    · subst hb
      simp only [Memory.write]
      by_cases h1 : b < k
      · simp [h1, Memory.read]
      · by_cases h2 : b = k
        · simp [h2, Memory.read]
        · simp [h1, h2, Memory.read, Ne.symm h2, ih]
    · simp only [Memory.write, if_neg hb] at ih ⊢
      by_cases h1 : a < k
      · simp [h1, Memory.read, Ne.symm hb]
      · by_cases h2 : a = k
        · simp [← h2, Memory.read, Ne.symm hb]
        · simp [h1, h2, Memory.read, ih]

@[simp] theorem Memory.read_write_same (m : Memory α) (a : Nat) (v : α) : (m.write a v).read a = some v := by
  simp [Memory.read_write]

theorem Memory.read_write_of_ne (m : Memory α) {a b : Nat} (v : α) (h : b ≠ a) :
    (m.write a v).read b = m.read b := by
  simp [Memory.read_write, h]

/-- Everything a written memory lists is the new element or was listed before. -/
theorem Memory.mem_write {m : Memory α} {a : Nat} {v : α} {p : Nat × α} (h : p ∈ m.write a v) :
    p = (a, v) ∨ p ∈ m := by
  induction m with
  | nil => simpa [Memory.write] using h
  | cons q m ih =>
    obtain ⟨k, w⟩ := q
    simp only [Memory.write] at h
    split_ifs at h with h1 h2 <;> simp only [List.mem_cons] at h ⊢
    · tauto
    · tauto
    · rcases h with h | h
      · tauto
      · rcases ih h with h | h <;> tauto

/-- A write keeps the canonical form. -/
theorem Memory.write_wf {m : Memory α} (a : Nat) (v : α) (h : m.wf) : (m.write a v).wf := by
  induction m with
  | nil => simp [Memory.write]
  | cons q m ih =>
    obtain ⟨k, w⟩ := q
    obtain ⟨hk, hm⟩ := List.pairwise_cons.1 h
    simp only [Memory.write]
    split_ifs with h1 h2
    · refine List.pairwise_cons.2 ⟨fun p hp => ?_, h⟩
      rcases List.mem_cons.1 hp with rfl | hp
      · exact h1
      · exact lt_trans h1 (hk p hp)
    · exact List.pairwise_cons.2 ⟨fun p hp => h2 ▸ hk p hp, hm⟩
    · refine List.pairwise_cons.2 ⟨fun p hp => ?_, ih hm⟩
      rcases Memory.mem_write hp with rfl | hp
      · exact lt_of_le_of_ne (not_lt.1 h1) (Ne.symm h2)
      · exact hk p hp

/-- A write inside a bound keeps the memory inside it. -/
theorem Memory.write_bound {m : Memory α} {a n : Nat} {v : α} (ha : a < n) (h : ∀ p ∈ m, p.1 < n) :
    ∀ p ∈ m.write a v, p.1 < n := by
  intro p hp
  rcases Memory.mem_write hp with rfl | hp
  · exact ha
  · exact h p hp

/-! ### One bit of BUF, one cell of TXT -/

theorem State.getBit_congr {s t : State} (h : t.buf = s.buf) (o : Nat) : t.getBit o = s.getBit o := by
  simp [State.getBit, h]

theorem State.cell_congr {s t : State} (h : t.txt = s.txt) (hd : t.txtDraw = s.txtDraw) (i : Nat) :
    t.cell i = s.cell i := by
  simp [State.cell, h, hd]

/-- `set_bit` (R104): after it `get_bit(o) = v` and every other bit is unchanged. -/
theorem State.getBit_setBit (s : State) (o p : Nat) (v : Bool) :
    (s.setBit o v).getBit p = if p = o then v else s.getBit p := by
  simp only [State.getBit, State.setBit_buf, Memory.read_write]
  split_ifs <;> rfl

theorem State.cell_setCell (s : State) (i j : Nat) (c : Byte) :
    (s.setCell i c).cell j = if j = i then c else s.cell j := by
  simp only [State.cell, State.setCell_txt, State.setCell_txtDraw, Memory.read_write]
  split_ifs <;> rfl

theorem State.cell_appendChar (s : State) (c : Byte) (j : Nat) :
    (s.appendChar c).cell j = if j = s.olen then c else s.cell j := by
  simp only [State.cell, State.appendChar_txt, State.appendChar_txtDraw, Memory.read_write]
  split_ifs <;> rfl

theorem State.cell_finishDecode (s : State) (j : Nat) :
    s.finishDecode.cell j = if j = s.olen then 0 else s.cell j := by
  simp only [State.cell, State.finishDecode_txt, State.finishDecode_txtDraw, Memory.read_write]
  split_ifs <;> rfl

/-- After a decode error every cell reads as a free value of the new draw (U10). -/
theorem State.cell_raiseDecodeError (s : State) (e : DecodeError) (j : Nat) :
    (s.raiseDecodeError e).cell j = Config.unwrittenCell (s.txtDraw + 1) j := rfl

/-- `set_run` writes nothing but BUF. -/
theorem State.setRun_frame (s : State) (o : Nat) (v : Bool) (n : Nat) :
    s.setRun o v n = { s with buf := (s.setRun o v n).buf } := by
  induction n with
  | zero => rfl
  | succ n ih => rw [State.setRun, ih]; rfl

/-- `set_run` (R105): `get_bit(p) = v` for `o <= p < o + n`, every other bit of BUF is unchanged. -/
theorem State.getBit_setRun (s : State) (o : Nat) (v : Bool) (n p : Nat) :
    (s.setRun o v n).getBit p = if o ≤ p ∧ p < o + n then v else s.getBit p := by
  induction n with
  | zero => rw [State.setRun, if_neg (by omega)]
  | succ n ih =>
    rw [State.setRun, State.getBit_setBit, ih]
    split_ifs <;> first | rfl | omega

theorem State.setRun_wf {s : State} (o : Nat) (v : Bool) (n : Nat) (h : s.buf.wf) : (s.setRun o v n).buf.wf := by
  induction n with
  | zero => exact h
  | succ n ih => exact Memory.write_wf _ _ ih

theorem State.setRun_bound {s : State} {o n c : Nat} {v : Bool} (hn : o + n ≤ c) (h : ∀ p ∈ s.buf, p.1 < c) :
    ∀ p ∈ (s.setRun o v n).buf, p.1 < c := by
  induction n with
  | zero => exact h
  | succ n ih => exact Memory.write_bound (by omega) (ih (by omega))

end Sys2Proof.Machine
end

