-- ==== Sys2Proof/Laws/Encoder.lean ====
section
/-! SUPPORT. What the encoder does (43_encoder.md): every emission appends bits at BOFF, and the whole command
writes the stream of the text. -/

namespace Sys2Proof.Machine

/-- The bits `bs` written one after the other from bit offset `o` on. -/
def Memory.putBits (m : Memory Bool) (o : Nat) : List Bool → Memory Bool
  | [] => m
  | b :: bs => Memory.putBits (m.write o b) (o + 1) bs

/-- The bits `bs` appended at BOFF. -/
def State.putBits (s : State) (bs : List Bool) : State :=
  { s with buf := s.buf.putBits s.boff bs, boff := s.boff + bs.length }

theorem Memory.putBits_append (m : Memory Bool) (o : Nat) (as bs : List Bool) :
    m.putBits o (as ++ bs) = (m.putBits o as).putBits (o + as.length) bs := by
  induction as generalizing m o with
  | nil => rfl
  | cons a as ih => rw [List.cons_append, Memory.putBits, ih, Memory.putBits, List.length_cons]; congr 1; omega

theorem Memory.read_putBits (m : Memory Bool) (o : Nat) (bs : List Bool) (p : Nat) :
    (m.putBits o bs).read p = if o ≤ p ∧ p < o + bs.length then some (bs.getD (p - o) false) else m.read p := by
  induction bs generalizing m o with
  | nil => rw [Memory.putBits, if_neg (by simp)]
  | cons b bs ih =>
    rw [Memory.putBits, ih, Memory.read_write]
    rcases Nat.lt_trichotomy p o with h | h | h
    · rw [if_neg (by omega), if_neg (by omega), if_neg (by simp; omega)]
    · subst h; rw [if_neg (by omega), if_pos rfl, if_pos (by simp)]; simp
    · by_cases h2 : p < o + 1 + bs.length
      · rw [if_pos ⟨h, h2⟩, if_pos (by simp; omega), show p - o = (p - (o + 1)) + 1 by omega, List.getD_cons_succ]
      · rw [if_neg (by omega), if_neg (by omega), if_neg (by simp; omega)]

theorem Memory.putBits_wf {m : Memory Bool} (o : Nat) (bs : List Bool) (h : m.wf) : (m.putBits o bs).wf := by
  induction bs generalizing m o with
  | nil => exact h
  | cons b bs ih => exact ih _ (Memory.write_wf _ _ h)

theorem Memory.putBits_bound {m : Memory Bool} {o c : Nat} {bs : List Bool} (hb : o + bs.length ≤ c)
    (h : ∀ p ∈ m, p.1 < c) : ∀ p ∈ m.putBits o bs, p.1 < c := by
  induction bs generalizing m o with
  | nil => exact h
  | cons b bs ih =>
    simp only [List.length_cons] at hb
    exact ih (by omega) (Memory.write_bound (by omega) h)

theorem State.putBits_append (s : State) (as bs : List Bool) : s.putBits (as ++ bs) = (s.putBits as).putBits bs := by
  simp only [State.putBits, Memory.putBits_append, List.length_append, Nat.add_assoc]

/-- Every bit emitted is there, and no other bit of BUF has changed (R58, R136). -/
theorem State.getBit_putBits (s : State) (bs : List Bool) (p : Nat) :
    (s.putBits bs).getBit p =
      if s.boff ≤ p ∧ p < s.boff + bs.length then bs.getD (p - s.boff) false else s.getBit p := by
  simp only [State.getBit, State.putBits, Memory.read_putBits]
  split_ifs <;> rfl

/-! ### The emitter -/

theorem State.setRun_buf (s : State) (o : Nat) (v : Bool) (n : Nat) :
    (s.setRun o v n).buf = s.buf.putBits o (List.replicate n v) := by
  induction n with
  | zero => rfl
  | succ n ih =>
    rw [State.setRun, State.setBit_buf, ih, List.replicate_succ', Memory.putBits_append, List.length_replicate]
    rfl

/-- `set_run` writes the run and nothing else. -/
theorem State.setRun_eq (s : State) (o : Nat) (v : Bool) (n : Nat) :
    s.setRun o v n = { s with buf := s.buf.putBits o (List.replicate n v) } := by
  rw [State.setRun_frame, State.setRun_buf]

theorem State.emitRun_eq (s : State) (v : Bool) (n : Nat) : s.emitRun v n = s.putBits (List.replicate n v) := by
  rw [State.emitRun, State.setRun_eq, State.putBits, List.length_replicate]

theorem State.emitSymbol_eq (s : State) (dash : Bool) : s.emitSymbol dash = s.putBits (symbolBits dash) := by
  rw [State.emitSymbol, State.emitRun_eq, State.emitRun_eq, ← State.putBits_append]
  rfl

theorem State.emitSymbols_eq (s : State) (n : Nat) (h : s.sidx.toNat + n ≤ 7) :
    s.emitSymbols n =
      { s with sidx := s.sidx + BitVec.ofNat 3 n }.putBits
        (((List.range' s.sidx.toNat n).map (codeSym s.cur)).flatMap symbolBits) := by
  induction n generalizing s with
  | zero => simp [State.emitSymbols, State.putBits, Memory.putBits]
  | succ n ih =>
    have h1 : (s.sidx + 1).toNat = s.sidx.toNat + 1 := by
      rw [BitVec.toNat_add]; simp; omega
    rw [State.emitSymbols]
    simp only [State.emitSymbol_eq]
    rw [ih _ (by simp only [h1]; omega)]
    simp only [State.putBits, h1, List.range'_succ, List.map_cons, List.flatMap_cons, Memory.putBits_append,
      List.length_append, Nat.add_assoc]
    congr 1
    rw [BitVec.add_assoc]
    congr 1
    apply BitVec.eq_of_toNat_eq
    simp [Nat.add_comm]

/-- `emit_code` (R136) appends the bits of the code, and leaves CUR and SIDX behind. -/
theorem State.emitCode_eq (s : State) (w : Byte) :
    s.emitCode w = { s with cur := w, sidx := BitVec.ofNat 3 (codeLen w) }.putBits (codeBits w) := by
  have := codeLen_lt w
  rw [State.emitCode, State.emitSymbols_eq _ _ (by simp; omega), State.emitRun_eq, ← State.putBits_append]
  simp only [codeBits, codeSymbols, List.range_eq_range', show (0 : BitVec 3) + BitVec.ofNat 3 (codeLen w) =
    BitVec.ofNat 3 (codeLen w) from BitVec.zero_add _]
  rfl

/-! ### The text -/

/-- The cells of TXT from `i` on, `n` of them. -/
def State.cellsFrom (s : State) (i n : Nat) : List Byte := (List.range' i n).map s.cell

theorem State.cellsFrom_succ (s : State) (i n : Nat) :
    s.cellsFrom i (n + 1) = s.cell i :: s.cellsFrom (i + 1) n := by
  simp [State.cellsFrom, List.range'_succ]

theorem State.cellsFrom_congr {s t : State} (h : t.txt = s.txt) (hd : t.txtDraw = s.txtDraw) (i n : Nat) :
    t.cellsFrom i n = s.cellsFrom i n := by
  simp only [State.cellsFrom]
  exact List.map_congr_left fun k _ => State.cell_congr h hd k

theorem State.text_eq_cellsFrom (s : State) : s.text = s.cellsFrom 0 s.arg0 := by
  simp [State.text, State.cellsFrom, List.range_eq_range']

theorem isSep_iff (c : Byte) : isSep c = true ↔ isNul c = false ∧ alnum c = false := by
  simp [isSep, and_comm]

/-- After a separator has been passed, further separators emit nothing (R133, R137). -/
theorem textBits_true (l : List Byte) : textBits true l = textBits false (l.dropWhile isSep) := by
  induction l with
  | nil => rfl
  | cons c l ih =>
    by_cases h : isSep c = true
    · obtain ⟨h1, h2⟩ := (isSep_iff c).1 h
      rw [List.dropWhile_cons_of_pos h, ← ih]
      simp [textBits, h1, h2]
    · rw [List.dropWhile_cons_of_neg h]
      by_cases h1 : isNul c = true
      · simp [textBits, h1]
      · have h2 : alnum c = true := by
          by_contra h2
          exact h ((isSep_iff c).2 ⟨by simpa using h1, by simpa using h2⟩)
        simp [textBits, h1, h2]

theorem State.skipSeps_spec (s : State) (n : Nat) :
    ∃ k ≤ n, s.skipSeps n = { s with tidx := s.tidx + k } ∧
      s.cellsFrom (s.tidx + k) (n - k) = (s.cellsFrom s.tidx n).dropWhile isSep := by
  induction n generalizing s with
  | zero => exact ⟨0, le_rfl, rfl, rfl⟩
  | succ n ih =>
    rw [State.skipSeps, State.cellsFrom_succ]
    by_cases h : isSep (s.cell s.tidx) = true
    · obtain ⟨k, hk, e1, e2⟩ := ih { s with tidx := s.tidx + 1 }
      refine ⟨k + 1, by omega, ?_, ?_⟩
      · rw [if_pos h, e1]; simp only [Nat.add_comm k 1, Nat.add_assoc]
      · rw [List.dropWhile_cons_of_pos h]
        rw [show n + 1 - (k + 1) = n - k by omega, show s.tidx + (k + 1) = s.tidx + 1 + k by omega]
        exact e2
    · refine ⟨0, by omega, by rw [if_neg h]; rfl, ?_⟩
      rw [List.dropWhile_cons_of_neg h]
      exact s.cellsFrom_succ _ _

/-- A separator at TIDX is skipped, so the run makes progress (R141). -/
theorem State.skipSeps_progress (s : State) {n : Nat} (hn : 0 < n) (h : isSep (s.cell s.tidx) = true) :
    ∃ k, 0 < k ∧ k ≤ n ∧ s.skipSeps n = { s with tidx := s.tidx + k } ∧
      s.cellsFrom (s.tidx + k) (n - k) = (s.cellsFrom s.tidx n).dropWhile isSep := by
  obtain ⟨n, rfl⟩ := Nat.exists_eq_succ_of_ne_zero (Nat.pos_iff_ne_zero.1 hn)
  obtain ⟨k, hk, e1, e2⟩ := { s with tidx := s.tidx + 1 }.skipSeps_spec n
  refine ⟨k + 1, by omega, by omega, ?_, ?_⟩
  · rw [State.skipSeps, if_pos h, e1]; simp only [Nat.add_comm k 1, Nat.add_assoc]
  · rw [State.cellsFrom_succ, List.dropWhile_cons_of_pos h]
    rw [show n + 1 - (k + 1) = n - k by omega, show s.tidx + (k + 1) = s.tidx + 1 + k by omega]
    exact e2

theorem State.encodeLetter_eq (s : State) (h : alnum (s.cell s.tidx) = true) :
    ∃ c i, s.encodeLetter =
      { s.putBits (codeBits ((lookupChar (upper (s.cell s.tidx))).getD 0)) with
        tidx := s.tidx + 1, cur := c, sidx := i } := by
  obtain ⟨w, hw, -, -, -⟩ := alnum_lookup _ h
  refine ⟨w, BitVec.ofNat 3 (codeLen w), ?_⟩
  rw [State.encodeLetter, State.emitCode_eq, hw]
  rfl

/-- The main loop (R130) appends the bits of the cells from TIDX on. -/
theorem State.encodeLoop_eq (s : State) (n : Nat) (ht : s.tidx ≤ s.arg0) (hn : s.arg0 - s.tidx ≤ n)
    (he : s.estate = .char) :
    ∃ k c i, k ≤ s.arg0 ∧ s.encodeLoop n =
      { s.putBits (textBits false (s.cellsFrom s.tidx (s.arg0 - s.tidx))) with tidx := k, cur := c, sidx := i } := by
  induction n generalizing s with
  | zero =>
    refine ⟨s.tidx, s.cur, s.sidx, ht, ?_⟩
    rw [show s.arg0 - s.tidx = 0 by omega]
    simp [State.encodeLoop, State.cellsFrom, textBits, State.putBits, Memory.putBits]
  | succ n ih =>
    rw [State.encodeLoop]
    by_cases hend : s.arg0 ≤ s.tidx
    · refine ⟨s.tidx, s.cur, s.sidx, ht, ?_⟩
      rw [if_pos (by simp [State.textAtEnd, hend]), show s.arg0 - s.tidx = 0 by omega]
      simp [State.cellsFrom, textBits, State.putBits, Memory.putBits]
    · have hlen : s.arg0 - s.tidx = (s.arg0 - (s.tidx + 1)) + 1 := by omega
      by_cases hnul : isNul (s.cell s.tidx) = true
      · refine ⟨s.tidx, s.cur, s.sidx, ht, ?_⟩
        rw [if_pos (by simp [State.textAtEnd, hnul]), hlen, State.cellsFrom_succ, textBits, if_pos hnul]
        simp [State.putBits, Memory.putBits]
      · rw [if_neg (by simp [State.textAtEnd, hend, hnul])]
        by_cases hal : alnum (s.cell s.tidx) = true
        · obtain ⟨c, i, e⟩ := s.encodeLetter_eq hal
          obtain ⟨k, c', i', hk, e'⟩ := ih s.encodeLetter
            (by rw [e]; simp only [State.putBits]; omega) (by rw [e]; simp only [State.putBits]; omega)
            (by rw [e]; exact he)
          have harg : s.encodeLetter.arg0 = s.arg0 := by rw [e]; rfl
          have htid : s.encodeLetter.tidx = s.tidx + 1 := by rw [e]
          have hcells : ∀ a b, s.encodeLetter.cellsFrom a b = s.cellsFrom a b := fun a b =>
            State.cellsFrom_congr (by rw [e]; rfl) (by rw [e]; rfl) a b
          refine ⟨k, c', i', by omega, ?_⟩
          rw [if_pos hal, e', harg, htid, hcells, hlen, State.cellsFrom_succ, textBits, if_neg hnul, if_pos hal,
            State.putBits_append, e]
          rfl
        · have hsep : isSep (s.cell s.tidx) = true := (isSep_iff _).2 ⟨by simpa using hnul, by simpa using hal⟩
          obtain ⟨k0, h0, h0n, e1, e2⟩ := State.skipSeps_progress
            ({ s with estate := .sep }.emitRun false 4) (n := s.arg0 - s.tidx) (by omega)
            (by rw [State.emitRun_eq]; exact hsep)
          have eg : s.encodeGap = { s.putBits (List.replicate 4 false) with tidx := s.tidx + k0 } := by
            simp only [State.encodeGap, e1]
            simp only [State.emitRun_eq, State.putBits, ← he]
          have hcells : ∀ a b, s.encodeGap.cellsFrom a b = s.cellsFrom a b := fun a b =>
            State.cellsFrom_congr (by rw [eg]; rfl) (by rw [eg]; rfl) a b
          have harg : s.encodeGap.arg0 = s.arg0 := by rw [eg]; rfl
          have htid : s.encodeGap.tidx = s.tidx + k0 := by rw [eg]
          obtain ⟨k, c', i', hk, e'⟩ := ih s.encodeGap
            (by rw [harg, htid]; omega) (by rw [harg, htid]; omega) (by rw [eg]; exact he)
          have hrest : s.cellsFrom (s.tidx + k0) (s.arg0 - (s.tidx + k0)) =
              (s.cellsFrom s.tidx (s.arg0 - s.tidx)).dropWhile isSep := by
            have hc2 : ∀ a b, (State.emitRun { s with estate := .sep } false 4).cellsFrom a b = s.cellsFrom a b :=
              fun a b => State.cellsFrom_congr (by rw [State.emitRun_eq]; rfl) (by rw [State.emitRun_eq]; rfl) a b
            rw [hc2, hc2] at e2
            rw [show s.arg0 - (s.tidx + k0) = s.arg0 - s.tidx - k0 by omega]
            simpa only [State.emitRun_eq, State.putBits] using e2
          refine ⟨k, c', i', by omega, ?_⟩
          rw [if_neg hal, e', harg, htid, hcells, hrest, hlen, State.cellsFrom_succ, textBits, if_neg hnul, if_neg hal,
            if_neg (by decide), List.dropWhile_cons_of_pos hsep, State.putBits_append, textBits_true, eg]
          rfl

/-- All of R130: ENCODE appends the stream of its text from bit offset 0 on, and counts the units touched. -/
theorem State.encodeText_eq (s : State) :
    ∃ k ≤ s.arg0, s.encodeText =
      { { s with boff := 0 }.putBits (encodedBits s.text) with
        tidx := k
        cur := eomCode
        sidx := BitVec.ofNat 3 (codeLen eomCode)
        estate := .done
        res0 := ceilDiv (encodedBits s.text).length s.cfg.byteW } := by
  obtain ⟨k0, hk0, e1, e2⟩ := s.beginEncode.skipSeps_spec s.arg0
  simp only [State.beginEncode_tidx, Nat.zero_add] at e1 e2
  have hc : ∀ a b, s.beginEncode.cellsFrom a b = s.cellsFrom a b := fun a b => State.cellsFrom_congr rfl rfl a b
  rw [hc, hc, ← State.text_eq_cellsFrom] at e2
  let u : State := { s with boff := 0, tidx := k0, estate := .char }
  have e3 : s.encodeText = (u.encodeLoop s.arg0).finishEncode := by rw [State.encodeText, e1]; rfl
  obtain ⟨k, c, i, hk, e4⟩ := u.encodeLoop_eq s.arg0 hk0 (Nat.sub_le _ _) rfl
  have e5 : u.cellsFrom u.tidx (u.arg0 - u.tidx) = s.text.dropWhile isSep :=
    (State.cellsFrom_congr rfl rfl _ _).trans e2
  rw [e5, ← textBits_true] at e4
  refine ⟨k, hk, ?_⟩
  rw [e3, e4]
  simp only [State.finishEncode, State.emitCode_eq]
  simp only [encodedBits, State.putBits, Memory.putBits_append, List.length_append, Nat.zero_add, u]

theorem State.getBit_putBits_zero (s : State) (bs : List Bool) :
    ({ s with boff := 0 }.putBits bs).HasBits 0 bs := by
  intro k hk
  rw [State.getBit_putBits, if_pos (by simp; exact hk)]
  simp

/-- The bits ENCODE leaves in BUF, its final bit offset and its count, without its registers. -/
theorem State.encodeText_bits (s : State) :
    s.encodeText.boff = (encodedBits s.text).length ∧
      s.encodeText.res0 = ceilDiv (encodedBits s.text).length s.cfg.byteW ∧
      s.encodeText.HasBits 0 (encodedBits s.text) ∧
      ∀ p, (encodedBits s.text).length ≤ p → s.encodeText.getBit p = s.getBit p := by
  obtain ⟨k, -, e⟩ := s.encodeText_eq
  have hb : s.encodeText.buf = ({ s with boff := 0 }.putBits (encodedBits s.text)).buf := by rw [e]
  refine ⟨by rw [e]; exact Nat.zero_add _, by rw [e], fun k hk => ?_, fun p hp => ?_⟩
  · rw [State.getBit_congr hb]; exact s.getBit_putBits_zero _ k hk
  · rw [State.getBit_congr hb, State.getBit_putBits, if_neg (by simp; exact hp)]
    rfl

end Sys2Proof.Machine
end

