-- ==== Sys2Proof/Laws/RunLength.lean ====
section
/-! SUPPORT. What the run-length scanner answers (42_run_length.md rules R120, R122). -/

namespace Sys2Proof.Machine

/-- What the loop of R120 counts: bits that equal `b`, up to the bound or the first that differs. -/
theorem matchRun_spec (bit : Nat → Bool) (b : Bool) (n p : Nat) :
    matchRun bit b n p ≤ n ∧ (∀ k < matchRun bit b n p, bit (p + k) = b) ∧
      (matchRun bit b n p = n ∨ bit (p + matchRun bit b n p) ≠ b) := by
  induction n generalizing p with
  | zero => simp [matchRun]
  | succ n ih =>
    by_cases h : bit p = b
    · have e : matchRun bit b (n + 1) p = matchRun bit b n (p + 1) + 1 := by simp [matchRun, h]
      obtain ⟨h1, h2, h3⟩ := ih (p + 1)
      rw [e]
      refine ⟨by omega, fun k hk => ?_, ?_⟩
      · cases k with
        | zero => exact h
        | succ k => have := h2 k (by omega); rwa [show p + 1 + k = p + (k + 1) by omega] at this
      · rcases h3 with h3 | h3
        · exact .inl (by omega)
        · right; rwa [show p + 1 + matchRun bit b n (p + 1) = p + (matchRun bit b n (p + 1) + 1) by omega] at h3
    · have e : matchRun bit b (n + 1) p = 0 := by simp [matchRun, h]
      rw [e]
      exact ⟨by omega, fun k hk => by omega, .inr (by simpa using h)⟩

/-- At or beyond the bound the scanner answers 0 (R120). -/
theorem runFrom_of_le (bit : Nat → Bool) {cap o : Nat} (h : cap ≤ o) : runFrom bit cap o = 0 := by
  simp [runFrom, h]

/-- Below the bound the answer is the length of the rest of the run (R122). -/
theorem runFrom_spec (bit : Nat → Bool) {cap o : Nat} (h : o < cap) :
    1 ≤ runFrom bit cap o ∧ o + runFrom bit cap o ≤ cap ∧
      (∀ k < runFrom bit cap o, bit (o + k) = bit o) ∧
      (o + runFrom bit cap o = cap ∨ bit (o + runFrom bit cap o) ≠ bit o) := by
  have e : runFrom bit cap o = matchRun bit (bit o) (cap - (o + 1)) (o + 1) + 1 := by
    simp [runFrom, Nat.not_le.2 h]
  obtain ⟨h1, h2, h3⟩ := matchRun_spec bit (bit o) (cap - (o + 1)) (o + 1)
  rw [e]
  refine ⟨by omega, by omega, fun k hk => ?_, ?_⟩
  · cases k with
    | zero => rfl
    | succ k => have := h2 k (by omega); rwa [show o + 1 + k = o + (k + 1) by omega] at this
  · rcases h3 with h3 | h3
    · exact .inl (by omega)
    · right
      rwa [show o + 1 + matchRun bit (bit o) (cap - (o + 1)) (o + 1) =
        o + (matchRun bit (bit o) (cap - (o + 1)) (o + 1) + 1) by omega] at h3

/-- The answer is 0 exactly at or beyond the bound (R122). -/
theorem runFrom_eq_zero (bit : Nat → Bool) (cap o : Nat) : runFrom bit cap o = 0 ↔ cap ≤ o := by
  constructor
  · intro h
    by_contra hc
    have := (runFrom_spec bit (Nat.not_le.1 hc)).1
    omega
  · exact runFrom_of_le bit

theorem runFrom_le (bit : Nat → Bool) {cap o : Nat} (h : o ≤ cap) : o + runFrom bit cap o ≤ cap := by
  rcases Nat.lt_or_ge o cap with h' | h'
  · exact (runFrom_spec bit h').2.1
  · rw [runFrom_of_le bit h']; omega

/-- R122 determines the answer: a run of `n` equal bits, ended by the bound or a different bit, is read as `n`. -/
theorem runFrom_eq (bit : Nat → Bool) (b : Bool) {cap o n : Nat} (hn : 0 < n) (hc : o + n ≤ cap)
    (hb : ∀ k < n, bit (o + k) = b) (he : o + n = cap ∨ bit (o + n) ≠ b) : runFrom bit cap o = n := by
  have ho : bit o = b := by simpa using hb 0 hn
  obtain ⟨_, h2, h3, h4⟩ := runFrom_spec bit (show o < cap by omega)
  rw [ho] at h3 h4
  rcases Nat.lt_trichotomy (runFrom bit cap o) n with h | h | h
  · rcases h4 with h4 | h4
    · omega
    · exact absurd (hb _ h) h4
  · exact h
  · rcases he with he | he
    · omega
    · exact absurd (h3 n h) he

/-- Where a 1-run ends before the bound, the run at its end is a 0-run, and the reverse. -/
theorem bit_after_runFrom (bit : Nat → Bool) {cap o : Nat} (h : o + runFrom bit cap o < cap) :
    bit (o + runFrom bit cap o) = !bit o := by
  have ho : o < cap := by omega
  rcases (runFrom_spec bit ho).2.2.2 with h4 | h4
  · omega
  · revert h4
    cases bit (o + runFrom bit cap o) <;> cases bit o <;> simp

theorem matchRun_congr {f g : Nat → Bool} (b : Bool) {n p : Nat} (h : ∀ k < n, f (p + k) = g (p + k)) :
    matchRun f b n p = matchRun g b n p := by
  induction n generalizing p with
  | zero => rfl
  | succ n ih =>
    have h0 := h 0 (by omega)
    simp only [Nat.add_zero] at h0
    have := ih (p := p + 1) fun k hk => by
      rw [show p + 1 + k = p + (k + 1) by omega]; exact h (k + 1) (by omega)
    simp only [matchRun, h0, this]

/-- The scanner reads no bit at or beyond its bound (R58, R67). -/
theorem runFrom_congr {f g : Nat → Bool} {cap : Nat} (h : ∀ p < cap, f p = g p) (o : Nat) :
    runFrom f cap o = runFrom g cap o := by
  rcases Nat.lt_or_ge o cap with ho | ho
  · simp only [runFrom, h o ho]
    rw [matchRun_congr (f := f) (g := g)]
    exact fun k hk => h _ (by omega)
  · rw [runFrom_of_le f ho, runFrom_of_le g ho]

end Sys2Proof.Machine
end

