-- ==== Sys2Proof/Laws/Decoder.lean ====
section
/-! SUPPORT. What the decoder does (44_decoder.md): the cases of one pass, what a whole DECODE changes, and that its
loop always ends. -/

namespace Sys2Proof.Machine

/-- DECODE changes nothing of these (R43). -/
structure DecodeFrame (s t : State) : Prop where
  cfg : t.cfg = s.cfg
  arg0 : t.arg0 = s.arg0
  arg1 : t.arg1 = s.arg1
  arg2 : t.arg2 = s.arg2
  notFound : t.notFound = s.notFound
  illegal : t.illegal = s.illegal
  estate : t.estate = s.estate
  tidx : t.tidx = s.tidx
  cur : t.cur = s.cur
  sidx : t.sidx = s.sidx
  buf : t.buf = s.buf
  hostQueue : t.hostQueue = s.hostQueue
  reply : t.reply = s.reply

theorem DecodeFrame.refl (s : State) : DecodeFrame s s := by constructor <;> rfl

theorem DecodeFrame.trans {s t u : State} (h : DecodeFrame s t) (k : DecodeFrame t u) : DecodeFrame s u where
  cfg := k.cfg.trans h.cfg
  arg0 := k.arg0.trans h.arg0
  arg1 := k.arg1.trans h.arg1
  arg2 := k.arg2.trans h.arg2
  notFound := k.notFound.trans h.notFound
  illegal := k.illegal.trans h.illegal
  estate := k.estate.trans h.estate
  tidx := k.tidx.trans h.tidx
  cur := k.cur.trans h.cur
  sidx := k.sidx.trans h.sidx
  buf := k.buf.trans h.buf
  hostQueue := k.hostQueue.trans h.hostQueue
  reply := k.reply.trans h.reply

theorem DecodeFrame.streamBits {s t : State} (h : DecodeFrame s t) : t.streamBits = s.streamBits := by
  simp [State.streamBits, h.cfg, h.arg0]

theorem DecodeFrame.getBit {s t : State} (h : DecodeFrame s t) (o : Nat) : t.getBit o = s.getBit o :=
  State.getBit_congr h.buf o

/-- The scanner as DECODE uses it. -/
theorem State.runLength_eq (s : State) (o : Nat) : s.runLength s.arg0 o = runFrom s.getBit s.streamBits o := rfl

theorem runSymbol_some {n : Nat} {d : Bool} (h : runSymbol n = some d) : n = if d then 3 else 1 := by
  simp only [runSymbol] at h
  split_ifs at h <;> simp_all

@[simp] theorem runSymbol_one : runSymbol 1 = some false := rfl
@[simp] theorem runSymbol_three : runSymbol 3 = some true := rfl

theorem frame_setDstate (s : State) (d : DState) : DecodeFrame s (s.setDstate d) := by constructor <;> rfl

theorem frame_advance (s : State) (n : Nat) : DecodeFrame s (s.advance n) := by constructor <;> rfl

theorem frame_push (s : State) (d : Bool) : DecodeFrame s (s.push d) := by constructor <;> rfl

theorem frame_appendChar (s : State) (c : Byte) : DecodeFrame s (s.appendChar c) := by constructor <;> rfl

theorem frame_takeChar (s : State) (c : Byte) : DecodeFrame s (s.takeChar c) := by constructor <;> rfl

theorem frame_finishDecode (s : State) : DecodeFrame s s.finishDecode := by constructor <;> rfl

theorem frame_raiseDecodeError (s : State) (e : DecodeError) : DecodeFrame s (s.raiseDecodeError e) := by
  constructor <;> rfl

theorem State.cell_takeChar (s : State) (c : Byte) (j : Nat) :
    (s.takeChar c).cell j = if j = s.olen then c else s.cell j := s.cell_appendChar c j

@[simp] theorem State.cell_setDstate (s : State) (d : DState) : (s.setDstate d).cell = s.cell := rfl

/-- One character and the space of a word gap (R161). -/
theorem frame_takeSpace (s : State) (c : Byte) :
    DecodeFrame s (((s.takeChar c).appendChar spaceChar).setDstate .accumulatingSymbol) :=
  (frame_takeChar s c).trans ((frame_appendChar _ spaceChar).trans (frame_setDstate _ _))

theorem frame_takeLetter (s : State) (c : Byte) : DecodeFrame s ((s.takeChar c).setDstate .accumulatingSymbol) :=
  (frame_takeChar s c).trans (frame_setDstate _ _)

theorem frame_takeLast (s : State) (c : Byte) : DecodeFrame s ((s.setDstate .atWordBoundary).takeChar c) :=
  (frame_setDstate s _).trans (frame_takeChar _ c)

/-- `resolve()` by its three answers (R163). -/
theorem State.resolve_cases (s : State) :
    (lookupCode s.pend = none ∧ s.resolve = .stop (s.raiseDecodeError .unresolvableCode)) ∨
    (lookupCode s.pend = some 0 ∧ s.resolve = .stop s.finishDecode) ∨
    (∃ c, lookupCode s.pend = some c ∧ c ≠ 0 ∧ s.resolve = .again (s.takeChar c)) := by
  rw [State.resolve]
  cases h : lookupCode s.pend with
  | none => exact .inl ⟨rfl, rfl⟩
  | some c =>
    by_cases hc : c = 0
    · subst hc; exact .inr (.inl ⟨rfl, rfl⟩)
    · have : isNul c = false := by simpa using mt (isNul_iff c).1 hc
      exact .inr (.inr ⟨c, rfl, hc, by simp [this]⟩)

/-- The state after the 1-run and the 0-run of a pass have been read (R156, R157). -/
def State.afterSymbol (s : State) (n g : Nat) (dash : Bool) : State := ((s.advance n).push dash).advance g

@[simp] theorem State.afterSymbol_boff (s : State) (n g : Nat) (d : Bool) :
    (s.afterSymbol n g d).boff = s.boff + n + g := rfl

@[simp] theorem State.afterSymbol_pend (s : State) (n g : Nat) (d : Bool) :
    (s.afterSymbol n g d).pend = pushSymbol s.pend d := rfl

@[simp] theorem State.afterSymbol_cfg (s : State) (n g : Nat) (d : Bool) : (s.afterSymbol n g d).cfg = s.cfg := rfl

@[simp] theorem State.afterSymbol_res0 (s : State) (n g : Nat) (d : Bool) : (s.afterSymbol n g d).res0 = s.res0 := rfl

@[simp] theorem State.afterSymbol_err (s : State) (n g : Nat) (d : Bool) : (s.afterSymbol n g d).err = s.err := rfl

@[simp] theorem State.afterSymbol_dstate (s : State) (n g : Nat) (d : Bool) : (s.afterSymbol n g d).dstate = s.dstate := rfl

@[simp] theorem State.afterSymbol_olen (s : State) (n g : Nat) (d : Bool) : (s.afterSymbol n g d).olen = s.olen := rfl

@[simp] theorem State.afterSymbol_txt (s : State) (n g : Nat) (d : Bool) : (s.afterSymbol n g d).txt = s.txt := rfl

@[simp] theorem State.afterSymbol_txtDraw (s : State) (n g : Nat) (d : Bool) : (s.afterSymbol n g d).txtDraw = s.txtDraw := rfl

theorem frame_afterSymbol (s : State) (n g : Nat) (d : Bool) : DecodeFrame s (s.afterSymbol n g d) :=
  (frame_advance s n).trans ((frame_push _ d).trans (frame_advance _ g))

/-- The four ways one pass goes up to its gap (R154 to R157, R173). -/
theorem State.decodePass_cases (s : State) :
    (s.streamBits ≤ s.boff ∧ s.decodePass = .stop s.finishDecode) ∨
    (s.boff < s.streamBits ∧ runSymbol (runFrom s.getBit s.streamBits s.boff) = none ∧
      s.decodePass = .stop (s.raiseDecodeError .malformedRun)) ∨
    (∃ n dash, n = runFrom s.getBit s.streamBits s.boff ∧ 0 < n ∧ runSymbol n = some dash ∧ codeLen s.pend = 5 ∧
      s.decodePass = .stop ((s.advance n).raiseDecodeError .oversizedCode)) ∨
    (∃ n dash g, n = runFrom s.getBit s.streamBits s.boff ∧ 0 < n ∧ runSymbol n = some dash ∧ codeLen s.pend ≠ 5 ∧
      g = runFrom s.getBit s.streamBits (s.boff + n) ∧
      s.decodePass = (s.afterSymbol n g dash).afterGap g) := by
  have e : s.decodePass = s.afterRun (runFrom s.getBit s.streamBits s.boff) := rfl
  by_cases h0 : s.streamBits ≤ s.boff
  · exact .inl ⟨h0, by rw [e, runFrom_of_le _ h0]; rfl⟩
  · have hn : 0 < runFrom s.getBit s.streamBits s.boff := (runFrom_spec _ (Nat.not_le.1 h0)).1
    rw [e]
    generalize hr : runFrom s.getBit s.streamBits s.boff = n at hn
    right
    rw [State.afterRun, if_neg (Nat.pos_iff_ne_zero.1 hn)]
    cases hs : runSymbol n with
    | none => exact .inl ⟨Nat.not_le.1 h0, rfl, rfl⟩
    | some dash =>
      right
      by_cases h5 : codeLen s.pend = 5
      · exact .inl ⟨n, dash, rfl, hn, hs, h5, if_pos h5⟩
      · exact .inr ⟨n, dash, _, rfl, hn, hs, h5, rfl, if_neg h5⟩

/-- What a gap of each length leads to (R158 to R163). `d` is the DSTATE in which the code is resolved. -/
theorem State.afterGap_cases (s : State) (g : Nat) (hp : 0 < codeLen s.pend) :
    (0 < g ∧ g ≤ 2 ∧ s.afterGap g = .again s) ∨
    (∃ d, (g = 0 ∨ 3 ≤ g) ∧ lookupCode s.pend = none ∧
      s.afterGap g = .stop ((s.setDstate d).raiseDecodeError .unresolvableCode)) ∨
    (∃ d, (g = 0 ∨ 3 ≤ g) ∧ lookupCode s.pend = some 0 ∧
      s.afterGap g = .stop (s.setDstate d).finishDecode) ∨
    (∃ c, lookupCode s.pend = some c ∧ c ≠ 0 ∧ g = 0 ∧ s.afterGap g = .stop (s.takeChar c).finishDecode) ∨
    (∃ c, lookupCode s.pend = some c ∧ c ≠ 0 ∧ 3 ≤ g ∧ g ≤ 6 ∧
      s.afterGap g = .again ((s.takeChar c).setDstate .accumulatingSymbol)) ∨
    (∃ c, lookupCode s.pend = some c ∧ c ≠ 0 ∧ 7 ≤ g ∧ s.boff < s.streamBits ∧
      s.afterGap g = .again (((s.takeChar c).appendChar spaceChar).setDstate .accumulatingSymbol)) ∨
    (∃ c, lookupCode s.pend = some c ∧ c ≠ 0 ∧ 7 ≤ g ∧ s.streamBits ≤ s.boff ∧
      s.afterGap g = .stop ((s.setDstate .atWordBoundary).takeChar c).finishDecode) := by
  rw [State.afterGap]
  by_cases h0 : g = 0
  · rw [if_pos h0]
    rcases s.resolve_cases with ⟨h, e⟩ | ⟨h, e⟩ | ⟨c, h, hc, e⟩ <;> rw [e]
    · exact .inr (.inl ⟨s.dstate, .inl h0, h, rfl⟩)
    · exact .inr (.inr (.inl ⟨s.dstate, .inl h0, h, rfl⟩))
    · exact .inr (.inr (.inr (.inl ⟨c, h, hc, h0, rfl⟩)))
  rw [if_neg h0]
  by_cases h2 : g ≤ 2
  · exact .inl ⟨by omega, h2, by rw [if_pos h2]⟩
  rw [if_neg h2]
  by_cases h6 : g ≤ 6
  · rw [if_pos h6]
    rcases (s.setDstate .atLetterBoundary).resolve_cases with ⟨h, e⟩ | ⟨h, e⟩ | ⟨c, h, hc, e⟩ <;> rw [e]
    · exact .inr (.inl ⟨.atLetterBoundary, .inr (by omega), h, rfl⟩)
    · exact .inr (.inr (.inl ⟨.atLetterBoundary, .inr (by omega), h, rfl⟩))
    · exact .inr (.inr (.inr (.inr (.inl ⟨c, h, hc, by omega, h6, rfl⟩))))
  · rw [if_neg h6]
    rw [if_pos hp]
    rcases (s.setDstate .atWordBoundary).resolve_cases with ⟨h, e⟩ | ⟨h, e⟩ | ⟨c, h, hc, e⟩ <;> rw [e]
    · exact .inr (.inl ⟨.atWordBoundary, .inr (by omega), h, rfl⟩)
    · exact .inr (.inr (.inl ⟨.atWordBoundary, .inr (by omega), h, rfl⟩))
    · by_cases hb : s.boff < s.streamBits
      · refine .inr (.inr (.inr (.inr (.inr (.inl ⟨c, h, hc, by omega, hb, ?_⟩)))))
        exact if_pos hb
      · refine .inr (.inr (.inr (.inr (.inr (.inr ⟨c, h, hc, by omega, by omega, ?_⟩)))))
        exact if_neg hb

/-! ### The loop -/

/-- What holds at the top of the loop of R150 (R166), and goes on holding. -/
structure State.LoopTop (s : State) : Prop where
  boff_le : s.boff ≤ s.streamBits
  pend_ok : codeWordOk s.pend = true

/-- Taking characters keeps what holds at the top. -/
theorem State.LoopTop.of_frame {s t : State} (h : s.LoopTop) (hf : DecodeFrame s t) (hb : t.boff = s.boff)
    (hp : t.pend = 0) : t.LoopTop where
  boff_le := by rw [hf.streamBits, hb]; exact h.boff_le
  pend_ok := by rw [hp]; exact codeWordOk_zero

/-- After a symbol: PEND is a code word with a symbol in it, BOFF has advanced and is inside the stream. -/
theorem State.afterSymbol_spec {s : State} (h : s.LoopTop) {n g : Nat} {dash : Bool}
    (hn : n = runFrom s.getBit s.streamBits s.boff) (h5 : codeLen s.pend ≠ 5)
    (hg : g = runFrom s.getBit s.streamBits (s.boff + n)) :
    DecodeFrame s (s.afterSymbol n g dash) ∧ (s.afterSymbol n g dash).LoopTop ∧
      0 < codeLen (s.afterSymbol n g dash).pend := by
  have hl : codeLen s.pend < 5 := by
    have := ((codeWordOk_iff _).1 h.pend_ok).1
    omega
  have h1 := runFrom_le s.getBit h.boff_le
  rw [← hn] at h1
  have h2 := runFrom_le s.getBit h1
  rw [← hg] at h2
  refine ⟨frame_afterSymbol s n g dash, ⟨h2, codeWordOk_pushSymbol dash h.pend_ok hl⟩, ?_⟩
  rw [State.afterSymbol_pend, codeLen_pushSymbol dash h.pend_ok hl]
  omega

/-- A pass that goes on has advanced BOFF, and keeps what holds at the top (R166). -/
theorem State.decodePass_again {s s' : State} (h : s.LoopTop) (e : s.decodePass = .again s') :
    DecodeFrame s s' ∧ s'.LoopTop ∧ s.boff < s'.boff := by
  rcases s.decodePass_cases with ⟨-, e'⟩ | ⟨-, -, e'⟩ | ⟨n, d, -, -, -, -, e'⟩ | ⟨n, d, g, hn, hn0, -, h5, hg, e'⟩ <;>
    rw [e'] at e
  · cases e
  · cases e
  · cases e
  · obtain ⟨hf, ht, hp⟩ := State.afterSymbol_spec (dash := d) h hn h5 hg
    have hb : s.boff < (s.afterSymbol n g d).boff := by rw [State.afterSymbol_boff]; omega
    rcases State.afterGap_cases _ g hp with ⟨-, -, e2⟩ | ⟨_, -, -, e2⟩ | ⟨_, -, -, e2⟩ | ⟨_, -, -, -, e2⟩ |
        ⟨c, -, -, -, -, e2⟩ | ⟨c, -, -, -, -, e2⟩ | ⟨_, -, -, -, -, e2⟩ <;>
      rw [e2] at e <;> cases e
    · exact ⟨hf, ht, hb⟩
    · exact ⟨hf.trans (frame_takeLetter _ c), ht.of_frame (frame_takeLetter _ c) rfl rfl, hb⟩
    · exact ⟨hf.trans (frame_takeSpace _ c), ht.of_frame (frame_takeSpace _ c) rfl rfl, hb⟩

/-- The loop, packaged as an induction: what every pass keeps at the top and establishes at its end holds at the end
of the loop, given passes enough to reach the end of the stream. -/
theorem State.decodeLoop_induction {P Q : State → Prop}
    (again : ∀ s s', P s → s.decodePass = .again s' → P s') (stop : ∀ s t, P s → s.decodePass = .stop t → Q t)
    (top : ∀ s, P s → s.LoopTop) (n : Nat) (s : State) (hs : P s) (hn : s.streamBits < s.boff + n) :
    Q (s.decodeLoop n) := by
  induction n generalizing s with
  | zero => have := (top s hs).boff_le; omega
  | succ n ih =>
    rw [State.decodeLoop]
    cases e : s.decodePass with
    | stop t => exact stop s t hs e
    | again s' =>
      obtain ⟨hf, -, hb⟩ := State.decodePass_again (top s hs) e
      refine ih s' (again s s' hs e) ?_
      rw [hf.streamBits]; omega

/-- DECODE from the top of the loop, with the passes that are enough (R166). -/
def State.decodeFrom (s : State) : State := s.decodeLoop (s.streamBits + 1 - s.boff)

/-- Passes beyond those that are enough change nothing. -/
theorem State.decodeLoop_eq_decodeFrom {s : State} (h : s.LoopTop) (n : Nat) (hn : s.streamBits < s.boff + n) :
    s.decodeLoop n = s.decodeFrom := by
  have key : ∀ n m (s : State), s.LoopTop → s.streamBits < s.boff + n → s.streamBits < s.boff + m →
      s.decodeLoop n = s.decodeLoop m := by
    intro n
    induction n with
    | zero => intro m s h hn; have := h.boff_le; omega
    | succ n ih =>
      intro m s h hn hm
      cases m with
      | zero => have := h.boff_le; omega
      | succ m =>
        rw [State.decodeLoop, State.decodeLoop]
        cases e : s.decodePass with
        | stop t => rfl
        | again s' =>
          obtain ⟨hf, ht, hb⟩ := State.decodePass_again h e
          exact ih m s' ht (by rw [hf.streamBits]; omega) (by rw [hf.streamBits]; omega)
  exact key _ _ s h hn (by have := h.boff_le; omega)

/-- One turn of the loop. -/
theorem State.decodeFrom_again {s s' : State} (h : s.LoopTop) (e : s.decodePass = .again s') :
    s.decodeFrom = s'.decodeFrom := by
  obtain ⟨hf, ht, hb⟩ := State.decodePass_again h e
  rw [← State.decodeLoop_eq_decodeFrom h (s.streamBits + 1 - s.boff + 1) (by omega), State.decodeLoop, e]
  exact State.decodeLoop_eq_decodeFrom ht _ (by rw [hf.streamBits]; omega)

theorem State.decodeFrom_stop {s t : State} (h : s.LoopTop) (e : s.decodePass = .stop t) : s.decodeFrom = t := by
  rw [← State.decodeLoop_eq_decodeFrom h (s.streamBits + 1 - s.boff + 1) (by omega), State.decodeLoop, e]

/-- The start of DECODE (R152, R153): BOFF is at the end of the leading zeros. -/
theorem State.beginDecode_cases (s : State) :
    ∃ z ≤ s.streamBits, (∀ k < z, s.getBit k = false) ∧ (z = s.streamBits ∨ s.getBit z = true) ∧
      s.beginDecode = { s with boff := z, olen := 0, pend := 0, dstate := .accumulatingSymbol } := by
  rw [State.beginDecode]
  let u : State := { s with boff := 0, olen := 0, pend := 0, dstate := .accumulatingSymbol }
  have hu : u.runLength s.arg0 0 = runFrom s.getBit s.streamBits 0 := rfl
  by_cases hz : 0 < u.runLength s.arg0 0 ∧ u.getBit 0 = false
  · refine ⟨u.runLength s.arg0 0, ?_, ?_, ?_, if_pos hz⟩
    · rw [hu]; simpa using runFrom_le s.getBit (Nat.zero_le s.streamBits)
    · have h0 : 0 < s.streamBits := by
        by_contra h0
        rw [hu, runFrom_of_le _ (by omega)] at hz; omega
      intro k hk
      have := (runFrom_spec s.getBit h0).2.2.1 k (by rwa [hu] at hk)
      rw [Nat.zero_add] at this
      rw [this]; exact hz.2
    · have h0 : 0 < s.streamBits := by
        by_contra h0
        rw [hu, runFrom_of_le _ (by omega)] at hz; omega
      have h4 := (runFrom_spec s.getBit h0).2.2.2
      rw [Nat.zero_add] at h4
      rw [hu]
      rcases h4 with h4 | h4
      · exact .inl h4
      · right
        have : s.getBit 0 = false := hz.2
        rw [this] at h4; simpa using h4
  · refine ⟨0, Nat.zero_le _, fun k hk => by omega, ?_, if_neg hz⟩
    by_cases h0 : s.streamBits = 0
    · exact .inl h0.symm
    · right
      have h1 := (runFrom_spec s.getBit (show 0 < s.streamBits by omega)).1
      rw [← hu] at h1
      by_contra hb
      exact hz ⟨h1, (Bool.not_eq_true _).mp hb⟩

theorem State.beginDecode_top (s : State) : s.beginDecode.LoopTop := by
  obtain ⟨z, hz, -, -, e⟩ := s.beginDecode_cases
  rw [e]; exact ⟨hz, codeWordOk_zero⟩

theorem State.decodeStream_eq (s : State) : s.decodeStream = s.beginDecode.decodeFrom := by
  obtain ⟨z, hz, -, -, e⟩ := s.beginDecode_cases
  refine State.decodeLoop_eq_decodeFrom s.beginDecode_top _ ?_
  have : s.beginDecode.streamBits = s.streamBits := by rw [e]; rfl
  omega

/-! ### What a whole DECODE leaves -/

/-- The characters DECODE appends (R164): upper-case letters, digits and the space. -/
def TextChar (c : Byte) : Prop :=
  (0x41 ≤ c.toNat ∧ c.toNat ≤ 0x5A) ∨ (0x30 ≤ c.toNat ∧ c.toNat ≤ 0x39) ∨ c = spaceChar

/-- A text as DECODE makes it (R164, R166): its alphabet, no leading space, no two spaces in a row. -/
structure CleanText (f : Nat → Byte) (n : Nat) : Prop where
  chars : ∀ i < n, TextChar (f i)
  lead : 0 < n → f 0 ≠ spaceChar
  spaces : ∀ i, i + 1 < n → f i = spaceChar → f (i + 1) ≠ spaceChar

/-- What holds at the top of the loop for a DECODE that began in `s0`. -/
structure DecodeInv (s0 s : State) : Prop where
  frame : DecodeFrame s0 s
  top : s.LoopTop
  dstate : s.dstate = .accumulatingSymbol
  err : s.err = s0.err
  res0 : s.res0 = s0.res0
  draw : s.txtDraw = s0.txtDraw
  cost : 4 * s.olen ≤ s.boff
  text : CleanText s.cell s.olen
  beyond : ∀ i, s.olen ≤ i → s.cell i = s0.cell i
  wf : s0.txt.wf → s.txt.wf
  listed : ∀ p ∈ s.txt, p ∈ s0.txt ∨ p.1 < s.olen

/-- A DECODE that succeeds (R165). -/
structure DecodeDone (s0 t : State) : Prop where
  frame : DecodeFrame s0 t
  boff_le : t.boff ≤ s0.streamBits
  pend_ok : codeWordOk t.pend = true
  dstate : t.dstate = .done
  err : t.err = s0.err
  res0 : t.res0 = t.olen
  draw : t.txtDraw = s0.txtDraw
  cost : 4 * t.olen ≤ s0.streamBits + 3
  text : CleanText t.cell t.olen
  nul : t.cell t.olen = 0
  beyond : ∀ i, t.olen < i → t.cell i = s0.cell i
  wf : s0.txt.wf → t.txt.wf
  listed : ∀ p ∈ t.txt, p ∈ s0.txt ∨ p.1 ≤ t.olen

/-- A DECODE that raises an error (R172, R183). -/
structure DecodeFailed (s0 t : State) : Prop where
  frame : DecodeFrame s0 t
  boff_le : t.boff ≤ s0.streamBits
  pend_ok : codeWordOk t.pend = true
  dstate : t.dstate = .error
  err : t.err ≠ none
  res0 : t.res0 = errorValue s0.cfg
  draw : t.txtDraw = s0.txtDraw + 1
  cost : 4 * t.olen ≤ s0.streamBits + 3
  txt : t.txt = []

theorem CleanText.congr {f g : Nat → Byte} {n : Nat} (h : ∀ i < n, f i = g i) (hf : CleanText f n) : CleanText g n where
  chars i hi := h i hi ▸ hf.chars i hi
  lead hn := h 0 hn ▸ hf.lead hn
  spaces i hi := by
    rw [← h i (by omega), ← h (i + 1) hi]
    exact hf.spaces i hi

theorem CleanText.zero (f : Nat → Byte) : CleanText f 0 where
  chars i hi := by omega
  lead hn := by omega
  spaces i hi := by omega

/-- Appending a letter or digit, or a space after a character that is none, keeps a text clean. -/
theorem CleanText.append {f : Nat → Byte} {n : Nat} (h : CleanText f n) (hc : TextChar (f n))
    (hs : f n = spaceChar → 0 < n ∧ f (n - 1) ≠ spaceChar) : CleanText f (n + 1) where
  chars i hi := by
    rcases Nat.lt_succ_iff_lt_or_eq.1 hi with hi | rfl
    · exact h.chars i hi
    · exact hc
  lead _ := by
    rcases Nat.eq_zero_or_pos n with rfl | hn
    · intro h0; exact absurd (hs h0).1 (by omega)
    · exact h.lead hn
  spaces i hi h1 h2 := by
    rcases Nat.lt_or_ge (i + 1) n with h3 | h3
    · exact h.spaces i h3 h1 h2
    · have e : i + 1 = n := by omega
      subst e
      exact (hs h2).2 h1

theorem textChar_of_lookup {w c : Byte} (h : lookupCode w = some c) (hc : c ≠ 0) :
    TextChar c ∧ c ≠ spaceChar := by
  rcases lookupCode_range h with h | h | h
  · exact absurd h hc
  · refine ⟨.inl h, ?_⟩
    rintro rfl; revert h; decide
  · refine ⟨.inr (.inl h), ?_⟩
    rintro rfl; revert h; decide

/-- One character taken at the end of a text. -/
theorem DecodeInv.takeChar_text {s0 s : State} (h : DecodeInv s0 s) {u : State} {c : Byte} (ht : u.txt = s.txt)
    (hd : u.txtDraw = s.txtDraw) (ho : u.olen = s.olen) (hc : TextChar c ∧ c ≠ spaceChar) :
    CleanText (u.takeChar c).cell (s.olen + 1) ∧ (∀ i, s.olen + 1 ≤ i → (u.takeChar c).cell i = s0.cell i) ∧
      (u.takeChar c).cell s.olen = c := by
  have e : ∀ i, (u.takeChar c).cell i = if i = s.olen then c else s.cell i := by
    intro i
    have := u.cell_appendChar c i
    rw [ho, State.cell_congr ht hd i] at this
    exact this
  have hsame : ∀ i < s.olen, s.cell i = (u.takeChar c).cell i := fun i hi => by rw [e, if_neg (by omega)]
  refine ⟨(h.text.congr hsame).append ?_ ?_, fun i hi => ?_, ?_⟩
  · rw [e, if_pos rfl]; exact hc.1
  · rw [e, if_pos rfl]; exact fun h => absurd h hc.2
  · rw [e, if_neg (by omega)]; exact h.beyond i (by omega)
  · rw [e, if_pos rfl]

theorem wf_takeChar {u : State} {c : Byte} (h : u.txt.wf) : (u.takeChar c).txt.wf := Memory.write_wf _ _ h

theorem DecodeInv.takeChar_listed {s0 s : State} (h : DecodeInv s0 s) {u : State} {c : Byte} (ht : u.txt = s.txt)
    (ho : u.olen = s.olen) : ∀ p ∈ (u.takeChar c).txt, p ∈ s0.txt ∨ p.1 < (u.takeChar c).olen := by
  intro p hp
  rw [State.takeChar_txt, ht, ho] at hp
  rw [State.takeChar_olen, ho]
  rcases Memory.mem_write hp with rfl | hp
  · exact .inr (Nat.lt_succ_self _)
  · exact (h.listed p hp).imp_right fun h => Nat.lt_succ_of_lt h

/-- Finishing from the top of a pass, or after taking a last character. -/
theorem DecodeDone.of_finish {s0 u : State} (hf : DecodeFrame s0 u) (hb : u.boff ≤ s0.streamBits)
    (hp : codeWordOk u.pend = true) (he : u.err = s0.err) (hd : u.txtDraw = s0.txtDraw)
    (hc : 4 * u.olen ≤ s0.streamBits + 3) (ht : CleanText u.cell u.olen) (hr : ∀ i, u.olen ≤ i → u.cell i = s0.cell i)
    (hw : s0.txt.wf → u.txt.wf) (hl : ∀ p ∈ u.txt, p ∈ s0.txt ∨ p.1 < u.olen) :
    DecodeDone s0 u.finishDecode where
  frame := hf.trans (frame_finishDecode u)
  boff_le := hb
  pend_ok := hp
  dstate := rfl
  err := he
  res0 := rfl
  draw := hd
  cost := hc
  text := ht.congr fun i (hi : i < u.olen) => by rw [State.cell_finishDecode, if_neg (Nat.ne_of_lt hi)]
  nul := by rw [State.cell_finishDecode]; exact if_pos rfl
  beyond i hi := by
    have hi : u.olen < i := hi
    rw [State.cell_finishDecode, if_neg (by omega)]; exact hr i (by omega)
  wf h := Memory.write_wf _ _ (hw h)
  listed p hp := by
    rcases Memory.mem_write hp with rfl | hp
    · exact .inr le_rfl
    · rcases hl p hp with h | h
      · exact .inl h
      · exact .inr (Nat.le_of_lt h)

theorem DecodeFailed.of_raise {s0 u : State} {e : DecodeError} (hf : DecodeFrame s0 u) (hb : u.boff ≤ s0.streamBits)
    (hp : codeWordOk u.pend = true) (hd : u.txtDraw = s0.txtDraw) (hc : 4 * u.olen ≤ s0.streamBits + 3) :
    DecodeFailed s0 (u.raiseDecodeError e) where
  frame := hf.trans (frame_raiseDecodeError u e)
  boff_le := hb
  pend_ok := hp
  dstate := rfl
  err := by simp
  res0 := by simp [hf.cfg]
  draw := by simp [hd]
  cost := hc
  txt := rfl

/-- A pass keeps what holds at the top of the loop, or ends the command in success or in an error. -/
theorem DecodeInv.pass {s0 s : State} (h : DecodeInv s0 s) :
    (∀ s', s.decodePass = .again s' → DecodeInv s0 s') ∧
    (∀ t, s.decodePass = .stop t → DecodeDone s0 t ∨ DecodeFailed s0 t) := by
  have hsb := h.frame.streamBits
  have hbl : s.boff ≤ s0.streamBits := hsb ▸ h.top.boff_le
  have hcost : 4 * s.olen ≤ s0.streamBits + 3 := by have := h.cost; omega
  rcases s.decodePass_cases with ⟨-, e⟩ | ⟨-, -, e⟩ | ⟨n, d, hn, -, -, -, e⟩ | ⟨n, d, g, hn, hn0, -, h5, hg, e⟩ <;>
    rw [e]
  · refine ⟨fun s' hs => by (cases hs), fun t ht => .inl ?_⟩
    cases ht
    exact .of_finish h.frame hbl h.top.pend_ok h.err h.draw hcost h.text h.beyond h.wf h.listed
  · refine ⟨fun s' hs => by (cases hs), fun t ht => .inr ?_⟩
    cases ht
    exact .of_raise h.frame hbl h.top.pend_ok h.draw hcost
  · refine ⟨fun s' hs => by (cases hs), fun t ht => .inr ?_⟩
    cases ht
    refine .of_raise (h.frame.trans (frame_advance s n)) ?_ h.top.pend_ok h.draw hcost
    have := runFrom_le s.getBit h.top.boff_le
    rw [← hn, hsb] at this
    exact this
  · obtain ⟨hf, ht, hp⟩ := State.afterSymbol_spec (dash := d) h.top hn h5 hg
    have hfr := h.frame.trans hf
    have hub : (s.afterSymbol n g d).boff ≤ s0.streamBits := by
      have := ht.boff_le
      rwa [hf.streamBits, hsb] at this
    have huo : (s.afterSymbol n g d).boff = s.boff + n + g := rfl
    have hol : (s.afterSymbol n g d).olen = s.olen := rfl
    have hc0 := h.cost
    rcases State.afterGap_cases _ g hp with ⟨hg1, hg2, e2⟩ | ⟨ds, -, -, e2⟩ | ⟨ds, -, -, e2⟩ | ⟨c, hc, hc0', -, e2⟩ |
        ⟨c, hc, hc0', hg3, hg6, e2⟩ | ⟨c, hc, hc0', hg7, hlt, e2⟩ | ⟨c, hc, hc0', hg7, hge, e2⟩ <;> rw [e2]
    · refine ⟨fun s' hs => ?_, fun t hs => by (cases hs)⟩
      cases hs
      exact { frame := hfr, top := ht, dstate := by simp [h.dstate], err := by simp [h.err], res0 := by simp [h.res0], draw := by simp [h.draw],
              cost := by rw [huo, hol]; omega, text := h.text, beyond := h.beyond, wf := h.wf, listed := h.listed }
    · refine ⟨fun s' hs => by (cases hs), fun t hs => .inr ?_⟩
      cases hs
      exact .of_raise (hfr.trans (frame_setDstate _ ds)) hub ht.pend_ok (by simp [h.draw]) hcost
    · refine ⟨fun s' hs => by (cases hs), fun t hs => .inl ?_⟩
      cases hs
      exact .of_finish (hfr.trans (frame_setDstate _ ds)) hub ht.pend_ok (by simp [h.err]) (by simp [h.draw])
        hcost h.text h.beyond h.wf h.listed
    · have hk := h.takeChar_text (u := s.afterSymbol n g d) rfl rfl rfl (textChar_of_lookup hc hc0')
      refine ⟨fun s' hs => by (cases hs), fun t hs => .inl ?_⟩
      cases hs
      refine .of_finish (hfr.trans (frame_takeChar _ c)) hub codeWordOk_zero (by simp [h.err]) (by simp [h.draw]) ?_
        (by simpa using hk.1) (by simpa using hk.2.1) (fun w => by simpa using wf_takeChar (c := c) (h.wf w))
        (h.takeChar_listed rfl rfl)
      rw [State.takeChar_olen, hol]; omega
    · have hk := h.takeChar_text (u := s.afterSymbol n g d) rfl rfl rfl (textChar_of_lookup hc hc0')
      refine ⟨fun s' hs => ?_, fun t hs => by (cases hs)⟩
      cases hs
      refine { frame := hfr.trans (frame_takeLetter _ c), top := ht.of_frame (frame_takeLetter _ c) rfl rfl,
               dstate := rfl, err := by simp [h.err], res0 := by simp [h.res0], draw := by simp [h.draw], cost := ?_, text := ?_, beyond := ?_,
               wf := fun w => wf_takeChar (h.wf w), listed := h.takeChar_listed rfl rfl }
      · rw [State.setDstate_olen, State.takeChar_olen, State.setDstate_boff, State.takeChar_boff, huo, hol]; omega
      · rw [State.cell_setDstate]; exact hk.1
      · rw [State.cell_setDstate]; exact hk.2.1
    · have hk := h.takeChar_text (u := s.afterSymbol n g d) rfl rfl rfl (textChar_of_lookup hc hc0')
      refine ⟨fun s' hs => ?_, fun t hs => by (cases hs)⟩
      cases hs
      have ho1 : ((s.afterSymbol n g d).takeChar c).olen = s.olen + 1 := rfl
      refine { frame := hfr.trans (frame_takeSpace _ c), top := ht.of_frame (frame_takeSpace _ c) rfl rfl,
               dstate := rfl, err := by simp [h.err], res0 := by simp [h.res0], draw := by simp [h.draw], cost := ?_, text := ?_, beyond := ?_,
               wf := fun w => Memory.write_wf _ _ (wf_takeChar (h.wf w)), listed := ?_ }
      · rw [State.setDstate_olen, State.appendChar_olen, State.setDstate_boff, State.appendChar_boff,
          State.takeChar_boff, huo, ho1]
        omega
      · rw [State.cell_setDstate, State.setDstate_olen, State.appendChar_olen, ho1]
        refine (hk.1.congr fun i hi => by rw [State.cell_appendChar, ho1, if_neg (by omega)]).append ?_ ?_
        · rw [State.cell_appendChar, ho1, if_pos rfl]; exact .inr (.inr rfl)
        · intro _
          refine ⟨by omega, ?_⟩
          rw [State.cell_appendChar, ho1, if_neg (by omega), Nat.add_sub_cancel, hk.2.2]
          exact (textChar_of_lookup hc hc0').2
      · intro i hi
        rw [State.setDstate_olen, State.appendChar_olen, ho1] at hi
        rw [State.cell_setDstate, State.cell_appendChar, ho1, if_neg (by omega)]
        exact hk.2.1 i (by omega)
      · intro p hp
        rw [State.setDstate_olen, State.appendChar_olen, ho1]
        rcases Memory.mem_write hp with rfl | hp
        · exact .inr (Nat.lt_succ_self _)
        · exact (h.takeChar_listed (u := s.afterSymbol n g d) rfl rfl p hp).imp_right fun h => by
            rw [ho1] at h; omega
    · have hk := h.takeChar_text (u := (s.afterSymbol n g d).setDstate .atWordBoundary) rfl rfl rfl
        (textChar_of_lookup hc hc0')
      refine ⟨fun s' hs => by (cases hs), fun t hs => .inl ?_⟩
      cases hs
      refine .of_finish (hfr.trans (frame_takeLast _ c)) hub codeWordOk_zero (by simp [h.err]) (by simp [h.draw]) ?_
        (by simpa using hk.1) (by simpa using hk.2.1) (fun w => by simpa using wf_takeChar (c := c) (h.wf w))
        (h.takeChar_listed rfl rfl)
      rw [State.takeChar_olen, State.setDstate_olen, hol]; omega

/-- Everything a DECODE can do: it succeeds as R165 says, or fails as R172 and R183 say. -/
theorem State.decodeStream_spec (s : State) : DecodeDone s s.decodeStream ∨ DecodeFailed s s.decodeStream := by
  have hinv : DecodeInv s s.beginDecode := by
    obtain ⟨z, hz, -, -, e⟩ := s.beginDecode_cases
    rw [e]
    exact { frame := by constructor <;> rfl, top := ⟨hz, codeWordOk_zero⟩, dstate := rfl, err := rfl, res0 := rfl, draw := rfl,
            cost := Nat.zero_le _, text := .zero _, beyond := fun _ _ => rfl, wf := id, listed := fun p hp => .inl hp }
  rw [State.decodeStream_eq]
  refine State.decodeLoop_induction (P := DecodeInv s) (fun a b h e => h.pass.1 b e) (fun a t h e => h.pass.2 t e)
    (fun a h => h.top) _ _ hinv ?_
  have := s.beginDecode_top.boff_le
  omega

end Sys2Proof.Machine
end

