-- ==== Sys2Proof/Laws/Stream.lean ====
section
/-! SUPPORT. How DECODE reads a stream (44_decoder.md): symbol by symbol, then a whole code with the gap after it.
The lemmas are about `State.decodeFrom`, DECODE from any point where a pass begins. -/

namespace Sys2Proof.Machine

/-! ### Bits in BUF -/

theorem State.HasBits.nil (s : State) (o : Nat) : s.HasBits o [] := fun k hk => absurd hk (Nat.not_lt_zero k)

theorem State.hasBits_append {s : State} {o : Nat} {as bs : List Bool} :
    s.HasBits o (as ++ bs) ↔ s.HasBits o as ∧ s.HasBits (o + as.length) bs := by
  constructor
  · refine fun h => ⟨fun k hk => ?_, fun k hk => ?_⟩
    · rw [h k (by rw [List.length_append]; omega), List.getD_append _ _ _ _ hk]
    · rw [Nat.add_assoc, h (as.length + k) (by rw [List.length_append]; omega),
        List.getD_append_right _ _ _ _ (by omega), Nat.add_sub_cancel_left]
  · rintro ⟨h1, h2⟩ k hk
    rw [List.length_append] at hk
    rcases Nat.lt_or_ge k as.length with h | h
    · rw [List.getD_append _ _ _ _ h]; exact h1 k h
    · rw [List.getD_append_right _ _ _ _ h, ← h2 (k - as.length) (by omega)]
      congr 1; omega

theorem State.hasBits_replicate {s : State} {o n : Nat} {v : Bool} :
    s.HasBits o (List.replicate n v) ↔ ∀ k < n, s.getBit (o + k) = v := by
  simp only [State.HasBits, List.length_replicate]
  refine forall₂_congr fun k hk => ?_
  rw [List.getD_replicate _ hk]

theorem State.hasBits_cons {s : State} {o : Nat} {b : Bool} {bs : List Bool} :
    s.HasBits o (b :: bs) ↔ s.getBit o = b ∧ s.HasBits (o + 1) bs := by
  rw [show b :: bs = List.replicate 1 b ++ bs from rfl, State.hasBits_append, State.hasBits_replicate]
  simp

theorem State.HasBits.of_frame {s t : State} {o : Nat} {bs : List Bool} (h : s.HasBits o bs) (hf : DecodeFrame s t) :
    t.HasBits o bs := fun k hk => (hf.getBit _).trans (h k hk)

/-! ### Symbols -/

theorem symbolBits_eq (d : Bool) : symbolBits d = List.replicate (if d then 3 else 1) true ++ [false] := rfl

/-- Every symbol begins with a 1 (R135). -/
theorem symbolBits_head (d : Bool) : ∃ bs, symbolBits d = true :: bs := by cases d <;> exact ⟨_, rfl⟩

/-- A list of symbols followed by a 1 begins with a 1. -/
theorem symbols_head (ds : List Bool) (bs : List Bool) : ∃ cs, ds.flatMap symbolBits ++ true :: bs = true :: cs := by
  cases ds with
  | nil => exact ⟨bs, rfl⟩
  | cons d ds =>
    obtain ⟨cs, h⟩ := symbolBits_head d
    exact ⟨cs ++ (ds.flatMap symbolBits ++ true :: bs), by simp [h]⟩

theorem runSymbol_symbol (d : Bool) : runSymbol (if d then 3 else 1) = some d := by cases d <;> rfl

/-! ### Passes -/

/-- What a pass leads to: the rest of the loop, or the end of the command. -/
def Pass.finish : Pass → State
  | .again s => s.decodeFrom
  | .stop t => t

@[simp] theorem Pass.finish_again (s : State) : (Pass.again s).finish = s.decodeFrom := rfl
@[simp] theorem Pass.finish_stop (s : State) : (Pass.stop s).finish = s := rfl

theorem State.decodeFrom_eq_pass {s : State} (h : s.LoopTop) : s.decodeFrom = s.decodePass.finish := by
  cases e : s.decodePass with
  | again s' => exact State.decodeFrom_again h e
  | stop t => exact State.decodeFrom_stop h e

/-- At the end of the stream the command is complete (R150, R154). -/
theorem State.decodeFrom_end {s : State} (h : s.LoopTop) (hc : s.streamBits ≤ s.boff) :
    s.decodeFrom = s.finishDecode := by
  apply State.decodeFrom_stop h
  rcases s.decodePass_cases with ⟨-, h⟩ | ⟨h, -⟩ | ⟨n, d, h, h0, -⟩ | ⟨n, d, g, h, h0, -⟩
  · exact h
  · omega
  · rw [runFrom_of_le _ hc] at h; omega
  · rw [runFrom_of_le _ hc] at h; omega

/-- DECODE begins at the first 1, if there is one (R153). -/
theorem State.beginDecode_of_first {s : State} {z : Nat} (hz : z ≤ s.streamBits) (h0 : ∀ k < z, s.getBit k = false)
    (h1 : z = s.streamBits ∨ s.getBit z = true) :
    s.beginDecode = { s with boff := z, olen := 0, pend := 0, dstate := .accumulatingSymbol } := by
  obtain ⟨y, hy, hy0, hy1, e⟩ := s.beginDecode_cases
  have : y = z := by
    rcases Nat.lt_trichotomy y z with h | h | h
    · rcases hy1 with hy1 | hy1
      · omega
      · rw [h0 y h] at hy1; cases hy1
    · exact h
    · rcases h1 with h1 | h1
      · omega
      · rw [hy0 z h] at h1; cases h1
  rw [e, this]

theorem frame_beginDecode (s : State) : DecodeFrame s s.beginDecode := by
  obtain ⟨z, -, -, -, e⟩ := s.beginDecode_cases
  rw [e]; constructor <;> rfl

/-- A run of ones at BOFF that is a symbol's, ended by a 0 or the end of the stream, is read as that symbol; `g` is the
gap behind it (R154 to R157). -/
theorem State.decodeFrom_run {s : State} (h : s.LoopTop) (d : Bool) {g : Nat}
    (hc : s.boff + (if d then 3 else 1) ≤ s.streamBits)
    (hb : s.HasBits s.boff (List.replicate (if d then 3 else 1) true))
    (he : s.boff + (if d then 3 else 1) = s.streamBits ∨ s.getBit (s.boff + if d then 3 else 1) = false)
    (hg : g = runFrom s.getBit s.streamBits (s.boff + if d then 3 else 1)) (h5 : codeLen s.pend ≠ 5) :
    s.decodeFrom = ((s.afterSymbol (if d then 3 else 1) g d).afterGap g).finish := by
  rw [State.hasBits_replicate] at hb
  have hk : 0 < if d then 3 else 1 := by cases d <;> decide
  have hn : runFrom s.getBit s.streamBits s.boff = if d then 3 else 1 :=
    runFrom_eq _ true hk hc hb (he.imp_right fun h => by rw [h]; decide)
  rw [State.decodeFrom_eq_pass h]
  rcases s.decodePass_cases with ⟨h1, -⟩ | ⟨-, h1, -⟩ | ⟨n, d', -, -, -, h1, -⟩ | ⟨n, d', g', e1, -, e2, -, e3, e⟩
  · omega
  · rw [hn, runSymbol_symbol] at h1; cases h1
  · exact absurd h1 h5
  · rw [hn] at e1
    rw [e1, runSymbol_symbol] at e2
    cases e2
    rw [e1, ← hg] at e3
    rw [e, e1, e3]

/-- A sixth symbol (R156). -/
theorem State.decodeFrom_sixth {s : State} (h : s.LoopTop) (d : Bool)
    (hc : s.boff + (if d then 3 else 1) ≤ s.streamBits)
    (hb : s.HasBits s.boff (List.replicate (if d then 3 else 1) true))
    (he : s.boff + (if d then 3 else 1) = s.streamBits ∨ s.getBit (s.boff + if d then 3 else 1) = false)
    (h5 : codeLen s.pend = 5) :
    s.decodeFrom = (s.advance (if d then 3 else 1)).raiseDecodeError .oversizedCode := by
  rw [State.hasBits_replicate] at hb
  have hk : 0 < if d then 3 else 1 := by cases d <;> decide
  have hn : runFrom s.getBit s.streamBits s.boff = if d then 3 else 1 :=
    runFrom_eq _ true hk hc hb (he.imp_right fun h => by rw [h]; decide)
  rw [State.decodeFrom_eq_pass h]
  rcases s.decodePass_cases with ⟨h1, -⟩ | ⟨-, h1, -⟩ | ⟨n, d', e1, -, -, -, e⟩ | ⟨n, d', g', -, -, -, h1, -⟩
  · omega
  · rw [hn, runSymbol_symbol] at h1; cases h1
  · rw [e, e1, hn]; rfl
  · exact absurd h5 h1

/-- The state once the symbols `ds`, each with its intra-symbol gap, have been read. -/
def State.afterSymbols (s : State) (ds : List Bool) : State :=
  { s with boff := s.boff + (ds.flatMap symbolBits).length, pend := pushAll s.pend ds }

theorem frame_afterSymbols (s : State) (ds : List Bool) : DecodeFrame s (s.afterSymbols ds) := by constructor <;> rfl

@[simp] theorem State.afterSymbols_err (s : State) (ds : List Bool) : (s.afterSymbols ds).err = s.err := rfl
@[simp] theorem State.afterSymbols_olen (s : State) (ds : List Bool) : (s.afterSymbols ds).olen = s.olen := rfl
@[simp] theorem State.afterSymbols_txt (s : State) (ds : List Bool) : (s.afterSymbols ds).txt = s.txt := rfl
@[simp] theorem State.afterSymbols_txtDraw (s : State) (ds : List Bool) : (s.afterSymbols ds).txtDraw = s.txtDraw := rfl
@[simp] theorem State.afterSymbols_res0 (s : State) (ds : List Bool) : (s.afterSymbols ds).res0 = s.res0 := rfl
@[simp] theorem State.afterSymbols_dstate (s : State) (ds : List Bool) : (s.afterSymbols ds).dstate = s.dstate := rfl

theorem State.afterSymbols_cons (s : State) (d : Bool) (ds : List Bool) :
    s.afterSymbols (d :: ds) = (s.afterSymbol (if d then 3 else 1) 1 d).afterSymbols ds := by
  simp only [State.afterSymbols, State.afterSymbol_boff, State.afterSymbol_pend, List.flatMap_cons, List.length_append,
    symbolBits_eq, List.length_replicate, List.length_cons, List.length_nil, pushAll_cons]
  rw [show s.boff + (if d = true then 3 else 1) + 1 + (ds.flatMap symbolBits).length =
    s.boff + ((if d = true then 3 else 1) + (0 + 1) + (ds.flatMap symbolBits).length) by omega]
  rfl

/-- Symbols that fit PEND, with another 1 behind them, are read one by one (R156, R158). -/
theorem State.decodeFrom_symbols {s : State} (h : s.LoopTop) (ds : List Bool) (hl : codeLen s.pend + ds.length ≤ 5)
    (hb : s.HasBits s.boff (ds.flatMap symbolBits ++ [true]))
    (hc : s.boff + (ds.flatMap symbolBits).length < s.streamBits) :
    s.decodeFrom = (s.afterSymbols ds).decodeFrom ∧ (s.afterSymbols ds).LoopTop := by
  induction ds generalizing s with
  | nil => exact ⟨rfl, h⟩
  | cons d ds ih =>
    simp only [List.length_cons] at hl
    rw [List.flatMap_cons, List.append_assoc, symbolBits_eq, List.append_assoc, State.hasBits_append,
      List.length_replicate] at hb
    obtain ⟨hb1, hb2⟩ := hb
    rw [List.singleton_append, State.hasBits_cons] at hb2
    obtain ⟨hb2, hb3⟩ := hb2
    simp only [List.flatMap_cons, symbolBits_eq, List.length_append, List.length_replicate, List.length_cons,
      List.length_nil] at hc
    have hg : 1 = runFrom s.getBit s.streamBits (s.boff + if d then 3 else 1) := by
      symm
      refine runFrom_eq _ false (by decide) (by omega) (fun k hk => ?_) (.inr ?_)
      · obtain rfl : k = 0 := by omega
        exact hb2
      · obtain ⟨cs, e⟩ := symbols_head ds []
        rw [e, State.hasBits_cons] at hb3
        rw [hb3.1]; decide
    have h5 : codeLen s.pend ≠ 5 := by omega
    have hn : (if d then 3 else 1) = runFrom s.getBit s.streamBits s.boff := by
      symm
      refine runFrom_eq _ true (by cases d <;> decide) (by omega) (State.hasBits_replicate.1 hb1) (.inr ?_)
      rw [hb2]; decide
    obtain ⟨-, ht, -⟩ := State.afterSymbol_spec (dash := d) h hn h5 hg
    have hpend : codeLen (pushSymbol s.pend d) = codeLen s.pend + 1 := codeLen_pushSymbol d h.pend_ok (by omega)
    obtain ⟨e1, e2⟩ := ih (s := s.afterSymbol (if d then 3 else 1) 1 d) ht
      (by rw [State.afterSymbol_pend, hpend]; omega)
      (State.HasBits.of_frame hb3 (frame_afterSymbol _ _ _ _))
      (by rw [(frame_afterSymbol s _ 1 d).streamBits, State.afterSymbol_boff]; omega)
    rw [State.afterSymbols_cons]
    refine ⟨?_, e2⟩
    rw [← e1, State.decodeFrom_run h d (by omega) hb1 (.inr hb2) hg h5]
    rfl

/-- The state once the symbols `ds` and `d` and the gap of length `g` behind them have been read. -/
def State.afterCode (s : State) (ds : List Bool) (d : Bool) (g : Nat) : State :=
  (s.afterSymbols ds).afterSymbol (if d then 3 else 1) g d

theorem frame_afterCode (s : State) (ds : List Bool) (d : Bool) (g : Nat) : DecodeFrame s (s.afterCode ds d g) :=
  (frame_afterSymbols s ds).trans (frame_afterSymbol _ _ _ _)

@[simp] theorem State.afterCode_err (s : State) (ds : List Bool) (d : Bool) (g : Nat) :
    (s.afterCode ds d g).err = s.err := by rw [State.afterCode, State.afterSymbol_err, State.afterSymbols_err]
@[simp] theorem State.afterCode_olen (s : State) (ds : List Bool) (d : Bool) (g : Nat) :
    (s.afterCode ds d g).olen = s.olen := by rw [State.afterCode, State.afterSymbol_olen, State.afterSymbols_olen]
@[simp] theorem State.afterCode_txt (s : State) (ds : List Bool) (d : Bool) (g : Nat) :
    (s.afterCode ds d g).txt = s.txt := by rw [State.afterCode, State.afterSymbol_txt, State.afterSymbols_txt]
@[simp] theorem State.afterCode_txtDraw (s : State) (ds : List Bool) (d : Bool) (g : Nat) :
    (s.afterCode ds d g).txtDraw = s.txtDraw := by rw [State.afterCode, State.afterSymbol_txtDraw, State.afterSymbols_txtDraw]
@[simp] theorem State.afterCode_res0 (s : State) (ds : List Bool) (d : Bool) (g : Nat) :
    (s.afterCode ds d g).res0 = s.res0 := by rw [State.afterCode, State.afterSymbol_res0, State.afterSymbols_res0]
@[simp] theorem State.afterCode_dstate (s : State) (ds : List Bool) (d : Bool) (g : Nat) :
    (s.afterCode ds d g).dstate = s.dstate := by rw [State.afterCode, State.afterSymbol_dstate, State.afterSymbols_dstate]

theorem State.afterCode_boff (s : State) (ds : List Bool) (d : Bool) (g : Nat) :
    (s.afterCode ds d g).boff = s.boff + (ds.flatMap symbolBits).length + (if d then 3 else 1) + g := rfl

theorem State.afterCode_pend (s : State) (ds : List Bool) (d : Bool) (g : Nat) :
    (s.afterCode ds d g).pend = pushAll s.pend (ds ++ [d]) := by
  simp [State.afterCode, State.afterSymbols, pushAll]

/-- At most five symbols, the last one's ones followed by a 0 or the end of the stream, then the gap `g` that stands
there: what happens is what the gap leads to (R157). -/
theorem State.decodeFrom_code {s : State} (h : s.LoopTop) (ds : List Bool) (d : Bool) {g : Nat}
    (hl : codeLen s.pend + ds.length + 1 ≤ 5)
    (hb : s.HasBits s.boff (ds.flatMap symbolBits ++ List.replicate (if d then 3 else 1) true))
    (hc : s.boff + (ds.flatMap symbolBits).length + (if d then 3 else 1) ≤ s.streamBits)
    (he : s.boff + (ds.flatMap symbolBits).length + (if d then 3 else 1) = s.streamBits ∨
      s.getBit (s.boff + (ds.flatMap symbolBits).length + if d then 3 else 1) = false)
    (hg : g = runFrom s.getBit s.streamBits (s.boff + (ds.flatMap symbolBits).length + if d then 3 else 1)) :
    s.decodeFrom = ((s.afterCode ds d g).afterGap g).finish ∧ (s.afterCode ds d g).LoopTop ∧
      0 < codeLen (s.afterCode ds d g).pend := by
  rw [State.hasBits_append] at hb
  have h1 : s.HasBits s.boff (ds.flatMap symbolBits ++ [true]) := by
    refine State.hasBits_append.2 ⟨hb.1, State.hasBits_cons.2 ⟨?_, .nil _ _⟩⟩
    have := State.hasBits_replicate.1 hb.2 0 (by cases d <;> decide)
    simpa using this
  have hd : 0 < if d then 3 else 1 := by cases d <;> decide
  obtain ⟨e, ht⟩ := State.decodeFrom_symbols h ds (by omega) h1 (by omega)
  have hf := frame_afterSymbols s ds
  have hp := (codeWordOk_pushAll ds h.pend_ok (by omega)).2
  have h5 : codeLen (s.afterSymbols ds).pend ≠ 5 := by
    rw [show (s.afterSymbols ds).pend = pushAll s.pend ds from rfl, hp]; omega
  have hbit : (s.afterSymbols ds).getBit = s.getBit := funext hf.getBit
  have hb2 := State.HasBits.of_frame hb.2 hf
  have hcut := runFrom_eq s.getBit true hd hc (State.hasBits_replicate.1 hb.2) (he.imp_right fun h => by rw [h]; decide)
  rw [e, State.decodeFrom_run ht d (g := g) (by rw [hf.streamBits]; exact hc) hb2
    (by rw [hf.streamBits, hbit]; exact he) (by rw [hf.streamBits, hbit]; exact hg) h5]
  refine ⟨rfl, ?_⟩
  have := State.afterSymbol_spec (s := s.afterSymbols ds) (dash := d) (n := if d then 3 else 1) (g := g) ht
    (by rw [hf.streamBits, hbit]; exact hcut.symm) h5 (by rw [hf.streamBits, hbit]; exact hg)
  exact this.2

end Sys2Proof.Machine
end

