-- ==== Sys2Proof/Laws/StreamText.lean ====
section
/-! SUPPORT. How DECODE reads the stream of a text: a code of the table with the gap after it, and then the whole text
(43_encoder.md rules R134 to R138, 44_decoder.md rules R157 to R164). -/

namespace Sys2Proof.Machine

/-! ### The stream of a text -/

theorem codeBits_length_le {w : Byte} (h : codeLen w ≤ 5) : (codeBits w).length ≤ 22 := by
  have key : ∀ l : List Bool, (l.flatMap symbolBits).length ≤ 4 * l.length := by
    intro l
    induction l with
    | nil => simp
    | cons d l ih =>
      have : (symbolBits d).length ≤ 4 := by cases d <;> decide
      simp only [List.flatMap_cons, List.length_append, List.length_cons]; omega
  have := key (codeSymbols w)
  rw [codeSymbols_length] at this
  simp only [codeBits, List.length_append, List.length_cons, List.length_nil]; omega

/-- No text needs more than 22 bits a character (20_memory.md rule R60). -/
theorem textBits_length_le (b : Bool) (l : List Byte) : (textBits b l).length ≤ 22 * l.length := by
  induction l generalizing b with
  | nil => simp [textBits]
  | cons c l ih =>
    have h1 := ih true
    have h2 := ih false
    simp only [textBits, List.length_cons]
    by_cases hn : isNul c = true
    · simp [hn]
    · by_cases ha : alnum c = true
      · obtain ⟨w, hw, hok, -, -⟩ := alnum_lookup c ha
        have := codeBits_length_le ((codeWordOk_iff w).1 hok).1
        rw [if_neg hn, if_pos ha, hw, List.length_append, Option.getD_some]; omega
      · rw [if_neg hn, if_neg ha, List.length_append]
        cases b <;> simp <;> omega

/-- The stream depends on a text only up to case (R146). -/
theorem textBits_upper (b : Bool) (l : List Byte) : textBits b (l.map upper) = textBits b l := by
  induction l generalizing b with
  | nil => rfl
  | cons c l ih => simp only [List.map_cons, textBits, isNul_upper, alnum_upper, upper_upper, ih]

/-- Leading separators give nothing (R133). -/
theorem textBits_seps {l : List Byte} (h : ∀ c ∈ l, isSep c = true) (r : List Byte) :
    textBits true (l ++ r) = textBits true r := by
  induction l with
  | nil => rfl
  | cons c l ih =>
    obtain ⟨h1, h2⟩ := (isSep_iff c).1 (h c List.mem_cons_self)
    simp only [List.cons_append, textBits, h1, h2, if_true, Bool.false_eq_true, if_false, List.nil_append]
    exact ih fun c hc => h c (List.mem_cons_of_mem _ hc)

/-- What follows a NUL gives nothing (R144). -/
theorem textBits_nul (b : Bool) (l r : List Byte) : textBits b (l ++ 0 :: r) = textBits b l := by
  induction l generalizing b with
  | nil => simp [textBits, show isNul 0#8 = true from rfl]
  | cons c l ih => simp only [List.cons_append, textBits, ih]

theorem normalizeFrom_true (l : List Byte) : normalizeFrom true l = normalizeFrom false (l.dropWhile isSep) := by
  induction l with
  | nil => rfl
  | cons c l ih =>
    by_cases h : isSep c = true
    · obtain ⟨h1, h2⟩ := (isSep_iff c).1 h
      rw [List.dropWhile_cons_of_pos h, ← ih]
      simp [normalizeFrom, h1, h2]
    · rw [List.dropWhile_cons_of_neg h]
      by_cases h1 : isNul c = true
      · simp [normalizeFrom, h1]
      · have h2 : alnum c = true := by
          by_contra h2
          exact h ((isSep_iff c).2 ⟨by simpa using h1, by simpa using h2⟩)
        simp [normalizeFrom, h1, h2]

/-- A code word with symbols, by its last one. -/
theorem codeSymbols_split {w : Byte} (h : 1 ≤ codeLen w) :
    ∃ ds d, codeSymbols w = ds ++ [d] ∧ ds.length + 1 = codeLen w := by
  have hl := codeSymbols_length w
  have hne : codeSymbols w ≠ [] := by
    intro h0
    rw [h0] at hl
    simp at hl; omega
  refine ⟨(codeSymbols w).dropLast, (codeSymbols w).getLast hne, (List.dropLast_append_getLast hne).symm, ?_⟩
  rw [List.length_dropLast, hl]; omega

theorem codeBits_split {w : Byte} {ds : List Bool} {d : Bool} (h : codeSymbols w = ds ++ [d]) :
    codeBits w = ds.flatMap symbolBits ++ List.replicate (if d then 3 else 1) true ++ [false, false, false] := by
  simp [codeBits, h, symbolBits_eq]

theorem codeBits_length {w : Byte} {ds : List Bool} {d : Bool} (h : codeSymbols w = ds ++ [d]) :
    (codeBits w).length = (ds.flatMap symbolBits).length + (if d then 3 else 1) + 3 := by
  rw [codeBits_split h]
  simp only [List.length_append, List.length_replicate]
  rfl

/-- Every code begins with a 1. -/
theorem codeBits_head {w : Byte} (h : 1 ≤ codeLen w) : ∃ bs, codeBits w = true :: bs := by
  obtain ⟨ds, d, e, -⟩ := codeSymbols_split h
  rw [codeBits_split e]
  cases ds with
  | nil => cases d <;> exact ⟨_, rfl⟩
  | cons d' ds =>
    obtain ⟨bs, hbs⟩ := symbolBits_head d'
    rw [List.flatMap_cons, hbs]
    exact ⟨_, rfl⟩

/-- So does every stream from where no gap is due (R142). -/
theorem stream_head (l : List Byte) : ∃ bs, textBits true l ++ codeBits eomCode = true :: bs := by
  induction l with
  | nil => exact codeBits_head (by decide)
  | cons c l ih =>
    simp only [textBits]
    by_cases hn : isNul c = true
    · rw [if_pos hn]; exact codeBits_head (by decide)
    · rw [if_neg hn]
      by_cases ha : alnum c = true
      · obtain ⟨w, hw, -, hl, -⟩ := alnum_lookup c ha
        obtain ⟨bs, hbs⟩ := codeBits_head hl
        rw [if_pos ha, hw, Option.getD_some, hbs]
        exact ⟨_, rfl⟩
      · rw [if_neg ha]; exact ih

/-! ### One code -/

/-- The state once the code `w` and the gap of length `g` behind it have been read. -/
def State.atGap (s : State) (w : Byte) (g : Nat) : State :=
  { s with boff := s.boff + ((codeBits w).length - 3) + g, pend := w }

@[simp] theorem State.atGap_err (s : State) (w : Byte) (g : Nat) : (s.atGap w g).err = s.err := rfl
@[simp] theorem State.atGap_olen (s : State) (w : Byte) (g : Nat) : (s.atGap w g).olen = s.olen := rfl
@[simp] theorem State.atGap_txt (s : State) (w : Byte) (g : Nat) : (s.atGap w g).txt = s.txt := rfl
@[simp] theorem State.atGap_txtDraw (s : State) (w : Byte) (g : Nat) : (s.atGap w g).txtDraw = s.txtDraw := rfl
@[simp] theorem State.atGap_res0 (s : State) (w : Byte) (g : Nat) : (s.atGap w g).res0 = s.res0 := rfl
@[simp] theorem State.atGap_dstate (s : State) (w : Byte) (g : Nat) : (s.atGap w g).dstate = s.dstate := rfl
@[simp] theorem State.atGap_pend (s : State) (w : Byte) (g : Nat) : (s.atGap w g).pend = w := rfl

theorem frame_atGap (s : State) (w : Byte) (g : Nat) : DecodeFrame s (s.atGap w g) := by constructor <;> rfl

/-- A whole code from where PEND is empty: PEND holds it, and what happens is what the gap behind it leads to. -/
theorem State.decodeFrom_word {s : State} (h : s.LoopTop) {w : Byte} (hw : codeWordOk w = true) (hl : 1 ≤ codeLen w)
    (hp : s.pend = 0) (hb : s.HasBits s.boff (codeBits w)) (hc : s.boff + (codeBits w).length ≤ s.streamBits) :
    ∃ g, g = runFrom s.getBit s.streamBits (s.boff + ((codeBits w).length - 3)) ∧ 3 ≤ g ∧
      s.decodeFrom = ((s.atGap w g).afterGap g).finish ∧ (s.atGap w g).LoopTop := by
  obtain ⟨ds, d, e, hlen⟩ := codeSymbols_split hl
  have h5 := ((codeWordOk_iff w).1 hw).1
  have hlen3 := codeBits_length e
  have hoff : s.boff + ((codeBits w).length - 3) =
      s.boff + (ds.flatMap symbolBits).length + (if d then 3 else 1) := by omega
  rw [codeBits_split e, State.hasBits_append] at hb
  obtain ⟨hb1, hb2⟩ := hb
  simp only [List.length_append, List.length_replicate] at hb2
  rw [← Nat.add_assoc] at hb2
  have hz : ∀ k < 3, s.getBit (s.boff + (ds.flatMap symbolBits).length + (if d then 3 else 1) + k) = false :=
    State.hasBits_replicate.1 hb2
  refine ⟨_, rfl, ?_, ?_⟩
  · rw [hoff]
    by_contra hg
    obtain ⟨h1, h2, h3, h4⟩ := runFrom_spec s.getBit (cap := s.streamBits)
      (o := s.boff + (ds.flatMap symbolBits).length + (if d then 3 else 1)) (by omega)
    rcases h4 with h4 | h4
    · omega
    · have e0 := hz 0 (by decide)
      rw [Nat.add_zero] at e0
      rw [e0, hz _ (by omega)] at h4
      exact h4 rfl
  · rw [hoff]
    have e0 := hz 0 (by decide)
    rw [Nat.add_zero] at e0
    obtain ⟨h1, h2, -⟩ := State.decodeFrom_code h ds d (by rw [hp]; simp; omega) hb1 (by omega) (.inr e0) rfl
    have ea : ∀ g, s.afterCode ds d g = s.atGap w g := by
      intro g
      have h1 : (s.afterCode ds d g).pend = w := by
        rw [State.afterCode_pend, hp, ← e]; exact pushAll_codeSymbols w hw
      have h2 : s.afterCode ds d g =
          { s with
            boff := s.boff + (ds.flatMap symbolBits).length + (if d then 3 else 1) + g
            pend := (s.afterCode ds d g).pend } := rfl
      rw [h2, h1, State.atGap, hoff]
    rw [ea] at h1 h2
    exact ⟨h1, h2⟩

/-- A letter with a gap of `3 + z` behind it, then more signal: the character, and a space from a gap of 7 on
(R159, R161). -/
theorem State.decodeFrom_letter {s : State} (h : s.LoopTop) {w c : Byte} {z : Nat} (hw : codeWordOk w = true)
    (hl : 1 ≤ codeLen w) (hk : lookupCode w = some c) (hc0 : c ≠ 0) (hp : s.pend = 0)
    (hb : s.HasBits s.boff (codeBits w ++ List.replicate z false ++ [true]))
    (hc : s.boff + (codeBits w).length + z < s.streamBits) :
    ∃ s', s.decodeFrom = s'.decodeFrom ∧ s'.LoopTop ∧ DecodeFrame s s' ∧ s'.pend = 0 ∧
      s'.boff = s.boff + (codeBits w).length + z ∧ s'.err = s.err ∧ s'.txtDraw = s.txtDraw ∧
      s'.olen = s.olen + (if z ≤ 3 then 1 else 2) ∧
      ∀ k, s'.cell k = if k = s.olen then c else if 4 ≤ z ∧ k = s.olen + 1 then spaceChar else s.cell k := by
  rw [State.hasBits_append, State.hasBits_append] at hb
  obtain ⟨⟨hb1, hb2⟩, hb3⟩ := hb
  rw [List.length_append, List.length_replicate, ← Nat.add_assoc] at hb3
  obtain ⟨ds, d, es, -⟩ := codeSymbols_split hl
  have hlen := codeBits_length es
  obtain ⟨g, hg, hg3, e, ht⟩ := State.decodeFrom_word h hw hl hp hb1 (by omega)
  have hgz : g = 3 + z := by
    rw [hg]
    have hlen3 : (codeBits w).length - 3 = (ds.flatMap symbolBits).length + (if d then 3 else 1) := by omega
    have hb0 := hb1
    rw [codeBits_split es, State.hasBits_append, List.length_append, List.length_replicate, ← hlen3] at hb0
    refine runFrom_eq _ false (by omega) (by omega) (fun k hk => ?_) (.inr ?_)
    · rcases Nat.lt_or_ge k 3 with hk3 | hk3
      · exact (State.hasBits_replicate (n := 3)).1 hb0.2 k hk3
      · have := State.hasBits_replicate.1 hb2 (k - 3) (by omega)
        rw [← this]; congr 1; omega
    · have := (State.hasBits_cons.1 hb3).1
      rw [show s.boff + ((codeBits w).length - 3) + (3 + z) = s.boff + (codeBits w).length + z by omega, this]
      decide
  have hboff : (s.atGap w g).boff = s.boff + (codeBits w).length + z := by
    rw [hgz]; simp only [State.atGap]; omega
  have hsb := (frame_atGap s w g).streamBits
  have hfr := frame_atGap s w g
  rcases State.afterGap_cases (s.atGap w g) g (show 0 < codeLen w from hl) with
      ⟨-, h2, -⟩ | ⟨_, -, h2, -⟩ | ⟨_, -, h2, -⟩ | ⟨_, -, -, h2, -⟩ | ⟨c', h2, -, -, h6, e2⟩ |
        ⟨c', h2, -, h7, -, e2⟩ | ⟨_, -, -, -, h2, -⟩
  · omega
  · rw [show (s.atGap w g).pend = w from rfl, hk] at h2; cases h2
  · rw [show (s.atGap w g).pend = w from rfl, hk] at h2; cases h2; exact absurd rfl hc0
  · omega
  · rw [show (s.atGap w g).pend = w from rfl, hk] at h2
    cases h2
    have hf := frame_takeLetter (s.atGap w g) c
    refine ⟨_, by rw [e, e2, Pass.finish_again], ht.of_frame hf rfl rfl, hfr.trans hf, rfl, hboff, ?_, ?_, ?_,
      fun k => ?_⟩
    · rw [State.setDstate_err, State.takeChar_err]; rfl
    · rw [State.setDstate_txtDraw, State.takeChar_txtDraw]; rfl
    · rw [if_pos (by omega), State.setDstate_olen, State.takeChar_olen]; rfl
    · rw [State.cell_setDstate, State.cell_takeChar, if_neg (show ¬ (4 ≤ z ∧ k = s.olen + 1) by omega)]; rfl
  · rw [show (s.atGap w g).pend = w from rfl, hk] at h2
    cases h2
    have hf := frame_takeSpace (s.atGap w g) c
    refine ⟨_, by rw [e, e2, Pass.finish_again], ht.of_frame hf rfl rfl, hfr.trans hf, rfl, hboff, ?_, ?_, ?_,
      fun k => ?_⟩
    · rw [State.setDstate_err, State.appendChar_err, State.takeChar_err]; rfl
    · rw [State.setDstate_txtDraw, State.appendChar_txtDraw, State.takeChar_txtDraw]; rfl
    · rw [if_neg (by omega), State.setDstate_olen, State.appendChar_olen, State.takeChar_olen]; rfl
    · rw [State.cell_setDstate, State.cell_appendChar, State.cell_takeChar,
        show ((s.atGap w g).takeChar c).olen = s.olen + 1 from rfl, show (s.atGap w g).olen = s.olen from rfl]
      by_cases h1 : k = s.olen + 1
      · rw [if_pos h1, if_neg (by omega), if_pos ⟨by omega, h1⟩]
      · rw [if_neg h1, if_neg (show ¬ (4 ≤ z ∧ k = s.olen + 1) by omega)]; rfl
  · rw [hsb, hboff] at h2; omega

/-- The end-of-message code ends the text, whatever follows it (R163). -/
theorem State.decodeFrom_eom {s : State} (h : s.LoopTop) (hp : s.pend = 0) (hb : s.HasBits s.boff (codeBits eomCode))
    (hc : s.boff + (codeBits eomCode).length ≤ s.streamBits) :
    ∃ u, s.decodeFrom = u.finishDecode ∧ DecodeFrame s u ∧ u.err = s.err ∧ u.olen = s.olen ∧
      ∀ k, u.cell k = s.cell k := by
  obtain ⟨g, -, hg3, e, -⟩ := State.decodeFrom_word h (by decide) (by decide) hp hb hc
  have hl : lookupCode (s.atGap eomCode g).pend = some 0 := lookupCode_eom
  rcases State.afterGap_cases (s.atGap eomCode g) g (show 0 < codeLen eomCode by decide) with
      ⟨-, h2, -⟩ | ⟨_, -, h2, -⟩ | ⟨ds, -, -, e2⟩ | ⟨c, h2, h3, -⟩ | ⟨c, h2, h3, -⟩ |
        ⟨c, h2, h3, -⟩ | ⟨c, h2, h3, -⟩
  · omega
  · rw [hl] at h2; cases h2
  · exact ⟨_, by rw [e, e2, Pass.finish_stop], (frame_atGap s _ g).trans (frame_setDstate _ ds), rfl, rfl, fun _ => rfl⟩
  all_goals rw [hl] at h2; cases h2; exact absurd rfl h3

end Sys2Proof.Machine
end

