-- ==== Sys2Proof/Laws/Commands.lean ====
section
/-! SUPPORT. When a command completes and what its next state is; and how a step serves one host transaction. -/

namespace Sys2Proof.Machine

/-- A step with a transaction pending serves the oldest one (R42). -/
theorem step_serves {s : State} {t : HostTxn} {rest : List HostTxn} (h : s.cfg.Valid) (hq : s.hostQueue = t :: rest) :
    step s = transact t { s with hostQueue := rest } := by
  simp [step, serveNext, h, hq]

/-- A CMD write runs what the word decodes to (R71). -/
theorem hostWriteReg_cmd {v : Nat} (hv : v < 256) (s : State) :
    hostWriteReg 0 v s = writeCmd (BitVec.ofNat 8 v) s := by
  simp [hostWriteReg, regOf, hv]

/-- ENCODE completes exactly when its preconditions hold (R59, R130). -/
theorem exec_encode_iff (s t : State) :
    exec .encode s = .next t ↔
      s.arg0 ≤ s.cfg.txtBytes ∧ s.clearFlags.encodeText.boff ≤ s.cfg.capBits ∧ t = s.clearFlags.encodeText := by
  simp only [exec, execEncode]
  split_ifs with h1 h2
  · simp; omega
  · simp only [Host.Outcome.next.injEq, h2, Nat.not_lt.1 h1, true_and]; exact eq_comm
  · simp [h2]

/-- DECODE completes exactly when its preconditions hold (R59, R150). -/
theorem exec_decode_iff (s t : State) :
    exec .decode s = .next t ↔
      s.arg0 ≤ s.cfg.bufUnits ∧ s.clearFlags.decodeStream.olen + 1 ≤ s.cfg.txtBytes ∧
        t = s.clearFlags.decodeStream := by
  simp only [exec, execDecode]
  split_ifs with h1 h2
  · simp; omega
  · simp only [Host.Outcome.next.injEq, h2, Nat.not_lt.1 h1, true_and]; exact eq_comm
  · simp [h2]

/-- The bit-value operand of SETB and SETRUN (R75). -/
theorem bitOperand_bit {v : Nat} (h : v = 0 ∨ v = 1) : bitOperand v = some (decide (v = 1)) := by
  rcases h with rfl | rfl <;> rfl

theorem bitOperand_reserved {v : Nat} (h : 2 ≤ v) : bitOperand v = none := by
  rw [bitOperand, if_neg (by omega), if_neg (by omega)]

/-- A mask by its bit (R100, R103). -/
theorem and_two_pow_ne_zero (a k : Nat) : a &&& 2 ^ k ≠ 0 ↔ a.testBit k = true := by
  rw [Nat.and_two_pow]; cases a.testBit k <;> simp

/-- The bound of R8: twice an in-range offset still fits `W_OFF` bits, and `W_OFF` bits hold every byte. -/
theorem two_pow_wOff {n : Nat} (h : 10 ≤ n) : 2 ^ n = 2 * 2 ^ (n - 1) ∧ 512 ≤ 2 ^ (n - 1) := by
  constructor
  · rw [show n = (n - 1) + 1 by omega, Nat.pow_succ, Nat.add_sub_cancel, Nat.mul_comm]
  · exact le_trans (show 512 ≤ 2 ^ 9 by decide) (Nat.pow_le_pow_right (by decide) (by omega))

theorem ceilDiv_le {a b : Nat} (hb : 0 < b) : ceilDiv a b ≤ a := by
  rw [ceilDiv]
  have h1 := Nat.div_lt_iff_lt_mul hb (x := a + b - 1) (y := a + 1)
  have h2 : a * 1 ≤ a * b := Nat.mul_le_mul_left a hb
  have h3 : a + b - 1 < (a + 1) * b := by rw [Nat.add_mul]; omega
  omega

theorem le_ceilDiv_mul (a : Nat) {b : Nat} (hb : 0 < b) : a ≤ ceilDiv a b * b := by
  rw [ceilDiv]
  have h1 := Nat.div_add_mod (a + b - 1) b
  have h2 := Nat.mod_lt (a + b - 1) hb
  rw [Nat.mul_comm]; omega

end Sys2Proof.Machine
end

