-- ==== Sys2Proof/Laws/DecodeLocality.lean ====
section
/-! SUPPORT. What DECODE does not read (10_state.md rule R40, 20_memory.md rules R58, R67): no bit of BUF outside the
stream, no register of the encode state machine, and not what an earlier command left in its own. -/

namespace Sys2Proof.Machine

/-- A state with other values in the fields of which DECODE reads nothing but the bits of its stream. -/
def State.overlay (s : State) (k : Nat) (c : Byte) (x : BitVec 3) (m : Memory Bool) : State :=
  { s with tidx := k, cur := c, sidx := x, buf := m }

def Pass.overlay (p : Pass) (k : Nat) (c : Byte) (x : BitVec 3) (m : Memory Bool) : Pass :=
  match p with
  | .again s => .again (s.overlay k c x m)
  | .stop s => .stop (s.overlay k c x m)

/-- The bits of the stream read the same from `m` as from BUF. -/
def State.SameStream (s : State) (m : Memory Bool) : Prop :=
  ∀ o < s.streamBits, (m.read o).getD (Config.unwrittenBit o) = s.getBit o

theorem State.sameStream_self (s : State) : s.SameStream s.buf := fun _ _ => rfl

theorem State.SameStream.of_frame {s t : State} {m : Memory Bool} (h : s.SameStream m) (hf : DecodeFrame s t) :
    t.SameStream m := by
  intro o ho
  rw [hf.streamBits] at ho
  rw [h o ho, hf.getBit]

variable {k : Nat} {c : Byte} {x : BitVec 3} {m : Memory Bool}

theorem State.resolve_overlay (s : State) : (s.overlay k c x m).resolve = s.resolve.overlay k c x m := by
  rw [State.resolve, State.resolve, show (s.overlay k c x m).pend = s.pend from rfl]
  cases lookupCode s.pend with
  | none => rfl
  | some ch => dsimp only; split_ifs <;> rfl

theorem State.wordGap_overlay (s : State) : (s.overlay k c x m).wordGap = s.wordGap.overlay k c x m := by
  rw [State.wordGap, State.wordGap, show (s.overlay k c x m).streamBits = s.streamBits from rfl,
    show (s.overlay k c x m).boff = s.boff from rfl]
  split_ifs <;> rfl

theorem Pass.andThen_overlay (p : Pass) {f : State → Pass}
    (h : ∀ s, f (s.overlay k c x m) = (f s).overlay k c x m) :
    (p.overlay k c x m).andThen f = (p.andThen f).overlay k c x m := by
  cases p with
  | again s => exact h s
  | stop s => rfl

theorem State.setDstate_overlay (s : State) (d : DState) :
    (s.overlay k c x m).setDstate d = (s.setDstate d).overlay k c x m := rfl

theorem State.boff_overlay (s : State) : (s.overlay k c x m).boff = s.boff := rfl

theorem State.pend_overlay (s : State) : (s.overlay k c x m).pend = s.pend := rfl

theorem State.push_overlay (s : State) (n : Nat) (d : Bool) :
    ((s.overlay k c x m).advance n).push d = ((s.advance n).push d).overlay k c x m := rfl

theorem State.afterGap_overlay (s : State) (g : Nat) :
    (s.overlay k c x m).afterGap g = (s.afterGap g).overlay k c x m := by
  rw [State.afterGap, State.afterGap, State.resolve_overlay, State.pend_overlay]
  simp only [State.setDstate_overlay, State.resolve_overlay, State.wordGap_overlay]
  split_ifs
  · exact Pass.andThen_overlay _ fun _ => rfl
  · rfl
  · exact Pass.andThen_overlay _ fun _ => rfl
  · exact Pass.andThen_overlay _ State.wordGap_overlay
  · rfl

theorem State.runLength_overlay {s : State} (h : s.SameStream m) (o : Nat) :
    (s.overlay k c x m).runLength (s.overlay k c x m).arg0 o = s.runLength s.arg0 o :=
  runFrom_congr h o

theorem State.readGap_overlay {s : State} (h : s.SameStream m) :
    (s.overlay k c x m).readGap = s.readGap.overlay k c x m := by
  rw [State.readGap, State.readGap, State.boff_overlay, State.runLength_overlay h]
  exact State.afterGap_overlay (s.advance _) _

theorem State.afterRun_overlay {s : State} (h : s.SameStream m) (n : Nat) :
    (s.overlay k c x m).afterRun n = (s.afterRun n).overlay k c x m := by
  rw [State.afterRun, State.afterRun]
  by_cases h0 : n = 0
  · rw [if_pos h0, if_pos h0]; rfl
  · rw [if_neg h0, if_neg h0]
    cases runSymbol n with
    | none => rfl
    | some d =>
      have h' : ((s.advance n).push d).SameStream m := h
      simp only [State.pend_overlay, State.push_overlay, State.readGap_overlay h']
      split_ifs <;> rfl

theorem State.decodePass_overlay {s : State} (h : s.SameStream m) :
    (s.overlay k c x m).decodePass = s.decodePass.overlay k c x m := by
  rw [State.decodePass, State.decodePass, State.runLength_overlay h, State.boff_overlay]
  exact State.afterRun_overlay h _

theorem State.decodeLoop_overlay {s : State} (ht : s.LoopTop) (h : s.SameStream m) (n : Nat) :
    (s.overlay k c x m).decodeLoop n = (s.decodeLoop n).overlay k c x m := by
  induction n generalizing s with
  | zero => rfl
  | succ n ih =>
    rw [State.decodeLoop, State.decodeLoop, State.decodePass_overlay h]
    cases e : s.decodePass with
    | stop t => rfl
    | again s' =>
      obtain ⟨hf, ht', -⟩ := State.decodePass_again ht e
      exact ih ht' (h.of_frame hf)

theorem State.beginDecode_overlay {s : State} (h : s.SameStream m) :
    (s.overlay k c x m).beginDecode = s.beginDecode.overlay k c x m := by
  let u : State := { s with boff := 0, olen := 0, pend := 0, dstate := .accumulatingSymbol }
  have hu : u.SameStream m := h
  have hz : (u.overlay k c x m).runLength s.arg0 0 = u.runLength s.arg0 0 := State.runLength_overlay hu 0
  have e1 : s.beginDecode = if 0 < u.runLength s.arg0 0 ∧ u.getBit 0 = false then
      { u with boff := u.runLength s.arg0 0 } else u := rfl
  have e2 : (s.overlay k c x m).beginDecode =
      if 0 < (u.overlay k c x m).runLength s.arg0 0 ∧ (u.overlay k c x m).getBit 0 = false then
        { u.overlay k c x m with boff := (u.overlay k c x m).runLength s.arg0 0 } else u.overlay k c x m := rfl
  have hc : (0 < u.runLength s.arg0 0 ∧ (u.overlay k c x m).getBit 0 = false) ↔
      (0 < u.runLength s.arg0 0 ∧ u.getBit 0 = false) := by
    refine and_congr_right fun h0 => ?_
    have hb : 0 < u.streamBits := by
      by_contra hb
      rw [u.runLength_eq, runFrom_of_le _ (by omega)] at h0
      exact absurd h0 (by decide)
    rw [show (u.overlay k c x m).getBit 0 = u.getBit 0 from hu 0 hb]
  rw [e1, e2, hz]
  by_cases h0 : 0 < u.runLength s.arg0 0 ∧ u.getBit 0 = false
  · rw [if_pos h0, if_pos (hc.2 h0)]; rfl
  · rw [if_neg h0, if_neg (mt hc.1 h0)]

/-- A whole DECODE on the same stream does the same. -/
theorem State.decodeStream_overlay {s : State} (h : s.SameStream m) :
    (s.overlay k c x m).decodeStream = s.decodeStream.overlay k c x m := by
  have hf : DecodeFrame s s.beginDecode := by
    obtain ⟨z, -, -, -, e⟩ := s.beginDecode_cases
    rw [e]; constructor <;> rfl
  rw [State.decodeStream, State.decodeStream, State.beginDecode_overlay h,
    State.decodeLoop_overlay s.beginDecode_top (h.of_frame hf)]
  rfl

/-- DECODE starts by writing BOFF, OLEN, PEND and DSTATE: what they held does not matter (R40). -/
theorem State.decodeStream_fresh (s : State) (b o : Nat) (p : Byte) :
    { s with boff := b, olen := o, pend := p }.decodeStream = s.decodeStream := rfl

end Sys2Proof.Machine
end

