-- ==== Sys2Proof/Laws/PerInstr.lean ====
section
/-! SUPPORT. Facts about every command as syntax, one lemma per command (30_encoding.md rules R70 to R76, R86). -/

namespace Sys2Proof.Laws.RoundTrip

/-- The word of a command is a legal word (R71, R74), decodes back to it, and is the word of no other command (R76); in
assembler notation the command takes one to three operands (R73, R86). -/
def Statement (i : Instr) : Prop :=
  legalWord (encode i) = true ∧ decode (encode i) = .ok i ∧ decodeTableWord 8 (encode i).toNat = some i ∧
  (∀ j, encode j = encode i → j = i) ∧ 1 ≤ Machine.operandCount i ∧ Machine.operandCount i ≤ 3

theorem encode_injective {i j : Instr} (h : encode j = encode i) : j = i := by
  cases i <;> cases j <;> first | rfl | exact absurd h (by decide)

theorem ctm : Statement .ctm := ⟨rfl, rfl, rfl, fun _ => encode_injective, by decide, by decide⟩
theorem mtc : Statement .mtc := ⟨rfl, rfl, rfl, fun _ => encode_injective, by decide, by decide⟩
theorem bmask : Statement .bmask := ⟨rfl, rfl, rfl, fun _ => encode_injective, by decide, by decide⟩
theorem byoff : Statement .byoff := ⟨rfl, rfl, rfl, fun _ => encode_injective, by decide, by decide⟩
theorem bidx : Statement .bidx := ⟨rfl, rfl, rfl, fun _ => encode_injective, by decide, by decide⟩
theorem getb : Statement .getb := ⟨rfl, rfl, rfl, fun _ => encode_injective, by decide, by decide⟩
theorem setb : Statement .setb := ⟨rfl, rfl, rfl, fun _ => encode_injective, by decide, by decide⟩
theorem setrun : Statement .setrun := ⟨rfl, rfl, rfl, fun _ => encode_injective, by decide, by decide⟩
theorem runlen : Statement .runlen := ⟨rfl, rfl, rfl, fun _ => encode_injective, by decide, by decide⟩
theorem encode : Statement .encode := ⟨rfl, rfl, rfl, fun _ => encode_injective, by decide, by decide⟩
theorem decode : Statement .decode := ⟨rfl, rfl, rfl, fun _ => encode_injective, by decide, by decide⟩

end Sys2Proof.Laws.RoundTrip
end

