-- ==== Sys2Proof/Laws/Units.lean ====
section
/-! SUPPORT. The two views of BUF (20_memory.md rules R51, R52): units are the numbers their bits spell, most
significant bit first. -/

namespace Sys2Proof.Machine

theorem bitsValue_lt (bit : Nat → Bool) (n : Nat) : bitsValue bit n < 2 ^ n := by
  induction n with
  | zero => simp [bitsValue]
  | succ n ih =>
    have := Bool.toNat_le (bit n)
    simp only [bitsValue, Nat.pow_succ]; omega

theorem bitsValue_congr {f g : Nat → Bool} {n : Nat} (h : ∀ k < n, f k = g k) : bitsValue f n = bitsValue g n := by
  induction n with
  | zero => rfl
  | succ n ih => rw [bitsValue, bitsValue, ih fun k hk => h k (by omega), h n (by omega)]

/-- Bit index `k` of a unit is its bit `[BYTE_W-1-k]` (R10, R51). -/
theorem testBit_bitsValue (bit : Nat → Bool) {n j : Nat} (hj : j < n) :
    (bitsValue bit n).testBit j = bit (n - 1 - j) := by
  induction n generalizing j with
  | zero => omega
  | succ n ih =>
    have e : bitsValue bit (n + 1) = 2 * bitsValue bit n + (bit n).toNat := rfl
    cases j with
    | zero =>
      rw [e, Nat.testBit_zero]
      rw [show n + 1 - 1 - 0 = n from rfl]
      cases bit n <;> simp [Nat.add_mod]
    | succ j =>
      rw [e, Nat.testBit_succ]
      have : (2 * bitsValue bit n + (bit n).toNat) / 2 = bitsValue bit n := by
        have := Bool.toNat_le (bit n); omega
      rw [this, ih (by omega)]
      congr 1; omega

/-- A number below `2^n` is spelled by its own bits. -/
theorem bitsValue_testBit {v n : Nat} (hv : v < 2 ^ n) : bitsValue (fun k => v.testBit (n - 1 - k)) n = v := by
  apply Nat.eq_of_testBit_eq
  intro j
  by_cases hj : j < n
  · rw [testBit_bitsValue _ hj]; congr 1; omega
  · have h2 : 2 ^ n ≤ 2 ^ j := Nat.pow_le_pow_right (by omega) (by omega)
    rw [Nat.testBit_lt_two_pow (lt_of_lt_of_le (bitsValue_lt _ n) h2), Nat.testBit_lt_two_pow (lt_of_lt_of_le hv h2)]

theorem State.unitAt_lt (s : State) (i : Nat) : s.unitAt i < 2 ^ s.cfg.byteW := bitsValue_lt _ _

/-- `bit(o) = BUF[o / BYTE_W][BYTE_W - 1 - (o mod BYTE_W)]` (R52). -/
theorem State.getBit_eq_testBit_unitAt (s : State) (o : Nat) (h : 0 < s.cfg.byteW) :
    s.getBit o = (s.unitAt (o / s.cfg.byteW)).testBit (s.cfg.byteW - 1 - o % s.cfg.byteW) := by
  have hm := Nat.mod_lt o h
  have hd := Nat.div_add_mod o s.cfg.byteW
  rw [State.unitAt, testBit_bitsValue _ (by omega)]
  congr 1
  rw [Nat.mul_comm] at hd
  omega

/-- Units are equal when their bits are. -/
theorem State.unitAt_congr {s t : State} {i : Nat} (hc : t.cfg = s.cfg)
    (h : ∀ k < s.cfg.byteW, t.getBit (i * s.cfg.byteW + k) = s.getBit (i * s.cfg.byteW + k)) :
    t.unitAt i = s.unitAt i := by
  simp only [State.unitAt, hc]
  exact bitsValue_congr h

theorem State.writeUnitBits_frame (s : State) (i v n : Nat) :
    s.writeUnitBits i v n = { s with buf := (s.writeUnitBits i v n).buf } := by
  induction n with
  | zero => rfl
  | succ n ih => rw [State.writeUnitBits, ih]; rfl

theorem State.writeUnit_frame (s : State) (i v : Nat) : s.writeUnit i v = { s with buf := (s.writeUnit i v).buf } :=
  s.writeUnitBits_frame i v _

theorem State.getBit_writeUnitBits (s : State) (i v n p : Nat) :
    (s.writeUnitBits i v n).getBit p =
      if i * s.cfg.byteW ≤ p ∧ p < i * s.cfg.byteW + n then v.testBit (s.cfg.byteW - 1 - (p - i * s.cfg.byteW))
      else s.getBit p := by
  induction n with
  | zero => rw [State.writeUnitBits, if_neg (by omega)]
  | succ n ih =>
    rw [State.writeUnitBits, State.getBit_setBit, ih]
    by_cases h : p = i * s.cfg.byteW + n
    · subst h; rw [if_pos rfl, if_pos (by omega)]; congr 2; omega
    · rw [if_neg h]; split_ifs <;> first | rfl | omega

/-- A host write of a unit gives its bits, and no other bit of BUF changes. -/
theorem State.getBit_writeUnit (s : State) (i v p : Nat) :
    (s.writeUnit i v).getBit p =
      if i * s.cfg.byteW ≤ p ∧ p < i * s.cfg.byteW + s.cfg.byteW then
        v.testBit (s.cfg.byteW - 1 - (p - i * s.cfg.byteW))
      else s.getBit p :=
  s.getBit_writeUnitBits i v _ p

/-- The host reads back the unit it wrote. -/
theorem State.unitAt_writeUnit_same (s : State) {i v : Nat} (hv : v < 2 ^ s.cfg.byteW) :
    (s.writeUnit i v).unitAt i = v := by
  have hc : (s.writeUnit i v).cfg = s.cfg := by rw [State.writeUnit_frame]
  rw [State.unitAt, hc, ← bitsValue_testBit hv]
  refine bitsValue_congr fun k hk => ?_
  rw [State.getBit_writeUnit, if_pos (by omega), bitsValue_testBit hv]
  congr 2; omega

/-- Every other unit keeps its value. -/
theorem State.unitAt_writeUnit_of_ne (s : State) {i j v : Nat} (hj : j ≠ i) :
    (s.writeUnit i v).unitAt j = s.unitAt j := by
  have hc : (s.writeUnit i v).cfg = s.cfg := by rw [State.writeUnit_frame]
  refine State.unitAt_congr hc fun k hk => ?_
  rw [State.getBit_writeUnit, if_neg]
  rcases Nat.lt_or_gt_of_ne hj with h | h
  · have := Nat.mul_le_mul_right s.cfg.byteW (Nat.succ_le_of_lt h)
    rw [Nat.succ_mul] at this; omega
  · have := Nat.mul_le_mul_right s.cfg.byteW (Nat.succ_le_of_lt h)
    rw [Nat.succ_mul] at this; omega

theorem State.writeUnitBits_wf {s : State} (i v n : Nat) (h : s.buf.wf) : (s.writeUnitBits i v n).buf.wf := by
  induction n with
  | zero => exact h
  | succ n ih => exact Memory.write_wf _ _ ih

theorem State.writeUnit_wf {s : State} (i v : Nat) (h : s.buf.wf) : (s.writeUnit i v).buf.wf :=
  State.writeUnitBits_wf i v _ h

theorem State.writeUnitBits_bound {s : State} {i v n c : Nat} (hn : i * s.cfg.byteW + n ≤ c)
    (h : ∀ p ∈ s.buf, p.1 < c) : ∀ p ∈ (s.writeUnitBits i v n).buf, p.1 < c := by
  induction n with
  | zero => exact h
  | succ n ih => exact Memory.write_bound (by omega) (ih (by omega))

/-- A unit of BUF lies inside its bits. -/
theorem State.writeUnit_bound {s : State} {i v : Nat} (hi : i < s.cfg.bufUnits) (h : ∀ p ∈ s.buf, p.1 < s.cfg.capBits) :
    ∀ p ∈ (s.writeUnit i v).buf, p.1 < s.cfg.capBits := by
  refine State.writeUnitBits_bound ?_ h
  have := Nat.mul_le_mul_right s.cfg.byteW (Nat.succ_le_of_lt hi)
  rw [Nat.succ_mul] at this
  exact this

end Sys2Proof.Machine
end

