-- ==== Sys2Proof/Tests/Slice0.lean ====
section
/-! SUPPORT. Tests of one command or one step, with the results 95_test_vectors.md gives (the vector is named at each),
and a witness for the hypotheses of every statement that has some. -/

namespace Sys2Proof.Tests

open Sys2Proof Sys2Proof.Machine

/-! ### Helpers -/

/-- An engine after reset, with `W_OFF = 32`. -/
def small (byteW bufUnits txtBytes : Nat) : State := State.resetWith ⟨byteW, 32, bufUnits, txtBytes⟩

/-- `BYTE_W = 8`, 16 units, 16 cells. -/
def base : State := small 8 16 16

/-- BUF written by the host from unit `i` on. -/
def units (s : State) (i : Nat) : List Nat → State
  | [] => s
  | v :: vs => units (s.writeUnit i v) (i + 1) vs

/-- TXT written by the host from cell `i` on. -/
def cells (s : State) (i : Nat) : List Byte → State
  | [] => s
  | c :: cs => cells (s.setCell i c) (i + 1) cs

/-- BUF from unit 0, and the stream length in ARG0. -/
def stream (s : State) (us : List Nat) : State := { units s 0 us with arg0 := us.length }

/-- TXT from cell 0, and the text length in ARG0. -/
def withText (s : State) (cs : List Byte) : State := { cells s 0 cs with arg0 := cs.length }

/-- What is seen of the next state, if there is one. -/
def see {α : Type} (o : Host.Outcome State Fault Refusal) (f : State → α) : Option α :=
  match o with
  | .next t => some (f t)
  | .fault _ => none
  | .refused _ => none

def faultOf (o : Host.Outcome State Fault Refusal) : Option Fault :=
  match o with
  | .next _ => none
  | .fault r => some r
  | .refused _ => none

def refusalOf (o : Host.Outcome State Fault Refusal) : Option Refusal :=
  match o with
  | .next _ => none
  | .fault _ => none
  | .refused r => some r

/-- The first `n` units of BUF. -/
def bufOf (n : Nat) (t : State) : List Nat := (List.range n).map t.unitAt

/-- The first `n` cells of TXT. -/
def txtOf (n : Nat) (t : State) : List Nat := (List.range n).map fun k => (t.cell k).toNat

theorem next_of {o : Host.Outcome State Fault Refusal} {p : State → Bool} (h : see o p = some true) :
    ∃ t, o = .next t ∧ p t = true := by
  cases o with
  | next t => exact ⟨t, rfl, by simpa [see] using h⟩
  | fault r => simp [see] at h
  | refused r => simp [see] at h

/-! ### Well-formedness -/

theorem test_rsvClear_refuses_0x1B : rsvClear 0x1B = false := by decide
theorem test_rsvClear_refuses_0x80 : rsvClear 0x80 = false := by decide
theorem test_opcNamed_refuses_0x00 : opcNamed 0x00 = false := by decide
theorem test_opcNamed_refuses_0x0C : opcNamed 0x0C = false := by decide
theorem test_opcNamed_refuses_0x0F : opcNamed 0x0F = false := by decide
theorem test_legalWord_refuses_0x11 : legalWord 0x11 = false := by decide
theorem test_legalWord_admits_0x0B : legalWord 0x0B = true := by decide
theorem test_codeWordOk_refuses_len_6 : codeWordOk 0xC0 = false := by decide
theorem test_codeWordOk_refuses_high_symbol : codeWordOk 0x6A = false := by decide
theorem test_codeWordOk_admits_R : codeWordOk 0x62 = true := by decide
theorem test_codeWordOk_admits_empty : codeWordOk 0x00 = true := by decide
theorem test_config_refuses_byteW_0 : ¬ Config.Valid ⟨0, 32, 16, 16⟩ := by decide
theorem test_config_refuses_wOff_9 : ¬ Config.Valid ⟨8, 9, 16, 16⟩ := by decide
theorem test_config_refuses_large_buf : ¬ Config.Valid ⟨8, 10, 64, 16⟩ := by decide
theorem test_config_refuses_large_txt : ¬ Config.Valid ⟨8, 10, 63, 512⟩ := by decide
theorem test_config_admits_the_bounds : Config.Valid ⟨8, 10, 63, 511⟩ := by decide
theorem test_asm_refuses_missing_operand : (AsmLine.command .setb [3]).wellFormed = false := by decide
theorem test_asm_refuses_extra_operand : (AsmLine.command .getb [3, 0]).wellFormed = false := by decide
theorem test_asm_admits_setrun : (AsmLine.command .setrun [6, 1, 3]).wellFormed = true := by decide

/-! ### Decoding: the word of every command, bit by bit from the table of 30_encoding.md rule R72 -/

theorem test_word_ctm : decode 0b00000001#8 = .ok .ctm := by decide
theorem test_word_mtc : decode 0b00000010#8 = .ok .mtc := by decide
theorem test_word_bmask : decode 0b00000011#8 = .ok .bmask := by decide
theorem test_word_byoff : decode 0b00000100#8 = .ok .byoff := by decide
theorem test_word_bidx : decode 0b00000101#8 = .ok .bidx := by decide
theorem test_word_getb : decode 0b00000110#8 = .ok .getb := by decide
theorem test_word_setb : decode 0b00000111#8 = .ok .setb := by decide
theorem test_word_setrun : decode 0b00001000#8 = .ok .setrun := by decide
theorem test_word_runlen : decode 0b00001001#8 = .ok .runlen := by decide
theorem test_word_encode : decode 0b00001010#8 = .ok .encode := by decide
theorem test_word_decode : decode 0b00001011#8 = .ok .decode := by decide
theorem test_word_reserved_field : decode 0b00010001#8 = .error .reservedBits := by decide
theorem test_word_opc_0 : decode 0b00000000#8 = .error .reservedOpcode := by decide
theorem test_word_opc_C : decode 0b00001100#8 = .error .reservedOpcode := by decide
theorem test_word_opc_F : decode 0b00001111#8 = .error .reservedOpcode := by decide
theorem test_tableWord_encode : decodeTableWord 8 10 = some .encode := by decide
theorem test_tableWord_illegal : decodeTableWord 8 0x1A = none := by decide

/-! ### Reset and steps -/

/-- 10_state.md rule R41: STATUS reads 0x230 after reset. -/
theorem test_reset_status : State.reset.regValue .status = 0x230 := by decide

theorem test_reset_memory_wf : State.reset.buf.wf ∧ State.reset.txt.wf := by decide

/-- Every command runs as the first one after reset. -/
theorem test_first_command_runs :
    ([1, 2, 3, 4, 5, 6, 7, 8, 9, 10, 11].all fun w => see (step (State.reset.withFetchWord 8 w)) (fun _ => true) == some true) =
      true := by decide

/-- R186: an illegal word sets ILL, and STATUS reads 0x238. -/
theorem test_illegal_word : see (step (base.withFetchWord 8 0x1B)) statusWord = some 0x238 := by decide

/-- R42: the host writes a unit and reads it back. -/
theorem test_host_reads_back :
    see (core.run 2 { base with hostQueue := [.writeBuf 1 0x9C, .readBuf 1] }) State.reply = some (some 0x9C) := by decide

/-- R86: `SETRUN 6, 1, 3` is three operand writes and one command write. -/
theorem test_asm_setrun :
    (AsmLine.command .setrun [6, 1, 3]).expand = [.writeReg 1 6, .writeReg 2 1, .writeReg 3 3, .writeReg 0 8] := by decide

/-! ### The commands -/

/-- V1. -/
theorem test_ctm_s : see (exec .ctm { base with arg0 := 0x53 }) (fun t => (t.res0, t.notFound)) = some (0x60, false) := by
  decide
/-- V6: no case folding. -/
theorem test_ctm_lower : see (exec .ctm { base with arg0 := 0x73 }) (fun t => (t.res0, t.notFound)) = some (0, true) := by
  decide
/-- V16: SYM[3] is ignored. -/
theorem test_mtc_ignores_sym3 :
    see (exec .mtc { base with arg0 := 0x6A }) (fun t => (t.res0, t.notFound)) = some (0x52, false) := by decide
/-- V13: a code that is not in the table. -/
theorem test_mtc_four_dashes :
    see (exec .mtc { base with arg0 := 0x8F }) (fun t => (t.res0, t.notFound)) = some (0, true) := by decide
/-- V20. -/
theorem test_bmask_2 : see (exec .bmask { base with arg0 := 2 }) State.res0 = some 0x20 := by decide
/-- V21: `BYTE_W = 5`. -/
theorem test_bmask_width_5 : see (exec .bmask { small 5 16 16 with arg0 := 0 }) State.res0 = some 0x10 := by decide
/-- V25. -/
theorem test_byoff_top : see (exec .byoff { base with arg0 := 0xFFFFFFFF }) State.res0 = some 0x1FFFFFFF := by decide
/-- V24: `BYTE_W = 5`. -/
theorem test_byoff_width_5 : see (exec .byoff { small 5 16 16 with arg0 := 46 }) State.res0 = some 9 := by decide
/-- V23. -/
theorem test_bidx_46 : see (exec .bidx { base with arg0 := 46 }) State.res0 = some 6 := by decide
/-- V24. -/
theorem test_bidx_width_5 : see (exec .bidx { small 5 16 16 with arg0 := 46 }) State.res0 = some 1 := by decide
/-- V26. -/
theorem test_getb_4 : see (exec .getb { units base 0 [0xA8] with arg0 := 4 }) State.res0 = some 1 := by decide
/-- V34: out of range. -/
theorem test_getb_out : faultOf (exec .getb { small 8 2 16 with arg0 := 16 }) = some .bitOutOfRange := by decide
/-- V27. -/
theorem test_setb_one :
    see (exec .setb { units base 0 [0, 0x0F] with arg0 := 8, arg1 := 1, res0 := 77 }) (fun t => (bufOf 2 t, t.res0)) =
      some ([0, 0x8F], 77) := by decide
/-- V27, second half. -/
theorem test_setb_zero :
    see (exec .setb { units base 0 [0, 0x8F] with arg0 := 15, arg1 := 0 }) (bufOf 2) = some [0, 0x8E] := by decide
/-- V30: a whole middle unit. -/
theorem test_setrun_zeros :
    see (exec .setrun { units base 0 [0xFF, 0xFF, 0xFF] with arg0 := 4, arg1 := 0, arg2 := 16 })
      (fun t => (bufOf 3 t, t.res0)) = some ([0xF0, 0x00, 0x0F], 20) := by decide
/-- V32: count 0 at any offset. -/
theorem test_setrun_empty :
    see (exec .setrun { units base 0 [0x12, 0x34] with arg0 := 0xFFFFFFFF, arg1 := 1, arg2 := 0 })
      (fun t => (bufOf 2 t, t.res0)) = some ([0x12, 0x34], 0xFFFFFFFF) := by decide
/-- V37: a run met in its middle. -/
theorem test_runlen_inside :
    see (exec .runlen { units base 0 [0xA8, 0xEE] with arg0 := 6, arg1 := 2 }) State.res0 = some 2 := by decide
/-- V39c: cut at the end of one unit, in the middle of a run. -/
theorem test_runlen_end :
    see (exec .runlen { units base 0 [0xA8, 0xEE] with arg0 := 5, arg1 := 1 }) State.res0 = some 3 := by decide
/-- V43: "a b". -/
theorem test_encode_a_b :
    see (exec .encode (withText base [0x61, 0x20, 0x62])) (fun t => (t.res0, bufOf 5 t)) =
      some (5, [0xB8, 0x0E, 0xA8, 0xBA, 0xE8]) := by decide +kernel
/-- V51: the fill bits keep what BUF held. -/
theorem test_encode_keeps_fill :
    see (exec .encode (withText (units base 0 [0xFF, 0xFF, 0xFF]) [0x45])) (fun t => (t.res0, bufOf 3 t)) =
      some (3, [0x8B, 0xAE, 0x8F]) := by decide +kernel
/-- V67: a gap of 7 is a space. -/
theorem test_decode_word_gap :
    see (exec .decode (stream base [0x80, 0x80])) (fun t => (t.res0, txtOf 4 t)) =
      some (3, [0x45, 0x20, 0x45, 0]) := by decide +kernel
/-- V99: of two errors the malformed run is the one raised. -/
theorem test_decode_error_priority :
    see (exec .decode (stream base [0xAA, 0xB0])) (fun t => (statusWord t, t.res0)) = some (0x241, 0xFFFFFFFF) := by
  decide +kernel

/-! ### Witnesses: for every statement with hypotheses, states and operands that meet them -/

theorem base_valid : base.cfg.Valid := by decide

theorem witness_EncodedCommandDecodesBack : Instr.runlen.wellFormed = true := rfl

theorem witness_CommandWriteRunsTheDecodedCommand :
    { base with hostQueue := [issue 0x0B] }.cfg.Valid ∧
      { base with hostQueue := [issue 0x0B] }.hostQueue = .writeReg 0 0x0B :: [] ∧ 0x0B < 256 ∧
      decode (BitVec.ofNat 8 0x0B) = .ok .decode := by decide

theorem witness_FetchWordRunsNext : State.reset.cfg.Valid := by decide

theorem witness_IllegalWordSetsIllOnly_low :
    base.cfg.Valid ∧ { base with hostQueue := [issue 0] }.hostQueue = .writeReg 0 0 :: [] ∧ 0 < 256 ∧ ¬ (1 ≤ 0 ∧ 0 ≤ 0xB) := by decide
theorem witness_IllegalWordSetsIllOnly_high :
    { base with hostQueue := [issue 255] }.hostQueue = .writeReg 0 255 :: [] ∧ 255 < 256 ∧ ¬ (1 ≤ 255 ∧ 255 ≤ 0xB) := by
  decide
theorem witness_IllegalWordSetsIllOnly_first_reserved : 0x0C < 256 ∧ ¬ (1 ≤ 0x0C ∧ 0x0C ≤ 0xB) := by decide
theorem witness_IllegalWordSetsIllOnly_next :
    ∃ t, exec .ctm { base with illegal := true } = .next t ∧ (!t.illegal) = true := next_of (by decide)

theorem witness_IdleEngineWaits : base.cfg.Valid ∧ base.hostQueue = [] := by decide
theorem witness_IdleEngineWaits_reset : Config.Valid ⟨1, 10, 511, 511⟩ := by decide

theorem witness_ResetMeetsTheInvariant : Config.default.Valid := by decide

theorem witness_EveryCommandCompletesAfterReset :
    Config.Valid ⟨8, 32, 2, 1⟩ ∧ 16 ≤ Config.capBits ⟨8, 32, 2, 1⟩ := by decide

/-- A state that meets the invariant and has a command to serve. -/
theorem witness_StepKeepsTheInvariant_inv (s : State) (hs : s = base.withFetchWord 8 0x0A) : s.Inv := by
  subst hs
  exact { valid := by decide, arg0_fits := by decide, arg1_fits := by decide, arg2_fits := by decide,
          res0_fits := by decide, boff_bound := by decide, tidx_bound := by decide, olen_bound := by decide,
          pend_ok := by decide, cur_ok := by decide, sidx_bound := by decide,
          status := ⟨by decide, by decide, by decide, by decide, by decide⟩, buf_wf := by decide,
          buf_bound := by decide, txt_wf := by decide, txt_bound := by decide }
theorem witness_StepKeepsTheInvariant :
    (base.withFetchWord 8 0x0A).Inv ∧ ∃ t, step (base.withFetchWord 8 0x0A) = .next t ∧ (t.boff == 16) = true :=
  ⟨witness_StepKeepsTheInvariant_inv _ rfl, next_of (by decide +kernel)⟩

theorem witness_FlagsDescribeTheLastCommand_err :
    ∃ t, step ((stream base [0xC0]).withFetchWord 8 (0x0B : Byte).toNat) = .next t ∧ (t.err != none) = true :=
  next_of (by decide +kernel)
theorem witness_FlagsDescribeTheLastCommand_ctm :
    ∃ t, step ({ base with arg0 := 0x73 }.withFetchWord 8 (0x01 : Byte).toNat) = .next t ∧ t.notFound = true :=
  next_of (by decide)
theorem witness_FlagsDescribeTheLastCommand_mtc :
    ∃ t, step (base.withFetchWord 8 (0x02 : Byte).toNat) = .next t ∧ t.notFound = true := next_of (by decide)
theorem witness_FlagsDescribeTheLastCommand_ill :
    ∃ t, step (base.withFetchWord 8 (0xFF : Byte).toNat) = .next t ∧ t.illegal = true := next_of (by decide)

theorem witness_CommandsWriteOnlyTheirRow :
    ∃ t, exec .setrun { base with arg0 := 120, arg1 := 1, arg2 := 8 } = .next t ∧ (t.res0 == 128) = true :=
  next_of (by decide)

theorem witness_CtmAnswersTheTable_found :
    (0x00AA : BitVec 16) ∈ ctrom ∧ (entryChar 0x00AA).toNat = { base with arg0 := 0x100 }.arg0 % 256 := by decide
theorem witness_CtmAnswersTheTable_none :
    ∀ e ∈ ctrom, (entryChar e).toNat ≠ { base with arg0 := 0x5B }.arg0 % 256 := by
  have h : (ctrom.all fun e => decide ((entryChar e).toNat ≠ 0x5B)) = true := by decide
  simpa using h

theorem witness_MtcAnswersTheTable_found :
    (0x5262 : BitVec 16) ∈ ctrom ∧ codeLen (entryCode 0x5262) = codeLen { base with arg0 := 0x6A }.arg0Byte ∧
      ∀ k < codeLen (entryCode 0x5262), codeSym (entryCode 0x5262) k = codeSym { base with arg0 := 0x6A }.arg0Byte k := by
  decide
theorem witness_MtcAnswersTheTable_none :
    ∀ e ∈ ctrom, ¬ (codeLen (entryCode e) = codeLen base.arg0Byte ∧
      ∀ k < codeLen (entryCode e), codeSym (entryCode e) k = codeSym base.arg0Byte k) := by
  have h : (ctrom.all fun e => decide (codeLen (entryCode e) ≠ codeLen base.arg0Byte)) = true := by decide
  intro e he hc
  exact of_decide_eq_true (List.all_eq_true.1 h e he) hc.1

theorem witness_CtmAndMtcAreInverse : (0x4520 : BitVec 16) ∈ ctrom := by decide

theorem witness_MtcIgnoresUnusedSymbolBits_same :
    codeLen 0x62 = codeLen 0x7A ∧ codeLen 0x62 ≤ 5 ∧ ∀ k < codeLen 0x62, codeSym 0x62 k = codeSym 0x7A k := by decide
theorem witness_MtcIgnoresUnusedSymbolBits_empty : codeLen { base with arg0 := 0x1F }.arg0Byte = 0 := by decide
theorem witness_MtcIgnoresUnusedSymbolBits_six : 6 ≤ codeLen { base with arg0 := 0xC0 }.arg0Byte := by decide

theorem witness_BmaskGivesTheMask :
    { base with arg0 := 7 }.cfg.byteW ≤ { base with arg0 := 7 }.cfg.wOff ∧
      { base with arg0 := 7 }.arg0 < { base with arg0 := 7 }.cfg.byteW := by decide
theorem witness_BmaskGivesTheMask_out :
    { base with arg0 := 8 }.cfg.byteW ≤ { base with arg0 := 8 }.cfg.wOff ∧
      { base with arg0 := 8 }.cfg.byteW ≤ { base with arg0 := 8 }.arg0 := by decide
theorem witness_BmaskCompletesForEveryWidth :
    { small 40 4 4 with arg0 := 8 }.arg0 < { small 40 4 4 with arg0 := 8 }.cfg.byteW ∧ 2 ^ (40 - 1 - 8) < 2 ^ 32 := by
  decide
theorem witness_BmaskCompletesForEveryWidth_wide :
    { small 40 4 4 with arg0 := 0 }.arg0 < { small 40 4 4 with arg0 := 0 }.cfg.byteW ∧ ¬ 2 ^ (40 - 1 - 0) < 2 ^ 32 := by
  decide

theorem witness_ByoffAndBidxSplitTheOffset :
    { base with arg0 := 46 }.cfg.Valid ∧ 6 < 8 ∧ { base with arg0 := 46 }.arg0 = 5 * 8 + 6 := by decide

theorem witness_GetbReadsTheMaskedUnit : base.cfg.Valid ∧ { base with arg0 := 127 }.arg0 < base.cfg.capBits := by decide
theorem witness_GetbReadsTheMaskedUnit_out : base.cfg.Valid ∧ base.cfg.capBits ≤ { base with arg0 := 128 }.arg0 := by
  decide

theorem witness_SetbWritesOneBitOfOneUnit :
    base.cfg.Valid ∧ { base with arg0 := 127, arg1 := 1 }.arg0 < base.cfg.capBits ∧
      ({ base with arg0 := 127, arg1 := 1 }.arg1 = 0 ∨ { base with arg0 := 127, arg1 := 1 }.arg1 = 1) := by decide
theorem witness_SetbWritesOneBitOfOneUnit_out :
    base.cfg.Valid ∧ base.cfg.capBits ≤ { base with arg0 := 128 }.arg0 ∧
      ({ base with arg0 := 128 }.arg1 = 0 ∨ { base with arg0 := 128 }.arg1 = 1) := by decide
theorem witness_SetbWritesOneBitOfOneUnit_reserved : base.cfg.Valid ∧ 2 ≤ { base with arg1 := 2 }.arg1 := by decide

theorem witness_SetrunWritesTheRun :
    { base with arg0 := 120, arg1 := 1, arg2 := 8 }.arg0 + { base with arg0 := 120, arg1 := 1, arg2 := 8 }.arg2 ≤
      base.cfg.capBits ∧ { base with arg0 := 120, arg1 := 1, arg2 := 8 }.arg1 = 1 := by decide
theorem witness_SetrunWritesTheRun_empty :
    { base with arg0 := 4000, arg2 := 0 }.arg2 = 0 ∧ { base with arg0 := 4000, arg2 := 0 }.arg1 = 0 := by decide
theorem witness_SetrunWritesTheRun_out :
    0 < { base with arg0 := 121, arg2 := 8 }.arg2 ∧
      base.cfg.capBits < { base with arg0 := 121, arg2 := 8 }.arg0 + { base with arg0 := 121, arg2 := 8 }.arg2 ∧
      { base with arg0 := 121, arg2 := 8 }.arg1 = 0 := by decide
theorem witness_SetrunWritesTheRun_reserved : 2 ≤ { base with arg1 := 2 }.arg1 := by decide

theorem witness_SetrunChains : { base with arg0 := 100 }.arg0 + 3 + 25 ≤ base.cfg.capBits := by decide

theorem witness_FailedPreconditionsAreFaults :
    base.cfg.bufUnits < { base with arg1 := 17 }.arg1 ∧ base.cfg.txtBytes < { base with arg0 := 17 }.arg0 ∧
      base.cfg.bufUnits < { base with arg0 := 17 }.arg0 := by decide
/-- "E" needs 20 bits, and a BUF of two units has 16. -/
theorem witness_FailedPreconditionsAreFaults_encode :
    (withText (small 8 2 4) [0x45]).arg0 ≤ 4 ∧
      (withText (small 8 2 4) [0x45]).cfg.capBits < (encodedBits (withText (small 8 2 4) [0x45]).text).length := by
  decide +kernel
theorem witness_FailedPreconditionsAreFaults_decode : { base with arg0 := 16 }.arg0 ≤ base.cfg.bufUnits := by decide

theorem witness_RunlenMeasuresTheRun :
    { base with arg0 := 15, arg1 := 2 }.arg1 ≤ base.cfg.bufUnits ∧
      { base with arg0 := 15, arg1 := 2 }.arg0 < { base with arg0 := 15, arg1 := 2 }.arg1 * base.cfg.byteW := by decide
theorem witness_RunlenMeasuresTheRun_bound :
    { base with arg0 := 16, arg1 := 2 }.arg1 * base.cfg.byteW ≤ { base with arg0 := 16, arg1 := 2 }.arg0 := by decide

theorem witness_EncodeWritesTheStreamOfItsText :
    (withText base [0x61, 0x20, 0x62]).arg0 ≤ base.cfg.txtBytes ∧
      (encodedBits (withText base [0x61, 0x20, 0x62]).text).length ≤ base.cfg.capBits := by decide +kernel

theorem witness_EncodeFitsTheWorstCase :
    (withText base [0x30, 0x30, 0x30, 0x30, 0x30]).arg0 ≤ base.cfg.txtBytes ∧
      22 * (withText base [0x30, 0x30, 0x30, 0x30, 0x30]).arg0 + 16 ≤ base.cfg.capBits := by decide

theorem witness_EncodeFoldsCase :
    (∀ k < 2, upper ((withText base [0x61, 0x42]).cell k) = upper ((withText base [0x41, 0x62]).cell k)) ∧
      ∃ t, exec .encode (withText base [0x41, 0x62]) = .next t ∧ (t.res0 == 5) = true :=
  ⟨by decide, next_of (by decide +kernel)⟩

theorem witness_EncodeOfNoLettersIsTheMarker :
    2 ≤ (withText base [0x20, 0x2E]).arg0 ∧ (∀ k < 2, isSep ((withText base [0x20, 0x2E]).cell k) = true) ∧
      2 = (withText base [0x20, 0x2E]).arg0 ∧ 16 ≤ base.cfg.capBits := by decide
theorem witness_EncodeOfNoLettersIsTheMarker_nul :
    1 ≤ (withText base [0x20, 0, 0x41]).arg0 ∧ (∀ k < 1, isSep ((withText base [0x20, 0, 0x41]).cell k) = true) ∧
      (withText base [0x20, 0, 0x41]).cell 1 = 0 := by decide

theorem witness_EncodeStopsAtNul :
    1 < (withText base [0x41, 0, 0x42]).arg0 ∧ (withText base [0x41, 0, 0x42]).arg0 ≤ base.cfg.txtBytes ∧
      (withText base [0x41, 0, 0x42]).cell 1 = 0 ∧
      ∃ t, exec .encode (withText base [0x41, 0, 0x42]) = .next t ∧ (t.boff == 24) = true :=
  ⟨by decide, by decide, by decide, next_of (by decide +kernel)⟩

theorem witness_EncodedRunsHaveTheModelLengths :
    ∃ t, exec .encode (withText base [0x61, 0x20, 0x62]) = .next t ∧ (t.boff == 40) = true :=
  next_of (by decide +kernel)

theorem witness_DecodeAlwaysEnds :
    (stream (small 8 2 5) [0xAA, 0xA0]).arg0 ≤ (small 8 2 5).cfg.bufUnits ∧
      ceilDiv ((stream (small 8 2 5) [0xAA, 0xA0]).arg0 * (small 8 2 5).cfg.byteW) 4 + 1 ≤ (small 8 2 5).cfg.txtBytes := by
  decide

theorem witness_DecodeSuccessLeavesCountAndNul :
    ∃ t, exec .decode (stream base [0x80, 0xBA, 0xE8]) = .next t ∧ (t.err == none && t.res0 == 2) = true :=
  next_of (by decide +kernel)
/-- V67: two letters with a space between them. -/
theorem witness_DecodedTextIsClean :
    ∃ t, exec .decode (stream base [0x80, 0x80]) = .next t ∧
      (t.err == none && t.res0 == 3 && t.cell 1 == spaceChar) = true :=
  next_of (by decide +kernel)
theorem witness_DecodeErrorEntry :
    ∃ t, exec .decode (stream base [0xEE, 0xEE, 0x00]) = .next t ∧ (t.err == some .unresolvableCode) = true :=
  next_of (by decide +kernel)
theorem witness_DecodeResultAgreesWithErr :
    base.cfg.Valid ∧ ∃ t, exec .decode (stream base [0x8C]) = .next t ∧ (t.res0 == 2 ^ 32 - 1) = true :=
  ⟨by decide, next_of (by decide +kernel)⟩

theorem witness_DecodeReadsOnlyItsUnits :
    (∀ o < 8, (stream base [0x80]).getBit o =
      ({ stream base [0x80] with buf := (stream base [0x80, 0xFF]).buf } : State).getBit o) ∧
      ∃ t, exec .decode (stream base [0x80]) = .next t ∧ (t.res0 == 1) = true :=
  ⟨by decide, next_of (by decide +kernel)⟩

theorem witness_DecodeInvertsEncode :
    base.cfg.Valid ∧ (normalize (withText base [0x61, 0x20, 0x62]).text).length + 1 ≤ base.cfg.txtBytes ∧
      ∃ t, exec .encode (withText base [0x61, 0x20, 0x62]) = .next t ∧ decide (t.res0 ≤ 16 ∧ 16 ≤ base.cfg.bufUnits) = true :=
  ⟨by decide, by decide +kernel, next_of (by decide +kernel)⟩

/-- V90, with leading zeros. -/
theorem witness_MalformedFirstRunIsErrorOne :
    (stream base [0x30]).arg0 ≤ base.cfg.bufUnits ∧ 1 ≤ base.cfg.txtBytes ∧
      2 < (stream base [0x30]).arg0 * base.cfg.byteW ∧ (∀ p < 2, (stream base [0x30]).getBit p = false) ∧
      (stream base [0x30]).getBit 2 = true ∧ (stream base [0x30]).runLength (stream base [0x30]).arg0 2 = 2 := by decide

/-- V94: `----`. -/
theorem witness_UnresolvableFirstCodeIsErrorTwo :
    (stream base [0xEE, 0xEE, 0x00]).arg0 ≤ base.cfg.bufUnits ∧ 1 ≤ base.cfg.txtBytes ∧
      codeWordOk 0x8F = true ∧ 1 ≤ codeLen 0x8F ∧ lookupCode 0x8F = none ∧
      (codeBits 0x8F).length ≤ (stream base [0xEE, 0xEE, 0x00]).arg0 * base.cfg.byteW ∧
      ∀ k < (codeBits 0x8F).length, (stream base [0xEE, 0xEE, 0x00]).getBit (0 + k) = (codeBits 0x8F).getD k false := by
  decide +kernel

/-- V97: six dots. -/
theorem witness_SixthSymbolIsErrorThree :
    (stream base [0xAA, 0xA0]).arg0 ≤ base.cfg.bufUnits ∧ 1 ≤ base.cfg.txtBytes ∧ (List.replicate 6 false).length = 6 ∧
      ((List.replicate 6 false).flatMap symbolBits).length ≤ (stream base [0xAA, 0xA0]).arg0 * base.cfg.byteW ∧
      ∀ k < ((List.replicate 6 false).flatMap symbolBits).length,
        (stream base [0xAA, 0xA0]).getBit (0 + k) = ((List.replicate 6 false).flatMap symbolBits).getD k false := by
  decide +kernel

/-- V99: five dots, then a 1-run of 2. -/
theorem witness_MalformedRunWinsOverASixthSymbol :
    (stream base [0xAA, 0xB0]).arg0 ≤ base.cfg.bufUnits ∧ 1 ≤ base.cfg.txtBytes ∧ (List.replicate 5 false).length = 5 ∧
      ((List.replicate 5 false).flatMap symbolBits).length < (stream base [0xAA, 0xB0]).arg0 * base.cfg.byteW ∧
      (stream base [0xAA, 0xB0]).runLength (stream base [0xAA, 0xB0]).arg0 10 = 2 ∧
      ∀ k < 11, (stream base [0xAA, 0xB0]).getBit (0 + k) =
        ((List.replicate 5 false).flatMap symbolBits ++ [true]).getD k false := by decide +kernel

theorem witness_DecodeOfSilenceIsEmpty :
    (stream base [0]).arg0 ≤ base.cfg.bufUnits ∧ 1 ≤ base.cfg.txtBytes ∧
      ∀ p < (stream base [0]).arg0 * base.cfg.byteW, (stream base [0]).getBit p = false := by
  decide
theorem witness_DecodeOfSilenceIsEmpty_no_bit : (stream base []).arg0 * base.cfg.byteW = 0 := by decide

/-- V80: four dashes, a gap of 1, the end. -/
theorem witness_CodeCutAfterAGapIsDropped :
    (stream base [0xEE, 0xEE]).arg0 ≤ base.cfg.bufUnits ∧ 1 ≤ base.cfg.txtBytes ∧ (List.replicate 4 true).length ≤ 5 ∧
      (stream base [0xEE, 0xEE]).arg0 * base.cfg.byteW = ((List.replicate 4 true).flatMap symbolBits).length ∧
      ∀ k < ((List.replicate 4 true).flatMap symbolBits).length,
        (stream base [0xEE, 0xEE]).getBit (0 + k) = ((List.replicate 4 true).flatMap symbolBits).getD k false := by
  decide +kernel

/-- V69 cut: `10111` with `BYTE_W = 1`. -/
theorem witness_CodeCutInItsLastSymbolIsResolved :
    (stream (small 1 8 8) [1, 0, 1, 1, 1]).arg0 ≤ 8 ∧ 2 ≤ (small 1 8 8).cfg.txtBytes ∧ codeWordOk 0x42 = true ∧
      lookupCode 0x42 = some 0x41 ∧ (0x41 : Byte) ≠ 0 ∧
      (stream (small 1 8 8) [1, 0, 1, 1, 1]).arg0 * (small 1 8 8).cfg.byteW =
        ((codeSymbols 0x42).flatMap symbolBits).length - 1 ∧
      ∀ k < ((codeSymbols 0x42).flatMap symbolBits).dropLast.length,
        (stream (small 1 8 8) [1, 0, 1, 1, 1]).getBit (0 + k) =
          ((codeSymbols 0x42).flatMap symbolBits).dropLast.getD k false := by decide +kernel

/-- V66: a gap of 6, then silence. -/
theorem witness_GapLengthSeparatesLettersAndWords_letter :
    (stream base [0x81, 0x00]).arg0 ≤ base.cfg.bufUnits ∧ 4 ≤ base.cfg.txtBytes ∧ codeWordOk 0x20 = true ∧
      lookupCode 0x20 = some 0x45 ∧ (0x45 : Byte) ≠ 0 ∧ (stream base [0x81, 0x00]).arg0 * base.cfg.byteW = 16 ∧
      (∀ k < 11, (stream base [0x81, 0x00]).getBit (0 + k) =
        (codeBits 0x20 ++ List.replicate 3 false ++ codeBits 0x20).getD k false) ∧
      (codeBits 0x20 ++ List.replicate 3 false ++ codeBits 0x20).length = 11 ∧
      ∀ p < 16, 11 ≤ p → (stream base [0x81, 0x00]).getBit p = false := by decide +kernel
/-- V67: a gap of 7, then silence. -/
theorem witness_GapLengthSeparatesLettersAndWords_word :
    (stream base [0x80, 0x80]).arg0 ≤ base.cfg.bufUnits ∧ (stream base [0x80, 0x80]).arg0 * base.cfg.byteW = 16 ∧
      (∀ k < 12, (stream base [0x80, 0x80]).getBit (0 + k) =
      (codeBits 0x20 ++ List.replicate 4 false ++ codeBits 0x20).getD k false) ∧
      (codeBits 0x20 ++ List.replicate 4 false ++ codeBits 0x20).length = 12 ∧
      ∀ p < 16, 12 ≤ p → (stream base [0x80, 0x80]).getBit p = false := by decide +kernel

theorem witness_HostUnitsReadBack :
    { base with hostQueue := [.writeBuf 15 0xFF] }.hostQueue = .writeBuf 15 0xFF :: [] ∧
      base.cfg.Valid ∧ 15 < base.cfg.bufUnits ∧ 0xFF < 2 ^ base.cfg.byteW := by decide
theorem witness_HostCellsReadBack :
    { base with hostQueue := [.writeTxt 15 0xFF] }.hostQueue = .writeTxt 15 0xFF :: [] ∧
      base.cfg.Valid ∧ 15 < base.cfg.txtBytes ∧ 0xFF < 256 := by decide
theorem witness_HostRegistersReadBack :
    { base with hostQueue := [.writeReg 3 0xFFFFFFFF] }.hostQueue = .writeReg 3 0xFFFFFFFF :: [] ∧
      base.cfg.Valid ∧ 0xFFFFFFFF < 2 ^ base.cfg.wOff := by decide
theorem witness_HostAccessOutsideIsRefused :
    base.cfg.Valid ∧ 6 ≤ 6 ∧ base.cfg.bufUnits ≤ 16 ∧ base.cfg.txtBytes ≤ 16 ∧
      { base with hostQueue := [.readReg 6] }.hostQueue = .readReg 6 :: [] := by decide
theorem witness_AssemblerLineRunsItsCommand :
    base.cfg.Valid ∧ (AsmLine.command .setrun [6, 1, 0xFFFFFFFF]).wellFormed = true ∧
      ∀ a ∈ [6, 1, 0xFFFFFFFF], a < 2 ^ base.cfg.wOff := by decide

end Sys2Proof.Tests
end

section
/-! PROOFS. The statements of 10_state.md: what a command can leave behind, what it cannot read, and the host's port. -/

namespace Sys2Proof.Machine

/-! ### What a command can do -/

/-- The two parts of a table lookup's answer (R95, R96, R185). -/
theorem State.answerLookup_eq (s : State) (r : Option Byte) :
    s.answerLookup r = { s with res0 := (r.map BitVec.toNat).getD 0, notFound := r.isNone } := by
  cases r <;> rfl

/-- The command is a table lookup whose operand is not in the table (R95, R96). -/
def LookupFailed (i : Instr) (s : State) : Prop :=
  (i = .ctm ∧ lookupChar s.arg0Byte = none) ∨ (i = .mtc ∧ lookupCode s.arg0Byte = none)

/-- The commands whose whole effect is an answer in RES0 and the flags (the "writes" column of R43). -/
def answering : List Instr := [.ctm, .mtc, .bmask, .byoff, .bidx, .getb, .runlen]

/-- The next states a command can give, by what it writes (R43). -/
inductive CommandNext (s : State) : Instr → State → Prop where
  | answer {i : Instr} {r : Nat} {nf : Bool} (hi : i ∈ answering) (hn : nf = true → LookupFailed i s) :
      CommandNext s i { s.clearFlags with res0 := r, notFound := nf }
  | setb {m : Memory Bool} : CommandNext s .setb { s.clearFlags with buf := m }
  | setrun {m : Memory Bool} {r : Nat} : CommandNext s .setrun { s.clearFlags with buf := m, res0 := r }
  | encode : CommandNext s .encode s.clearFlags.encodeText
  | decode : CommandNext s .decode s.clearFlags.decodeStream

/-- A command with one precondition completes only where it holds. -/
theorem guarded_next {c : Prop} [Decidable c] {a t : State} {f : Fault}
    (h : (if c then .next a else .fault f : Host.Outcome State Fault Refusal) = .next t) : c ∧ a = t := by
  split_ifs at h with hc
  exact ⟨hc, Host.Outcome.next.inj h⟩

/-- A command that answers without a lookup leaves NF clear. -/
theorem CommandNext.result {s : State} {i : Instr} (r : Nat) (hi : i ∈ answering) :
    CommandNext s i { s.clearFlags with res0 := r } :=
  .answer (nf := false) hi nofun

/-- A lookup sets NF only where it finds nothing. -/
theorem CommandNext.lookup {s : State} {i : Instr} {r : Option Byte} (hi : i ∈ answering)
    (hr : r = none → LookupFailed i s) : CommandNext s i (s.clearFlags.answerLookup r) := by
  rw [State.answerLookup_eq]
  exact .answer hi fun h => hr (Option.isNone_iff_eq_none.1 h)

/-- Every command that completes leaves one of these next states. -/
theorem exec_next {s t : State} {i : Instr} (h : exec i s = .next t) : CommandNext s i t := by
  cases i with
  | ctm => cases h; exact .lookup (by decide) fun hr => .inl ⟨rfl, hr⟩
  | mtc => cases h; exact .lookup (by decide) fun hr => .inr ⟨rfl, hr⟩
  | bmask => obtain ⟨-, rfl⟩ := guarded_next h; exact .result _ (by decide)
  | byoff => cases h; exact .result _ (by decide)
  | bidx => cases h; exact .result _ (by decide)
  | getb => obtain ⟨-, rfl⟩ := guarded_next h; exact .result _ (by decide)
  | runlen => obtain ⟨-, rfl⟩ := guarded_next h; exact .result _ (by decide)
  | setb =>
    rw [exec, execSetb] at h
    cases hv : bitOperand s.arg1 with
    | none => rw [hv] at h; cases h
    | some v => rw [hv] at h; obtain ⟨-, rfl⟩ := guarded_next h; exact .setb
  | setrun =>
    rw [exec, execSetrun] at h
    cases hv : bitOperand s.arg1 with
    | none => rw [hv] at h; cases h
    | some v =>
      rw [hv] at h
      obtain ⟨-, rfl⟩ := guarded_next h
      rw [State.setRun_frame]
      exact .setrun
  | encode => obtain ⟨-, -, rfl⟩ := (exec_encode_iff s t).1 h; exact .encode
  | decode => obtain ⟨-, -, rfl⟩ := (exec_decode_iff s t).1 h; exact .decode

theorem State.decodeStream_frame (s : State) : DecodeFrame s s.decodeStream :=
  s.decodeStream_spec.elim DecodeDone.frame DecodeFailed.frame

/-- DECODE leaves an error only in DSTATE `ERROR` (R183). -/
theorem State.decodeStream_err {s : State} (hs : s.err = none) (h : s.decodeStream.err ≠ none) :
    s.decodeStream.dstate = .error := by
  rcases s.decodeStream_spec with hd | hf
  · exact absurd (hd.err.trans hs) h
  · exact hf.dstate

/-- What a command that completes says about itself in STATUS (R27). -/
theorem CommandNext.flags {s t : State} {i : Instr} (h : CommandNext s i t) :
    (t.err ≠ none → i = .decode ∧ t.dstate = .error) ∧ (t.notFound = true → LookupFailed i s) ∧ t.illegal = false ∧
      (i ≠ .decode → t.dstate = s.dstate) ∧ (i ≠ .encode → t.estate = s.estate) := by
  cases h with
  | answer hi hn => exact ⟨absurd rfl, hn, rfl, fun _ => rfl, fun _ => rfl⟩
  | setb => exact ⟨absurd rfl, nofun, rfl, fun _ => rfl, fun _ => rfl⟩
  | setrun => exact ⟨absurd rfl, nofun, rfl, fun _ => rfl, fun _ => rfl⟩
  | encode =>
    obtain ⟨k, -, e⟩ := s.clearFlags.encodeText_eq
    rw [e]
    exact ⟨absurd rfl, nofun, rfl, fun _ => rfl, absurd rfl⟩
  | decode =>
    have hf := s.clearFlags.decodeStream_frame
    refine ⟨fun he => ⟨rfl, State.decodeStream_err rfl he⟩, fun hn => ?_, hf.illegal, absurd rfl, fun _ => hf.estate⟩
    rw [hf.notFound] at hn
    cases hn

/-- A step that serves a CMD write placed by `State.withFetchWord` is that write (R42, R71). -/
theorem step_withFetchWord {s : State} (hv : s.cfg.Valid) (w : Byte) :
    step (s.withFetchWord 8 w.toNat) = writeCmd w s := by
  have hw : w.toNat < 256 := w.isLt
  have ht : tableWord 8 w.toNat = w.toNat := by rw [tableWord]; omega
  rw [step_serves (s := s.withFetchWord 8 w.toNat) hv rfl, ht]
  exact (hostWriteReg_cmd hw s).trans (by rw [BitVec.ofNat_toNat, BitVec.setWidth_eq])

/-- Settles O12: by the inversion of `exec`, and by `State.illegalCommand` for a word that is no command. -/
theorem flagsDescribeTheLastCommand : Obligations.FlagsDescribeTheLastCommand := by
  intro s t w hv h
  rw [step_withFetchWord hv, writeCmd] at h
  cases hd : decode w with
  | error r =>
    rw [hd] at h
    cases h
    exact ⟨absurd rfl, nofun, ⟨fun _ => nofun, fun _ => rfl⟩, fun _ => rfl, fun _ => rfl⟩
  | ok i =>
    rw [hd] at h
    obtain ⟨herr, hnf, hill, hdst, hest⟩ := (exec_next h).flags
    simp only [ne_eq, Except.ok.injEq]
    exact ⟨herr, hnf, by simp [hill], hdst, hest⟩

/-- Settles O13: by the inversion of `exec`; ENCODE by its equation, DECODE by its frame. -/
theorem commandsWriteOnlyTheirRow : Obligations.CommandsWriteOnlyTheirRow := by
  intro s t i h
  cases exec_next h with
  | answer hi hn =>
    exact ⟨rfl, rfl, rfl, rfl, rfl, rfl, fun _ _ _ => ⟨rfl, fun _ => rfl⟩, fun _ => ⟨rfl, rfl, fun _ => rfl⟩,
      fun hi' => absurd (hi' ▸ hi) (by decide), fun _ => ⟨rfl, rfl, rfl, rfl⟩, fun _ => ⟨rfl, rfl, rfl⟩, fun _ _ => rfl⟩
  | setb =>
    exact ⟨rfl, rfl, rfl, rfl, rfl, rfl, absurd rfl, fun _ => ⟨rfl, rfl, fun _ => rfl⟩,
      fun _ => rfl, fun _ => ⟨rfl, rfl, rfl, rfl⟩, fun _ => ⟨rfl, rfl, rfl⟩, fun _ _ => rfl⟩
  | setrun =>
    exact ⟨rfl, rfl, rfl, rfl, rfl, rfl, fun _ => absurd rfl, fun _ => ⟨rfl, rfl, fun _ => rfl⟩,
      nofun, fun _ => ⟨rfl, rfl, rfl, rfl⟩, fun _ => ⟨rfl, rfl, rfl⟩, fun _ _ => rfl⟩
  | encode =>
    obtain ⟨k, -, e⟩ := s.clearFlags.encodeText_eq
    rw [e]
    exact ⟨rfl, rfl, rfl, rfl, rfl, rfl, fun _ _ => absurd rfl, fun _ => ⟨rfl, rfl, fun _ => rfl⟩,
      nofun, absurd rfl, fun _ => ⟨rfl, rfl, rfl⟩, absurd rfl⟩
  | decode =>
    have hf := s.clearFlags.decodeStream_frame
    exact ⟨hf.cfg, hf.arg0, hf.arg1, hf.arg2, hf.hostQueue, hf.reply, fun _ _ _ => ⟨hf.buf, hf.getBit⟩, absurd rfl,
      nofun, fun _ => ⟨hf.estate, hf.tidx, hf.cur, hf.sidx⟩, absurd rfl, fun _ => absurd rfl⟩

/-! ### What a command cannot read -/

/-- A state with other values in the sequencing registers (R28, R29, R32, R33). -/
def State.withSequencing (s : State) (b k o : Nat) (p c : Byte) (x : BitVec 3) : State :=
  { s with boff := b, tidx := k, olen := o, pend := p, cur := c, sidx := x }

/-- The same precondition on both sides, and next states that agree. -/
theorem SameOutcome.guarded {g : Prop} [Decidable g] {a b : State} (f : Fault) (h : SameToHost a b) :
    SameOutcome (if g then .next a else .fault f) (if g then .next b else .fault f) := by
  split_ifs
  · exact h
  · rfl

/-- A first precondition, the same on both sides. -/
theorem SameOutcome.afterGuard {g : Prop} [Decidable g] {a b : Host.Outcome State Fault Refusal} (f : Fault)
    (h : SameOutcome a b) : SameOutcome (if g then .fault f else a) (if g then .fault f else b) := by
  split_ifs
  · rfl
  · exact h

section
variable (s : State) (b k o : Nat) (p c : Byte) (x : BitVec 3)

/-- The sequencing registers are not host-visible. -/
theorem State.sameToHost_withSequencing : SameToHost s (s.withSequencing b k o p c x) := by
  constructor <;> rfl

@[simp] theorem State.withSequencing_arg1 : (s.withSequencing b k o p c x).arg1 = s.arg1 := rfl

theorem State.clearFlags_withSequencing :
    (s.withSequencing b k o p c x).clearFlags = s.clearFlags.withSequencing b k o p c x := rfl

theorem State.encodeText_withSequencing :
    SameToHost s.encodeText (s.withSequencing b k o p c x).encodeText := by
  obtain ⟨i, -, e⟩ := s.encodeText_eq
  obtain ⟨j, -, e'⟩ := (s.withSequencing b k o p c x).encodeText_eq
  rw [e, e']
  constructor <;> rfl

/-- ENCODE's final offset, which its fault is decided by, is the length of the stream of its text. -/
theorem State.encodeText_boff_withSequencing :
    (s.withSequencing b k o p c x).encodeText.boff = s.encodeText.boff :=
  (State.encodeText_bits _).1.trans s.encodeText_bits.1.symm

/-- DECODE carries the registers of the encode state machine along and starts by writing its own. -/
theorem State.decodeStream_withSequencing :
    (s.withSequencing b k o p c x).decodeStream = s.decodeStream.overlay k c x s.buf :=
  ((s.overlay k c x s.buf).decodeStream_fresh b o p).trans (State.decodeStream_overlay s.sameStream_self)

theorem State.olen_overlay {m : Memory Bool} : (s.overlay k c x m).olen = s.olen := rfl

/-- `State.overlay` with the same BUF writes only registers that are not host-visible. -/
theorem State.sameToHost_overlay {m : Memory Bool} (h : s.buf = m) : SameToHost s (s.overlay k c x m) := by
  subst h
  constructor <;> rfl

end

/-- Settles O14: each command but ENCODE and DECODE carries the registers along; those two start by writing what they
read. -/
theorem sequencingRegistersDoNotCarryOver : Obligations.SequencingRegistersDoNotCarryOver := by
  intro s i b k o p c x
  change SameOutcome _ (exec i (s.withSequencing b k o p c x))
  cases i with
  | ctm =>
    simp only [exec, execCtm, State.answerLookup_eq]
    exact State.sameToHost_withSequencing _ b k o p c x
  | mtc =>
    simp only [exec, execMtc, State.answerLookup_eq]
    exact State.sameToHost_withSequencing _ b k o p c x
  | bmask => exact .guarded _ (State.sameToHost_withSequencing _ b k o p c x)
  | byoff => exact State.sameToHost_withSequencing { s.clearFlags with res0 := _ } b k o p c x
  | bidx => exact State.sameToHost_withSequencing { s.clearFlags with res0 := _ } b k o p c x
  | getb => exact .guarded _ (State.sameToHost_withSequencing _ b k o p c x)
  | runlen => exact .guarded _ (State.sameToHost_withSequencing _ b k o p c x)
  | setb =>
    simp only [exec, execSetb, State.withSequencing_arg1]
    cases bitOperand s.arg1 with
    | none => rfl
    | some v => exact .guarded _ (State.sameToHost_withSequencing _ b k o p c x)
  | setrun =>
    simp only [exec, execSetrun, State.setRun_eq, State.withSequencing_arg1]
    cases bitOperand s.arg1 with
    | none => rfl
    | some v => exact .guarded _ (State.sameToHost_withSequencing _ b k o p c x)
  | encode =>
    simp only [exec, execEncode, State.clearFlags_withSequencing, State.encodeText_boff_withSequencing]
    exact .afterGuard _ (.guarded _ (State.encodeText_withSequencing _ b k o p c x))
  | decode =>
    simp only [exec, execDecode, State.clearFlags_withSequencing, State.decodeStream_withSequencing,
      State.olen_overlay]
    exact .afterGuard _ (.guarded _ (State.sameToHost_overlay _ k c x (State.decodeStream_frame _).buf))

/-! ### The host's port -/

theorem hostWriteBuf_next {s : State} {i v : Nat} (hi : i < s.cfg.bufUnits) (hv : v < 2 ^ s.cfg.byteW) :
    hostWriteBuf i v s = .next (s.writeUnit i v) := by
  rw [hostWriteBuf, if_pos hi, if_pos hv]

theorem hostReadBuf_next {s : State} {i : Nat} (hi : i < s.cfg.bufUnits) :
    hostReadBuf i s = .next (s.answer (s.unitAt i)) := if_pos hi

theorem hostWriteTxt_next {s : State} {i v : Nat} (hi : i < s.cfg.txtBytes) (hv : v < 256) :
    hostWriteTxt i v s = .next (s.setCell i (BitVec.ofNat 8 v)) := by
  rw [hostWriteTxt, if_pos hi, if_pos hv]

theorem hostReadTxt_next {s : State} {i : Nat} (hi : i < s.cfg.txtBytes) :
    hostReadTxt i s = .next (s.answer (s.cell i).toNat) := if_pos hi

theorem regOf_eq_none {r : Nat} (h : 6 ≤ r) : regOf r = none := by
  obtain ⟨k, rfl⟩ := Nat.exists_eq_add_of_le' h
  rfl

/-- Settles O52, by the two views of BUF: a unit written is the unit read, and no other unit has its bits. -/
theorem hostUnitsReadBack : Obligations.HostUnitsReadBack := by
  intro s i v rest hv hi
  refine ⟨fun hq hlt => ?_, fun hq => (step_serves hv hq).trans (hostReadBuf_next hi)⟩
  refine ⟨_, (step_serves hv hq).trans (hostWriteBuf_next hi hlt), State.writeUnit_frame _ i v,
    State.unitAt_writeUnit_same _ hlt, fun j hj => State.unitAt_writeUnit_of_ne _ hj⟩

/-- Settles O53, by `State.cell_setCell`. -/
theorem hostCellsReadBack : Obligations.HostCellsReadBack := by
  intro s i v rest hv hi
  refine ⟨fun hq hlt => ?_, fun hq => (step_serves hv hq).trans (hostReadTxt_next hi)⟩
  refine ⟨_, (step_serves hv hq).trans (hostWriteTxt_next hi hlt), rfl, ?_, fun j hj => ?_⟩
  · rw [State.cell_setCell, if_pos rfl, BitVec.toNat_ofNat, Nat.mod_eq_of_lt hlt]
  · exact (State.cell_setCell ..).trans (if_neg hj)

/-- Settles O8: the fields of `State.resetWith`, and empty memories, which read as the free values. -/
theorem resetLeavesTheTable : Obligations.ResetLeavesTheTable :=
  ⟨rfl, fun _ => ⟨rfl, rfl, rfl, rfl, rfl, rfl, rfl, rfl, rfl, rfl, rfl, fun _ => rfl, fun _ => rfl⟩⟩

/-- Settles O54: the step serves the transaction, and the register's number selects its arm of the port. -/
theorem hostRegistersReadBack : Obligations.HostRegistersReadBack := by
  intro s v rest hv
  refine ⟨fun hlt => ⟨fun hq => ?_, fun hq => ?_, fun hq => ?_⟩, ?_⟩
  · exact (step_serves hv hq).trans (if_pos hlt)
  · exact (step_serves hv hq).trans (if_pos hlt)
  · exact (step_serves hv hq).trans (if_pos hlt)
  · exact ⟨step_serves hv, step_serves hv, step_serves hv, step_serves hv, step_serves hv, step_serves hv⟩

theorem errCode_lt (e : Option DecodeError) : errCode e < 4 := by
  rcases e with _ | _ | _ | _ <;> decide

theorem dstateCode_lt (d : DState) : dstateCode d < 5 := by cases d <;> decide

theorem estateCode_lt (e : EState) : estateCode e < 5 := by cases e <;> decide

/-- Each field of STATUS fits its place (R26), so it is read back by a division and a remainder. -/
theorem statusWord_fields (s : State) :
    statusWord s % 4 = errCode s.err ∧ statusWord s / 4 % 2 = s.notFound.toNat ∧
      statusWord s / 8 % 2 = s.illegal.toNat ∧ statusWord s / 16 % 8 = dstateCode s.dstate ∧
      statusWord s / 128 % 8 = estateCode s.estate ∧ statusWord s < 2 ^ 10 := by
  have h1 := errCode_lt s.err
  have h2 := Bool.toNat_le s.notFound
  have h3 := Bool.toNat_le s.illegal
  have h4 := dstateCode_lt s.dstate
  have h5 := estateCode_lt s.estate
  rw [statusWord]
  omega

/-- A bit of a number by its field of width one. -/
theorem testBit_eq_of_field {n k : Nat} {b : Bool} (h : n / 2 ^ k % 2 = b.toNat) : n.testBit k = b := by
  rw [Nat.testBit_eq_decide_div_mod_eq, h]
  cases b <;> rfl

/-- Settles O55: the fields of the word, each with its numbers. -/
theorem statusHoldsItsFields : Obligations.StatusHoldsItsFields := by
  intro s
  obtain ⟨herr, hnf, hill, hd, he, hlt⟩ := statusWord_fields s
  refine ⟨herr.trans ?_, ⟨testBit_eq_of_field hnf, testBit_eq_of_field hill⟩, hd.trans ?_, he.trans ?_, hlt⟩
  · rcases s.err with _ | _ | _ | _ <;> rfl
  · cases s.dstate <;> rfl
  · cases s.estate <;> rfl

/-- Settles O56: each port tests the number first. -/
theorem hostAccessOutsideIsRefused : Obligations.HostAccessOutsideIsRefused := by
  intro s i v rest hv
  refine ⟨fun hi hq => ?_, fun hi hq => ?_, fun hi hq => ?_⟩
  · rcases hq with hq | hq <;> rw [step_serves hv hq]
    · rw [transact, hostWriteReg, regOf_eq_none hi]
    · rw [transact, hostReadReg, regOf_eq_none hi]
  · rcases hq with hq | hq <;> rw [step_serves hv hq]
    · exact if_neg (Nat.not_lt.2 hi)
    · exact if_neg (Nat.not_lt.2 hi)
  · rcases hq with hq | hq <;> rw [step_serves hv hq]
    · exact if_neg (Nat.not_lt.2 hi)
    · exact if_neg (Nat.not_lt.2 hi)

end Sys2Proof.Machine
end

section
/-! PROOFS. The statements of 20_memory.md: the preconditions of the commands that use a whole memory, the sizes that
are always enough (section 4), and the bits a DECODE cannot see (section 7). -/

namespace Sys2Proof.Machine

/-! ### The one test left when the length operand is in range -/

/-- With a text length in range, ENCODE completes or faults by the length of its stream (R59, R130). -/
theorem exec_encode_of_arg0_le {s : State} (h : s.arg0 ≤ s.cfg.txtBytes) :
    exec .encode s =
      if (encodedBits s.text).length ≤ s.cfg.capBits then .next s.clearFlags.encodeText else .fault .bitOutOfRange := by
  have hoff : s.clearFlags.encodeText.boff = (encodedBits s.text).length := s.clearFlags.encodeText_bits.1
  rw [← hoff]
  exact if_neg (Nat.not_lt.2 h)

/-- With a stream length in range, DECODE completes or faults by the room its text and NUL need (R59, R150). -/
theorem exec_decode_of_arg0_le {s : State} (h : s.arg0 ≤ s.cfg.bufUnits) :
    exec .decode s =
      if s.clearFlags.decodeStream.olen + 1 ≤ s.cfg.txtBytes then .next s.clearFlags.decodeStream
      else .fault .decodedTextBeyondTxt :=
  if_neg (Nat.not_lt.2 h)

/-- Settles O27: each command tests its length operand first; with the operand in range, ENCODE is decided by the length
of its stream and DECODE by OLEN at its end. -/
theorem failedPreconditionsAreFaults : Obligations.FailedPreconditionsAreFaults := by
  intro s
  refine ⟨fun h => if_neg (Nat.not_le.2 h), fun h => if_pos h, fun h => if_pos h, fun htxt hcap => ?_, fun hbuf => ?_⟩
  · rw [exec_encode_of_arg0_le htxt, if_neg (Nat.not_le.2 hcap)]
  · rw [exec_decode_of_arg0_le hbuf]
    by_cases hfit : s.clearFlags.decodeStream.olen + 1 ≤ s.cfg.txtBytes
    · exact .inl ⟨_, if_pos hfit, hfit⟩
    · exact .inr (if_neg hfit)

/-! ### Sizes that are always enough -/

@[simp] theorem State.length_text (s : State) : s.text.length = s.arg0 := by simp [State.text]

/-- The end-of-message code takes 16 bits (R138). -/
theorem codeBits_eomCode_length : (codeBits eomCode).length = 16 := by decide

/-- The worst case of R60: 22 bits a character, and the end-of-message code. -/
theorem encodedBits_length_le (l : List Byte) : (encodedBits l).length ≤ 22 * l.length + 16 := by
  rw [encodedBits, List.length_append, codeBits_eomCode_length]
  exact Nat.add_le_add_right (textBits_length_le true l) 16

/-- Settles O30, by `encodedBits_length_le`: the stream fits, so ENCODE completes, and its final offset is the stream's
length. -/
theorem encodeFitsTheWorstCase : Obligations.EncodeFitsTheWorstCase := by
  intro s htxt hcap
  have hlen : (encodedBits s.text).length ≤ 22 * s.arg0 + 16 := by simpa using encodedBits_length_le s.text
  refine ⟨_, (exec_encode_of_arg0_le htxt).trans (if_pos (hlen.trans hcap)), ?_⟩
  obtain ⟨k, -, e⟩ := s.clearFlags.encodeText_eq
  exact ⟨s.clearFlags.encodeText_bits.1.trans_le hlen, by rw [e]; rfl, by rw [e]⟩

/-- DECODE gives at most one character for every four bits of its stream (R60), however it ends. -/
theorem State.decodeStream_olen_le (s : State) : s.decodeStream.olen ≤ ceilDiv s.streamBits 4 := by
  have hcost : 4 * s.decodeStream.olen ≤ s.streamBits + 3 :=
    s.decodeStream_spec.elim DecodeDone.cost DecodeFailed.cost
  rw [ceilDiv]
  omega

/-- DECODE, begun with ERR clear, ends in success or in an error (R166). -/
theorem State.decodeStream_ends {s : State} (hs : s.err = none) :
    (s.decodeStream.dstate = .done ∧ s.decodeStream.err = none) ∨
      (s.decodeStream.dstate = .error ∧ s.decodeStream.err ≠ none) :=
  s.decodeStream_spec.imp (fun h => ⟨h.dstate, h.err.trans hs⟩) fun h => ⟨h.dstate, h.err⟩

/-- Settles O36: at most `ceil(cap / 4)` characters are appended, so they and the NUL fit, and the loop has ended in one
of its two ways. -/
theorem decodeAlwaysEnds : Obligations.DecodeAlwaysEnds := by
  intro s hbuf htxt
  have holen : s.clearFlags.decodeStream.olen ≤ ceilDiv (s.arg0 * s.cfg.byteW) 4 := s.clearFlags.decodeStream_olen_le
  have hfit : s.clearFlags.decodeStream.olen + 1 ≤ s.cfg.txtBytes := by omega
  exact ⟨_, (exec_decode_of_arg0_le hbuf).trans (if_pos hfit), holen, State.decodeStream_ends rfl⟩

/-! ### What DECODE does not see -/

/-- Another content of BUF with the same stream: DECODE gives the same, but for BUF (R58, R67). -/
theorem State.decodeStream_buf {s : State} {m : Memory Bool} (h : s.SameStream m) :
    { s with buf := m }.decodeStream = { s.decodeStream with buf := m } := by
  have hf := s.decodeStream_frame
  calc { s with buf := m }.decodeStream
    _ = s.decodeStream.overlay s.tidx s.cur s.sidx m := State.decodeStream_overlay h
    _ = { s.decodeStream with buf := m } := by rw [State.overlay, ← hf.tidx, ← hf.cur, ← hf.sidx]

/-- Settles O42: DECODE reads BUF through its stream alone, and its preconditions do not read BUF. -/
theorem decodeReadsOnlyItsUnits : Obligations.DecodeReadsOnlyItsUnits := by
  intro s t m hm h
  obtain ⟨hbuf, hfit, rfl⟩ := (exec_decode_iff s t).1 h
  have e : { s with buf := m }.clearFlags.decodeStream = { s.clearFlags.decodeStream with buf := m } :=
    State.decodeStream_buf (s := s.clearFlags) hm
  exact (exec_decode_iff _ _).2 ⟨hbuf, by rw [e]; exact hfit, e.symm⟩

end Sys2Proof.Machine
end

section
/-! PROOFS. The statements of 30_encoding.md: command words (section 1), what MTC reads of a code word (section 2), and
an assembler line that names a command (section 4). -/

namespace Sys2Proof.Machine

/-! ### Command words -/

/-- The fields of a word as numbers (R71). -/
theorem rsvField_toNat (w : Byte) : (rsvField w).toNat = w.toNat / 16 := by
  have := w.isLt
  simp only [rsvField, BitVec.extractLsb'_toNat, Nat.shiftRight_eq_div_pow]
  omega

theorem opcField_toNat (w : Byte) : (opcField w).toNat = w.toNat % 16 := by
  simp only [opcField, BitVec.extractLsb'_toNat, Nat.shiftRight_zero]

/-- The decoder's first test and the well-formedness check look at the same field (R71). -/
theorem rsvField_eq_zero_iff (w : Byte) : rsvField w = 0 ↔ rsvClear w = true := by
  rw [rsvClear, beq_iff_eq, ← rsvField_toNat, ← BitVec.toNat_inj]
  rfl

/-- The opcode map is defined at 0x1 to 0xB only (R72, R74). -/
theorem exists_opcInstr_iff (o : BitVec 4) : (∃ i, opcInstr o = some i) ↔ 1 ≤ o.toNat ∧ o.toNat ≤ 0xB := by
  rw [← Option.isSome_iff_exists]
  revert o
  decide

/-- The word of a command is its OPC below a reserved field of 0 (R72). -/
theorem encode_of_opcInstr {o : BitVec 4} {i : Instr} (h : opcInstr o = some i) : encode i = o.setWidth 8 := by
  revert o
  cases i <;> decide

/-- A word with a reserved field of 0 is its OPC. -/
theorem setWidth_opcField {w : Byte} (h : rsvField w = 0) : (opcField w).setWidth 8 = w := by
  have hw : w.toNat / 16 = 0 := by rw [← rsvField_toNat, h]; rfl
  apply BitVec.eq_of_toNat_eq
  rw [BitVec.toNat_setWidth, opcField_toNat]
  omega

/-- The facts of Sys2Proof/Laws/PerInstr.lean, for every command at once. -/
theorem roundTrip : ∀ i : Instr, Laws.RoundTrip.Statement i
  | .ctm => Laws.RoundTrip.ctm
  | .mtc => Laws.RoundTrip.mtc
  | .bmask => Laws.RoundTrip.bmask
  | .byoff => Laws.RoundTrip.byoff
  | .bidx => Laws.RoundTrip.bidx
  | .getb => Laws.RoundTrip.getb
  | .setb => Laws.RoundTrip.setb
  | .setrun => Laws.RoundTrip.setrun
  | .runlen => Laws.RoundTrip.runlen
  | .encode => Laws.RoundTrip.encode
  | .decode => Laws.RoundTrip.decode

theorem decode_encode (i : Instr) : decode (encode i) = .ok i := by
  obtain ⟨-, hdec, -⟩ := roundTrip i
  exact hdec

theorem operandCount_le (i : Instr) : operandCount i ≤ 3 := by
  obtain ⟨-, -, -, -, -, hcount⟩ := roundTrip i
  exact hcount

/-- The decoder's two tests (R71). -/
theorem decode_eq_ok_iff (w : Byte) (i : Instr) :
    decode w = .ok i ↔ rsvField w = 0 ∧ opcInstr (opcField w) = some i := by
  rw [decode]
  split_ifs with hr
  · exact ⟨nofun, fun h => absurd h.1 hr⟩
  · cases opcInstr (opcField w) <;> simp [not_not.1 hr]

theorem legalWord_iff (w : Byte) : legalWord w = true ↔ 1 ≤ w.toNat ∧ w.toNat ≤ 0xB := by
  simp only [legalWord, rsvClear, opcNamed, Bool.and_eq_true, beq_iff_eq, decide_eq_true_eq]
  omega

/-- Settles O2: a word that decodes is its OPC, which the opcode map sends to one command. -/
theorem decoderAcceptsExactlyTheElevenWords : Obligations.DecoderAcceptsExactlyTheElevenWords := by
  refine ⟨fun w i => ⟨fun h => ?_, fun h => h ▸ decode_encode i⟩, fun w => ?_, legalWord_iff⟩
  · obtain ⟨hr, ho⟩ := (decode_eq_ok_iff w i).1 h
    rw [encode_of_opcInstr ho, setWidth_opcField hr]
  · simp only [decode_eq_ok_iff, exists_and_left, exists_opcInstr_iff, rsvField_eq_zero_iff, opcField_toNat, legalWord,
      opcNamed, Bool.and_eq_true, decide_eq_true_eq]

/-! ### Code words as codes -/

/-- SYM below `n` is its symbols numbered below `n` (R80). -/
theorem codeSyms_mod_eq_iff (v w : Byte) (n : Nat) :
    codeSyms v % 2 ^ n = codeSyms w % 2 ^ n ↔ ∀ k < n, codeSym v k = codeSym w k := by
  constructor
  · intro h k hk
    have := congrArg (Nat.testBit · k) h
    simpa [codeSym, Nat.testBit_mod_two_pow, hk] using this
  · intro h
    apply Nat.eq_of_testBit_eq
    intro k
    rw [Nat.testBit_mod_two_pow, Nat.testBit_mod_two_pow]
    by_cases hk : k < n
    · exact congrArg _ (h k hk)
    · simp [hk]

/-- Equality of codes, symbol by symbol (R82). -/
theorem sameCode_iff (v w : Byte) :
    sameCode v w = true ↔ codeLen v = codeLen w ∧ ∀ k < codeLen v, codeSym v k = codeSym w k := by
  rw [sameCode, Bool.and_eq_true, beq_iff_eq, beq_iff_eq]
  refine and_congr_right fun hl => ?_
  rw [← hl, codeSyms_mod_eq_iff]

/-- Words that are the same code are the same code as the same words. -/
theorem sameCode_congr_left {v w : Byte} (h : sameCode v w = true) : sameCode v = sameCode w := by
  simp only [sameCode, Bool.and_eq_true, beq_iff_eq] at h
  obtain ⟨hl, hs⟩ := h
  funext u
  rw [sameCode, hs, hl, sameCode]

/-- Words that are the same code resolve to the same character (R82, R94). -/
theorem lookupCode_congr {v w : Byte} (h : sameCode v w = true) : lookupCode v = lookupCode w := by
  rw [lookupCode, sameCode_congr_left h, lookupCode]

/-- A code that resolves has one to five symbols (R91). -/
theorem codeLen_le_of_lookup {w c : Byte} (h : lookupCode w = some c) : codeLen w ≤ 5 := by
  obtain ⟨e, he, hs, -⟩ := lookupCode_some h
  rw [((sameCode_iff w _).1 hs).1]
  exact ((codeWordOk_iff _).1 (ctrom_codes_ok e he).1).1

/-- No code of the table has LEN 0, 6 or 7 (R82, R91). -/
theorem lookupCode_eq_none_of_codeLen {w : Byte} (h : codeLen w = 0 ∨ 6 ≤ codeLen w) : lookupCode w = none := by
  cases hc : lookupCode w with
  | none => rfl
  | some c =>
    have h1 := codeLen_pos_of_lookup hc
    have h5 := codeLen_le_of_lookup hc
    omega

/-- MTC's whole effect is the answer of the lookup (R96). -/
theorem exec_mtc (s : State) : exec .mtc s = .next (s.clearFlags.answerLookup (lookupCode s.arg0Byte)) := rfl

/-- An operand register that holds a byte gives that byte. -/
theorem State.arg0Byte_toNat (s : State) (w : Byte) : { s with arg0 := w.toNat }.arg0Byte = w := by
  rw [State.arg0Byte, BitVec.ofNat_toNat, BitVec.setWidth_eq]

/-- Settles O19: MTC reads its operand through the lookup alone, which compares words as codes. -/
theorem mtcIgnoresUnusedSymbolBits : Obligations.MtcIgnoresUnusedSymbolBits := by
  refine ⟨fun s v w hl _ hk => ⟨_, exec_mtc _, ?_⟩, fun s hs => ?_⟩
  · have hvw : lookupCode v = lookupCode w := lookupCode_congr ((sameCode_iff v w).2 ⟨hl, hk⟩)
    rw [exec_mtc, State.arg0Byte_toNat, State.arg0Byte_toNat, hvw, State.answerLookup_eq, State.answerLookup_eq]
    rfl
  · rw [exec_mtc, lookupCode_eq_none_of_codeLen hs]
    rfl

/-! ### An assembler line that names a command -/

/-- Register number `r` of ARG0, ARG1, ARG2 (numbers 1 to 3) takes the value `a`. -/
def State.setArg (s : State) (r a : Nat) : State :=
  match r with
  | 1 => { s with arg0 := a }
  | 2 => { s with arg1 := a }
  | 3 => { s with arg2 := a }
  | _ => s

/-- The values of a list go to the operand registers from number `r` on, in turn. -/
def State.setArgs (s : State) (r : Nat) : List Nat → State
  | [] => s
  | a :: ops => (s.setArg r a).setArgs (r + 1) ops

theorem State.setArg_cfg (s : State) (r a : Nat) : (s.setArg r a).cfg = s.cfg := by
  unfold State.setArg
  split <;> rfl

theorem State.setArgs_cfg (s : State) (r : Nat) (ops : List Nat) : (s.setArgs r ops).cfg = s.cfg := by
  induction ops generalizing s r with
  | nil => rfl
  | cons a ops ih => rw [State.setArgs, ih, State.setArg_cfg]

/-- From ARG0 on, at most three values: a register without a value keeps its own (R86). -/
theorem State.setArgs_one (s : State) {ops : List Nat} (h : ops.length ≤ 3) :
    s.setArgs 1 ops =
      { s with arg0 := ops.getD 0 s.arg0, arg1 := ops.getD 1 s.arg1, arg2 := ops.getD 2 s.arg2 } := by
  match ops, h with
  | [], _ => rfl
  | [_], _ => rfl
  | [_, _], _ => rfl
  | [_, _, _], _ => rfl

/-- A host write of an operand register is one step (R22 to R24, R42). -/
theorem step_writeArg (s : State) {r a : Nat} (rest : List HostTxn) (hv : s.cfg.Valid) (hr : 1 ≤ r ∧ r ≤ 3)
    (ha : a < 2 ^ s.cfg.wOff) :
    step { s with hostQueue := .writeReg r a :: rest } = .next { s.setArg r a with hostQueue := rest } := by
  obtain ⟨hw, -⟩ := hostRegistersReadBack { s with hostQueue := .writeReg r a :: rest } a rest hv
  obtain ⟨h0, h1, h2⟩ := hw ha
  obtain rfl | rfl | rfl : r = 1 ∨ r = 2 ∨ r = 3 := by omega
  · exact h0 rfl
  · exact h1 rfl
  · exact h2 rfl

/-- A host write of a command's word to CMD is the command (R21, R42, R71). -/
theorem step_writeCommand {s : State} {i : Instr} {rest : List HostTxn} (hv : s.cfg.Valid)
    (hq : s.hostQueue = .writeReg 0 (encode i).toNat :: rest) : step s = exec i { s with hostQueue := rest } :=
  calc step s
    _ = hostWriteReg 0 (encode i).toNat { s with hostQueue := rest } := step_serves hv hq
    _ = writeCmd (encode i) { s with hostQueue := rest } := by
      rw [hostWriteReg_cmd (encode i).isLt, BitVec.ofNat_toNat, BitVec.setWidth_eq]
    _ = exec i { s with hostQueue := rest } := by rw [writeCmd, decode_encode]

/-- A step that completes is the first of a run. -/
theorem run_succ_of_step {M : Host.Core} {s t : M.State} (n : Nat) (h : M.step s = .next t) :
    M.run (n + 1) s = M.run n t := by
  rw [Host.Core.run, h]

theorem run_one {M : Host.Core} (s : M.State) : M.run 1 s = M.step s := by
  rw [Host.Core.run]
  cases M.step s <;> rfl

/-- As many steps as operands load them (R86), by induction on the operands, from any register on. -/
theorem run_operandWrites (s : State) (r n : Nat) (ops : List Nat) (rest : List HostTxn) (hv : s.cfg.Valid)
    (hr : 1 ≤ r ∧ r + ops.length ≤ 4) (ha : ∀ a ∈ ops, a < 2 ^ s.cfg.wOff) :
    core.run (ops.length + n) { s with hostQueue := operandWrites r ops ++ rest } =
      core.run n { s.setArgs r ops with hostQueue := rest } := by
  induction ops generalizing s r with
  | nil => rw [List.length_nil, Nat.zero_add]; rfl
  | cons a ops ih =>
    rw [List.length_cons] at hr ⊢
    rw [List.forall_mem_cons] at ha
    have hstep := step_writeArg s (operandWrites (r + 1) ops ++ rest) hv ⟨hr.1, by omega⟩ ha.1
    rw [Nat.add_right_comm]
    refine (run_succ_of_step (M := core) _ hstep).trans ?_
    exact ih (s.setArg r a) (r + 1) (by rwa [State.setArg_cfg]) (by omega) (by rw [State.setArg_cfg]; exact ha.2)

/-- Settles O57: the operand writes load the registers, and the last step runs the command. -/
theorem assemblerLineRunsItsCommand : Obligations.AssemblerLineRunsItsCommand := by
  intro s i ops rest hv hwf ha
  have hlen : ops.length ≤ 3 := (beq_iff_eq.1 hwf).trans_le (operandCount_le i)
  rw [AsmLine.expand, List.append_assoc, run_operandWrites s 1 1 ops _ hv (by omega) ha, State.setArgs_one s hlen]
  exact (run_one (M := core) _).trans (step_writeCommand hv rfl)

end Sys2Proof.Machine
end

section
/-! PROOFS. The statements of 40_code_table.md: the table itself, its two lookups, and the two commands that answer
them. -/

namespace Sys2Proof.Machine

/-! ### The lookups of the table -/

/-- The operand byte of a command is ARG0[7:0]. -/
theorem State.arg0Byte_eq_iff (s : State) (c : Byte) : s.arg0Byte = c ↔ c.toNat = s.arg0 % 256 := by
  rw [eq_comm, ← BitVec.toNat_inj]
  rfl

/-- Equality of codes is symmetric (R82). -/
theorem sameCode_symm {v w : Byte} (h : sameCode v w = true) : sameCode w v = true := by
  rw [← sameCode_congr_left h, sameCode_iff]
  exact ⟨rfl, fun _ _ => rfl⟩

/-- Every word that is the same code as an entry's resolves to that entry's character (R82, R94). -/
theorem lookupCode_of_sameCode {e : BitVec 16} (he : e ∈ ctrom) {w : Byte} (h : sameCode (entryCode e) w = true) :
    lookupCode w = some (entryChar e) := by
  rw [← lookupCode_congr h]
  exact (ctrom_inverse e he).2

/-- Two entries with the same code have the same character, so distinct characters have distinct codes (R91). -/
theorem entryChar_eq_of_sameCode {a b : BitVec 16} (ha : a ∈ ctrom) (hb : b ∈ ctrom)
    (h : sameCode (entryCode a) (entryCode b) = true) : entryChar a = entryChar b :=
  Option.some.inj ((lookupCode_of_sameCode ha h).symm.trans (ctrom_inverse b hb).2)

/-- Settles O17: the length, the characters and the entry of NUL are read off the table; the codes are distinct because
the characters they resolve to are. -/
theorem codeTableIsUnambiguous : Obligations.CodeTableIsUnambiguous := by
  have hchars : (ctrom.map entryChar).Nodup := by decide
  refine ⟨rfl, hchars, ?_, by decide, ?_⟩
  · refine (List.pairwise_map.1 hchars).imp_of_mem fun ha hb hne => ?_
    exact Bool.eq_false_iff.2 fun h => hne (entryChar_eq_of_sameCode ha hb h)
  · rw [List.all_eq_true]
    intro e he
    obtain ⟨hok, hlen⟩ := ctrom_codes_ok e he
    simp [hok, hlen]

/-! ### The two commands -/

/-- CTM's whole effect is the answer of its lookup (R95). -/
theorem exec_ctm_of_lookup {s : State} {r : Option Byte} (h : lookupChar s.arg0Byte = r) :
    exec .ctm s = .next (s.clearFlags.answerLookup r) := by
  rw [← h]
  rfl

/-- MTC's whole effect is the answer of its lookup (R96). -/
theorem exec_mtc_of_lookup {s : State} {r : Option Byte} (h : lookupCode s.arg0Byte = r) :
    exec .mtc s = .next (s.clearFlags.answerLookup r) := by
  rw [← h, exec_mtc]

/-- Settles O15: the lookup finds the entry of the operand byte, and finds none where no entry has it. -/
theorem ctmAnswersTheTable : Obligations.CtmAnswersTheTable := by
  refine ⟨decode_encode .ctm, fun s e he hc => ?_, fun s hnone => ?_⟩
  · have hfound : lookupChar s.arg0Byte = some (entryCode e) := by
      rw [(s.arg0Byte_eq_iff (entryChar e)).2 hc]
      exact (ctrom_inverse e he).1
    exact exec_ctm_of_lookup hfound
  · have hnot : lookupChar s.arg0Byte = none :=
      lookupChar_none.2 fun e he hc => hnone e he ((s.arg0Byte_eq_iff _).1 hc.symm)
    exact exec_ctm_of_lookup hnot

/-- Settles O16: an entry that agrees with the operand symbol by symbol is the same code; the lookup finds what such an
entry resolves to, and none where no entry agrees. -/
theorem mtcAnswersTheTable : Obligations.MtcAnswersTheTable := by
  refine ⟨decode_encode .mtc, fun s e he hl hk => ?_, fun s hnone => ?_⟩
  · have hfound := lookupCode_of_sameCode he ((sameCode_iff _ _).2 ⟨hl, hk⟩)
    exact exec_mtc_of_lookup hfound
  · have hnot : lookupCode s.arg0Byte = none :=
      lookupCode_none.2 fun e he => Bool.eq_false_iff.2 fun h => hnone e he ((sameCode_iff _ _).1 (sameCode_symm h))
    exact exec_mtc_of_lookup hnot

/-- Settles O18: each command leaves in RES0 the other part of the entry, which the other command finds. -/
theorem ctmAndMtcAreInverse : Obligations.CtmAndMtcAreInverse := by
  intro s e he
  obtain ⟨hchar, hcode⟩ := ctrom_inverse e he
  have hctm (t : State) : exec .ctm { t with arg0 := (entryChar e).toNat } = .next _ :=
    exec_ctm_of_lookup ((congrArg lookupChar (t.arg0Byte_toNat _)).trans hchar)
  have hmtc (t : State) : exec .mtc { t with arg0 := (entryCode e).toNat } = .next _ :=
    exec_mtc_of_lookup ((congrArg lookupCode (t.arg0Byte_toNat _)).trans hcode)
  exact ⟨⟨_, _, hctm s, rfl, hmtc _, rfl, rfl⟩, ⟨_, _, hmtc s, rfl, hctm _, rfl, rfl⟩⟩

end Sys2Proof.Machine
end

section
/-! PROOFS. The statements of 41_bit_addressing.md: the split of an offset and the mask (sections 1 and 2), and the
commands of the bit-addressing unit (section 3). -/

namespace Sys2Proof.Machine

/-! ### Offsets, units and masks -/

/-- An offset is bit `k` of unit `i` for one pair only, its quotient and remainder (R112). -/
theorem unit_bit_eq_iff {w o i k : Nat} (hk : k < w) : o = i * w + k ↔ i = o / w ∧ k = o % w := by
  have h := Nat.div_mod_unique (a := o) (d := i) (c := k) (Nat.zero_lt_of_lt hk)
  rw [Nat.mul_comm, Nat.add_comm, eq_comm (a := o), eq_comm (a := i), eq_comm (a := k), h, and_iff_left hk]

/-- Where `BYTE_W` is at most `W_OFF`, every mask fits RES0 (R100, R106). -/
theorem maskResult_bitMask {c : Config} {k : Nat} (hw : c.byteW ≤ c.wOff) (hk : k < c.byteW) :
    maskResult c (bitMask c k) = 2 ^ (c.byteW - 1 - k) :=
  if_pos (Nat.pow_lt_pow_right Nat.one_lt_two (by omega))

/-- Bit `[j]` of a unit is its bit index `BYTE_W - 1 - j` in the stream (R51, R52). -/
theorem State.testBit_unitAt (s : State) (i j : Nat) :
    (s.unitAt i).testBit j = (decide (j < s.cfg.byteW) && s.getBit (i * s.cfg.byteW + (s.cfg.byteW - 1 - j))) := by
  by_cases hj : j < s.cfg.byteW
  · rw [State.unitAt, testBit_bitsValue _ hj, decide_eq_true hj, Bool.true_and]
  · have hlt : s.unitAt i < 2 ^ j :=
      lt_of_lt_of_le (s.unitAt_lt i) (Nat.pow_le_pow_right Nat.two_pos (Nat.not_lt.1 hj))
    rw [Nat.testBit_lt_two_pow hlt, decide_eq_false hj, Bool.false_and]

/-- `get_bit(o)` through the unit and the mask (R103). -/
theorem State.getBit_toNat (s : State) (o : Nat) (hw : 0 < s.cfg.byteW) :
    (s.getBit o).toNat =
      if s.unitAt (o / s.cfg.byteW) &&& 2 ^ (s.cfg.byteW - 1 - o % s.cfg.byteW) ≠ 0 then 1 else 0 := by
  simp only [and_two_pow_ne_zero, ← s.getBit_eq_testBit_unitAt o hw]
  cases s.getBit o <;> rfl

/-- The bits of a unit after `set_bit` in it (R104): the bit of the mask has the value, the others are kept. -/
theorem State.testBit_unitAt_setBit (s : State) (o j : Nat) (v : Bool) (hw : 0 < s.cfg.byteW) :
    ((s.setBit o v).unitAt (o / s.cfg.byteW)).testBit j =
      if j = s.cfg.byteW - 1 - o % s.cfg.byteW then v else (s.unitAt (o / s.cfg.byteW)).testBit j := by
  have hmod := Nat.mod_lt o hw
  rw [State.testBit_unitAt, State.testBit_unitAt, State.setBit_cfg, State.getBit_setBit]
  by_cases hj : j < s.cfg.byteW
  · have hbit : o / s.cfg.byteW * s.cfg.byteW + (s.cfg.byteW - 1 - j) = o ↔ j = s.cfg.byteW - 1 - o % s.cfg.byteW := by
      rw [eq_comm, unit_bit_eq_iff (by omega)]
      omega
    simp only [hbit, decide_eq_true hj, Bool.true_and]
  · rw [if_neg (by omega : j ≠ s.cfg.byteW - 1 - o % s.cfg.byteW), decide_eq_false hj, Bool.false_and, Bool.false_and]

/-- `set_bit(o, 1)` is an or with the mask (R104). -/
theorem State.unitAt_setBit_true (s : State) (o : Nat) (hw : 0 < s.cfg.byteW) :
    (s.setBit o true).unitAt (o / s.cfg.byteW) =
      s.unitAt (o / s.cfg.byteW) ||| 2 ^ (s.cfg.byteW - 1 - o % s.cfg.byteW) := by
  refine Nat.eq_of_testBit_eq fun j => ?_
  rw [s.testBit_unitAt_setBit o j true hw, Nat.testBit_or, Nat.testBit_two_pow]
  split_ifs with hj
  · rw [decide_eq_true hj.symm, Bool.or_true]
  · rw [decide_eq_false (Ne.symm hj), Bool.or_false]

/-- The complement of a mask has every bit of the unit but the mask's own (R104). -/
theorem testBit_maskComplement {w k : Nat} (j : Nat) (hk : k < w) :
    (2 ^ w - 1 - 2 ^ k).testBit j = (decide (j < w) && !decide (k = j)) := by
  have hmask : 2 ^ k < 2 ^ w := Nat.pow_lt_pow_right Nat.one_lt_two hk
  rw [Nat.sub_sub, Nat.add_comm 1, Nat.testBit_two_pow_sub_succ hmask, Nat.testBit_two_pow]

/-- `set_bit(o, 0)` is an and with the complement of the mask (R104). -/
theorem State.unitAt_setBit_false (s : State) (o : Nat) (hw : 0 < s.cfg.byteW) :
    (s.setBit o false).unitAt (o / s.cfg.byteW) =
      s.unitAt (o / s.cfg.byteW) &&& (2 ^ s.cfg.byteW - 1 - 2 ^ (s.cfg.byteW - 1 - o % s.cfg.byteW)) := by
  refine Nat.eq_of_testBit_eq fun j => ?_
  rw [s.testBit_unitAt_setBit o j false hw, Nat.testBit_and, testBit_maskComplement j (by omega)]
  split_ifs with hj
  · rw [decide_eq_true hj.symm, Bool.not_true, Bool.and_false, Bool.and_false]
  · rw [decide_eq_false (Ne.symm hj), Bool.not_false, Bool.and_true, State.testBit_unitAt, Bool.and_right_comm,
      Bool.and_self]

/-- `set_bit(o, v)` keeps every unit but the one that holds the bit (R104). -/
theorem State.unitAt_setBit_of_ne (s : State) {o i : Nat} (v : Bool) (hi : i ≠ o / s.cfg.byteW) :
    (s.setBit o v).unitAt i = s.unitAt i := by
  refine State.unitAt_congr rfl fun k hk => ?_
  have hne : i * s.cfg.byteW + k ≠ o := fun h => hi ((unit_bit_eq_iff hk).1 h.symm).1
  rw [State.getBit_setBit, if_neg hne]

/-! ### The bit-value operand -/

theorem bitOperand_toNat (v : Bool) : bitOperand v.toNat = some v := by cases v <;> rfl

/-- SETB with a bit value is decided by the range of its offset (R110, R59). -/
theorem exec_setb_of_bitOperand {s : State} {v : Bool} (hv : bitOperand s.arg1 = some v) :
    exec .setb s =
      if bitInRange s.cfg s.arg0 then .next (s.clearFlags.setBit s.arg0 v) else .fault .bitOutOfRange := by
  rw [exec, execSetb, hv]

/-- What SETRUN of the bit value `v` leaves where it completes (R105, R111). -/
def State.afterSetrun (s : State) (v : Bool) : State :=
  { s.clearFlags.setRun s.arg0 v s.arg2 with res0 := s.arg0 + s.arg2 }

@[simp] theorem State.afterSetrun_res0 (s : State) (v : Bool) : (s.afterSetrun v).res0 = s.arg0 + s.arg2 := rfl

/-- SETRUN writes the flags, BUF and RES0 only (R111). -/
theorem State.afterSetrun_frame (s : State) (v : Bool) :
    s.afterSetrun v =
      { s with
        err := none, notFound := false, illegal := false
        buf := (s.afterSetrun v).buf, res0 := s.arg0 + s.arg2 } := by
  rw [State.afterSetrun, State.setRun_frame]
  rfl

@[simp] theorem State.afterSetrun_cfg (s : State) (v : Bool) : (s.afterSetrun v).cfg = s.cfg := by
  rw [State.afterSetrun_frame]

/-- The bits of BUF after SETRUN (R105). -/
theorem State.getBit_afterSetrun (s : State) (v : Bool) (p : Nat) :
    (s.afterSetrun v).getBit p = if s.arg0 ≤ p ∧ p < s.arg0 + s.arg2 then v else s.getBit p :=
  s.clearFlags.getBit_setRun s.arg0 v s.arg2 p

/-- An empty run leaves BUF as it is (R105). -/
theorem State.afterSetrun_buf_of_empty {s : State} (v : Bool) (h : s.arg2 = 0) : (s.afterSetrun v).buf = s.buf := by
  rw [State.afterSetrun, h]
  rfl

/-- SETRUN with a bit value is decided by the range of its run as a whole (R111, R59). -/
theorem exec_setrun_of_bitOperand {s : State} {v : Bool} (hv : bitOperand s.arg1 = some v) :
    exec .setrun s =
      if runInRange s.cfg s.arg0 s.arg2 then .next (s.afterSetrun v) else .fault .bitOutOfRange := by
  rw [exec, execSetrun, hv]
  rfl

/-- SETRUN of the run of `n` bits at `o`, where the run fits: RES0, the bits of BUF, and the parameters kept. -/
theorem exec_setrun_run {s : State} {o n : Nat} (v : Bool) (h : o + n ≤ s.cfg.capBits) :
    ∃ t, exec .setrun { s with arg0 := o, arg1 := v.toNat, arg2 := n } = .next t ∧ t.cfg = s.cfg ∧ t.res0 = o + n ∧
      ∀ p, t.getBit p = if o ≤ p ∧ p < o + n then v else s.getBit p :=
  ⟨_, (exec_setrun_of_bitOperand (bitOperand_toNat v)).trans (if_pos (.inr h)), State.afterSetrun_cfg _ v, rfl,
    State.getBit_afterSetrun _ v⟩

/-! ### The statements -/

/-- Settles O20: the index decides, and a mask of at most `W_OFF` bits is answered as it is. -/
theorem bmaskGivesTheMask : Obligations.BmaskGivesTheMask := by
  refine ⟨decode_encode .bmask, fun s hw => ⟨fun hk => ?_, fun hk => if_neg (Nat.not_lt.2 hk)⟩⟩
  rw [← maskResult_bitMask hw hk]
  exact if_pos hk

/-- Settles O22: quotient and remainder, and the uniqueness of that pair. -/
theorem byoffAndBidxSplitTheOffset : Obligations.ByoffAndBidxSplitTheOffset := by
  refine ⟨decode_encode .byoff, decode_encode .bidx, fun s hvalid => ?_⟩
  obtain ⟨hw, -⟩ := hvalid
  have hr := Nat.mod_lt s.arg0 hw
  exact ⟨_, _, rfl, rfl, rfl, rfl, (unit_bit_eq_iff hr).2 ⟨rfl, rfl⟩, hr, fun a b hb => (unit_bit_eq_iff hb).1⟩

/-- Settles O23: the offset decides, and the bit read is the one of the unit under the mask. -/
theorem getbReadsTheMaskedUnit : Obligations.GetbReadsTheMaskedUnit := by
  refine ⟨decode_encode .getb, fun s hvalid => ⟨fun ho => ?_, fun ho => if_neg (Nat.not_lt.2 ho)⟩⟩
  obtain ⟨hw, -⟩ := hvalid
  rw [← s.getBit_toNat s.arg0 hw]
  exact if_pos ho

/-- Settles O24: the next state is one `set_bit`, whose unit is the or or the and of R104 by the value written. -/
theorem setbWritesOneBitOfOneUnit : Obligations.SetbWritesOneBitOfOneUnit := by
  refine ⟨decode_encode .setb, fun s hvalid => ⟨fun ho hbit => ?_, fun ho hbit => ?_, fun hres => ?_⟩⟩
  · obtain ⟨hw, -⟩ := hvalid
    refine ⟨_, (exec_setb_of_bitOperand (bitOperand_bit hbit)).trans (if_pos ho), rfl, ?_,
      fun i hi => s.clearFlags.unitAt_setBit_of_ne _ hi, ?_, fun p hp => ?_⟩
    · by_cases h1 : s.arg1 = 1
      · rw [if_pos h1, decide_eq_true h1]
        exact s.clearFlags.unitAt_setBit_true s.arg0 hw
      · rw [if_neg h1, decide_eq_false h1]
        exact s.clearFlags.unitAt_setBit_false s.arg0 hw
    · rw [State.getBit_setBit, if_pos rfl]
    · rw [State.getBit_setBit, if_neg hp]
      rfl
  · rw [exec_setb_of_bitOperand (bitOperand_bit hbit), if_neg (Nat.not_lt.2 ho)]
  · rw [exec, execSetb, bitOperand_reserved hres]

/-- Settles O25: the value operand decides, then the run as a whole; the next state is `State.afterSetrun`. -/
theorem setrunWritesTheRun : Obligations.SetrunWritesTheRun := by
  refine ⟨decode_encode .setrun, fun s => ⟨fun hfit hbit => ?_, fun hpos hcap hbit => ?_, fun hres => ?_⟩⟩
  · exact ⟨_, (exec_setrun_of_bitOperand (bitOperand_bit hbit)).trans (if_pos hfit), s.afterSetrun_frame _,
      s.getBit_afterSetrun _, State.afterSetrun_buf_of_empty _⟩
  · rw [exec_setrun_of_bitOperand (bitOperand_bit hbit), if_neg (by omega)]
  · rw [exec, execSetrun, bitOperand_reserved hres]

/-- Settles O26: both runs are in range, and they have no bit in common, so the second keeps what the first wrote. -/
theorem setrunChains : Obligations.SetrunChains := by
  intro s v1 v2 n1 n2 hfit
  obtain ⟨t, ht, hcfg, hres, hbits⟩ := exec_setrun_run (s := s) (o := s.arg0) (n := n1) v1 (by omega)
  obtain ⟨u, hu, -, hres', hbits'⟩ := exec_setrun_run (s := t) (o := s.arg0 + n1) (n := n2) v2 (by rwa [hcfg])
  refine ⟨t, u, ht, by rwa [← hres] at hu, hres', fun p => ?_⟩
  rw [hbits', hbits]
  by_cases hp : s.arg0 ≤ p ∧ p < s.arg0 + n1
  · rw [if_neg (by omega), if_pos hp, if_pos hp]
  · rw [if_neg hp, if_neg hp]

end Sys2Proof.Machine
end

section
/-! PROOFS. The statement of 42_run_length.md: the command RUNLEN answers what the scanner measures. -/

namespace Sys2Proof.Machine

/-- Up to `BUF_UNITS`, RUNLEN's whole effect is the scanner's answer in RES0 (R121). -/
theorem exec_runlen_of_le {s : State} (h : s.arg1 ≤ s.cfg.bufUnits) :
    exec .runlen s = .next { s.clearFlags with res0 := s.runLength s.arg1 s.arg0 } :=
  if_pos h

/-- The scanner answers 0 exactly at or beyond the end of its first `n` units (R122). -/
theorem State.runLength_eq_zero_iff (s : State) (n o : Nat) : s.runLength n o = 0 ↔ n * s.cfg.byteW ≤ o :=
  runFrom_eq_zero s.getBit (n * s.cfg.byteW) o

/-- Below the end of its first `n` units, the scanner answers the length of the rest of the run (R122). -/
theorem State.runLength_spec (s : State) {n o : Nat} (h : o < n * s.cfg.byteW) :
    1 ≤ s.runLength n o ∧ s.runLength n o ≤ n * s.cfg.byteW - o ∧
      (∀ p, o ≤ p → p < o + s.runLength n o → s.getBit p = s.getBit o) ∧
      (o + s.runLength n o = n * s.cfg.byteW ∨ s.getBit (o + s.runLength n o) ≠ s.getBit o) := by
  obtain ⟨hpos, hbound, hequal, hend⟩ := runFrom_spec s.getBit h
  refine ⟨hpos, Nat.le_sub_of_add_le' hbound, fun p hp hlt => ?_, hend⟩
  obtain ⟨k, rfl⟩ := Nat.exists_eq_add_of_le hp
  exact hequal k (Nat.lt_of_add_lt_add_left hlt)

/-- Settles O28: the length operand is in range, and the answer is the scanner's. -/
theorem runlenMeasuresTheRun : Obligations.RunlenMeasuresTheRun :=
  ⟨decode_encode .runlen, fun s hn =>
    ⟨s.runLength s.arg1 s.arg0, exec_runlen_of_le hn, s.runLength_eq_zero_iff s.arg1 s.arg0, s.runLength_spec⟩⟩

end Sys2Proof.Machine
end

section
/-! PROOFS. The statements of 43_encoder.md: ENCODE writes the stream of its text (sections 1 and 2), its table is its
pseudocode (section 3), and the runs of its stream have the lengths of the timing model (section 4). -/

namespace Sys2Proof.Machine

/-! ### What an ENCODE that completes leaves -/

/-- Every bit of BUF after R130: the stream's, and behind the stream what BUF held. -/
theorem State.getBit_encodeText (s : State) (p : Nat) :
    s.encodeText.getBit p = (encodedBits s.text).getD p (s.getBit p) := by
  obtain ⟨-, -, hbits, hrest⟩ := s.encodeText_bits
  rcases Nat.lt_or_ge p (encodedBits s.text).length with hp | hp
  · have hin := hbits p hp
    rw [Nat.zero_add] at hin
    rw [hin, List.getD_eq_getElem _ _ hp, List.getD_eq_getElem _ _ hp]
  · rw [hrest p hp, List.getD_eq_default _ _ hp]

@[simp] theorem State.clearFlags_text (s : State) : s.clearFlags.text = s.text := rfl

/-- ENCODE completes exactly where its text and its stream fit (R59), and then it has run R130 with the flags clear. -/
theorem exec_encode_iff_fits (s t : State) :
    exec .encode s = .next t ↔
      s.arg0 ≤ s.cfg.txtBytes ∧ (encodedBits s.text).length ≤ s.cfg.capBits ∧ t = s.clearFlags.encodeText := by
  rw [exec_encode_iff, s.clearFlags.encodeText_bits.1, State.clearFlags_text]

/-- Settles O29: the fields by the equation for R130, the bits by `State.encodeText_bits`. -/
theorem encodeWritesTheStreamOfItsText : Obligations.EncodeWritesTheStreamOfItsText := by
  intro s htxt hcap
  obtain ⟨-, -, hbits, hrest⟩ := s.clearFlags.encodeText_bits
  obtain ⟨k, -, e⟩ := s.clearFlags.encodeText_eq
  refine ⟨_, (exec_encode_iff_fits s _).2 ⟨htxt, hcap, rfl⟩, ?_, hbits, hrest,
    State.cell_congr (by rw [e]; rfl) (by rw [e]; rfl)⟩
  rw [e]
  simp only [State.putBits, Nat.zero_add]
  rfl

/-! ### What ENCODE does not see -/

/-- ENCODE reads TXT through the stream of its text alone: with the same stream and the same BUF it leaves the same
result, final offset and bits. -/
theorem State.encodeText_congr {s s' : State} (hcfg : s'.cfg = s.cfg)
    (hbits : encodedBits s'.text = encodedBits s.text) (hbuf : s'.buf = s.buf) :
    s'.encodeText.res0 = s.encodeText.res0 ∧ s'.encodeText.boff = s.encodeText.boff ∧
      ∀ p, s'.encodeText.getBit p = s.encodeText.getBit p := by
  obtain ⟨hoff, hres, -, -⟩ := s.encodeText_bits
  obtain ⟨hoff', hres', -, -⟩ := s'.encodeText_bits
  refine ⟨by rw [hres', hres, hbits, hcfg], by rw [hoff', hoff, hbits], fun p => ?_⟩
  rw [State.getBit_encodeText, State.getBit_encodeText, hbits, State.getBit_congr hbuf]

/-- The command then completes with the same result, if its text is no longer. -/
theorem exec_encode_congr {s s' t : State} (hcfg : s'.cfg = s.cfg) (harg : s'.arg0 ≤ s.arg0)
    (hbits : encodedBits s'.text = encodedBits s.text) (hbuf : s'.buf = s.buf) (h : exec .encode s = .next t) :
    ∃ t', exec .encode s' = .next t' ∧ t'.res0 = t.res0 ∧ t'.boff = t.boff ∧ ∀ p, t'.getBit p = t.getBit p := by
  obtain ⟨htxt, hcap, rfl⟩ := (exec_encode_iff_fits s t).1 h
  refine ⟨_, (exec_encode_iff_fits s' _).2 ⟨?_, ?_, rfl⟩, State.encodeText_congr hcfg hbits hbuf⟩
  · rw [hcfg]; exact harg.trans htxt
  · rwa [hbits, hcfg]

/-- The stream depends on a text only up to case (R146). -/
theorem encodedBits_upper (l : List Byte) : encodedBits (l.map upper) = encodedBits l := by
  rw [encodedBits, encodedBits, textBits_upper]

/-- Settles O32: the two texts have the same upper-case text, so the same stream. -/
theorem encodeFoldsCase : Obligations.EncodeFoldsCase := by
  intro s s' t hcfg harg hbuf hcase h
  have htext : s'.text.map upper = s.text.map upper := by
    simp only [State.text, List.map_map, harg]
    exact List.map_congr_left fun k hk => hcase k (List.mem_range.1 hk)
  have hbits : encodedBits s'.text = encodedBits s.text := by
    rw [← encodedBits_upper, htext, encodedBits_upper]
  obtain ⟨t', ht', hres, -, hbit⟩ := exec_encode_congr hcfg harg.le hbits hbuf h
  exact ⟨t', ht', hres, hbit⟩

/-- The text, cut at cell `n`. -/
theorem State.text_eq_append (s : State) {n : Nat} (h : n ≤ s.arg0) :
    s.text = s.cellsFrom 0 n ++ s.cellsFrom n (s.arg0 - n) := by
  have hrange := List.range'_append_1 (s := 0) (m := n) (n := s.arg0 - n)
  rw [Nat.zero_add, Nat.add_sub_cancel' h] at hrange
  rw [State.text_eq_cellsFrom, State.cellsFrom, State.cellsFrom, State.cellsFrom, ← List.map_append, hrange]

/-- The cells from the first NUL on give nothing (R144). -/
theorem State.encodedBits_text_of_nul (s : State) {n : Nat} (hn : n < s.arg0) (h0 : s.cell n = 0) :
    encodedBits s.text = encodedBits (s.cellsFrom 0 n) := by
  obtain ⟨m, hm⟩ := Nat.exists_eq_succ_of_ne_zero (Nat.sub_ne_zero_of_lt hn)
  rw [s.text_eq_append hn.le, hm, State.cellsFrom_succ, h0, encodedBits, encodedBits, textBits_nul]

/-- Settles O34: with text length `n` the text is the cells before the NUL, which give the same stream. -/
theorem encodeStopsAtNul : Obligations.EncodeStopsAtNul := by
  intro s t n hn _ h0 h
  have hbits : encodedBits ({ s with arg0 := n } : State).text = encodedBits s.text := by
    rw [s.encodedBits_text_of_nul hn h0, State.text_eq_cellsFrom]
    rfl
  exact exec_encode_congr (s := s) rfl hn.le hbits rfl h

/-! ### A text without letters -/

/-- Separators alone give the end-of-message code (R133, R143). -/
theorem encodedBits_seps {l : List Byte} (h : ∀ c ∈ l, isSep c = true) : encodedBits l = codeBits eomCode := by
  have hnone : textBits true l = [] := by
    rw [← List.append_nil l]
    exact textBits_seps h []
  rw [encodedBits, hnone, List.nil_append]

/-- A unit that lies inside bits BUF holds from offset 0 on. -/
theorem State.HasBits.unitAt {s : State} {bs : List Bool} {i : Nat} (h : s.HasBits 0 bs)
    (hi : i * s.cfg.byteW + s.cfg.byteW ≤ bs.length) :
    s.unitAt i = bitsValue (fun k => bs.getD (i * s.cfg.byteW + k) false) s.cfg.byteW :=
  bitsValue_congr fun k hk => by
    have hbit := h (i * s.cfg.byteW + k) (by omega)
    rwa [Nat.zero_add] at hbit

/-- Settles O33: the stream of the text is the end-of-message code; its two units are evaluated. -/
theorem encodeOfNoLettersIsTheMarker : Obligations.EncodeOfNoLettersIsTheMarker := by
  intro s n htxt hcap hn hseps hend
  have hprefix : encodedBits s.text = encodedBits (s.cellsFrom 0 n) := by
    rcases hn.eq_or_lt with rfl | hlt
    · rw [State.text_eq_cellsFrom]
    · exact s.encodedBits_text_of_nul hlt (hend.resolve_left hlt.ne)
  have hmarker : encodedBits s.text = codeBits eomCode := by
    rw [hprefix]
    refine encodedBits_seps fun c hc => ?_
    obtain ⟨k, hk, rfl⟩ := List.mem_map.1 hc
    exact hseps k (by simpa using hk)
  have hlen : (encodedBits s.text).length = 16 := by rw [hmarker, codeBits_eomCode_length]
  obtain ⟨t, ht, hframe, hbits, hrest, -⟩ := encodeWritesTheStreamOfItsText s htxt (hlen.trans_le hcap)
  rw [hlen] at hrest
  rw [hmarker] at hbits
  have hcfg : t.cfg = s.cfg := by rw [hframe]
  have hres : t.res0 = ceilDiv 16 s.cfg.byteW := by rw [hframe, hlen]
  refine ⟨t, ht, by rw [hframe, hlen], hres, hbits, hrest, fun hw => ?_⟩
  have hw' : t.cfg.byteW = 8 := by rw [hcfg, hw]
  refine ⟨by rw [hres, hw]; rfl, ?_, ?_⟩
  · rw [hbits.unitAt (by rw [hw']; decide), hw']; decide
  · rw [hbits.unitAt (by rw [hw']; decide), hw']; decide

/-! ### The table and the pseudocode -/

theorem State.encodeRows_add (s : State) (m n : Nat) : s.encodeRows (m + n) = (s.encodeRows m).encodeRows n := by
  induction m generalizing s with
  | zero => rw [Nat.zero_add]; rfl
  | succ m ih => rw [Nat.succ_add, State.encodeRows, State.encodeRows, ih]

/-- "sep" of R140: a separator stands at TIDX, before the end. -/
def State.atSep (s : State) : Bool := !s.textAtEnd && isSep (s.cell s.tidx)

theorem State.textAtEnd_of_le {s : State} (h : s.arg0 ≤ s.tidx) : s.textAtEnd = true := by simp [State.textAtEnd, h]

theorem State.atSep_of_textAtEnd {s : State} (h : s.textAtEnd = true) : s.atSep = false := by simp [State.atSep, h]

/-- Before the end of the text, "sep" is a separator in the cell at TIDX, since a NUL is none. -/
theorem State.atSep_of_lt {s : State} (h : s.tidx < s.arg0) : s.atSep = isSep (s.cell s.tidx) := by
  cases hsep : isSep (s.cell s.tidx) with
  | false => simp [State.atSep, hsep]
  | true => simp [State.atSep, State.textAtEnd, hsep, ((isSep_iff _).1 hsep).1, h]

/-- What is not the end and not alphanumeric is a separator (R85). -/
theorem State.atSep_of_not_alnum {s : State} (hend : s.textAtEnd = false) (hal : alnum (s.cell s.tidx) = false) :
    s.atSep = true := by
  have hnul : isNul (s.cell s.tidx) = false := (Bool.or_eq_false_iff.1 hend).2
  rw [State.atSep, hend, (isSep_iff _).2 ⟨hnul, hal⟩]
  rfl

/-- The rows of `SKIP_LEAD` and `SEP` are the same: a separator is skipped, anything else leads to `CHAR`. -/
theorem State.encodeRow_skipping {s : State} (h : s.estate = .skipLead ∨ s.estate = .sep) :
    s.encodeRow = if s.atSep then { s with tidx := s.tidx + 1 } else { s with estate := .char } := by
  rcases h with h | h <;> rw [State.encodeRow, h] <;> rfl

theorem State.encodeRow_char {s : State} (h : s.estate = .char) :
    s.encodeRow =
      if s.textAtEnd then { s with estate := .eom }
      else if alnum (s.cell s.tidx) then s.encodeLetter
      else { s.emitRun false 4 with estate := .sep } := by
  rw [State.encodeRow, h]

theorem State.encodeRows_one {s : State} (h : s.estate = .skipLead ∨ s.estate = .sep) (hsep : s.atSep = false) :
    s.encodeRows 1 = { s with estate := .char } := by
  rw [State.encodeRows, State.encodeRow_skipping h, hsep]
  rfl

/-- The loop of R133 and R137 row by row: one row for each separator it skips and one that leads to `CHAR`, where no
separator stands. -/
theorem State.encodeRows_skipSeps (s : State) (n : Nat) (h : s.estate = .skipLead ∨ s.estate = .sep)
    (hn : s.arg0 - s.tidx = n) :
    ∃ j ≤ n, s.skipSeps n = { s with tidx := s.tidx + j } ∧
      s.encodeRows (j + 1) = { s with tidx := s.tidx + j, estate := .char } ∧
      ({ s with tidx := s.tidx + j } : State).atSep = false := by
  induction n generalizing s with
  | zero =>
    have hsep := State.atSep_of_textAtEnd (State.textAtEnd_of_le (Nat.sub_eq_zero_iff_le.1 hn))
    exact ⟨0, le_rfl, rfl, State.encodeRows_one h hsep, hsep⟩
  | succ n ih =>
    rw [State.skipSeps, ← State.atSep_of_lt (by omega)]
    cases hsep : s.atSep with
    | false => exact ⟨0, Nat.zero_le _, rfl, State.encodeRows_one h hsep, hsep⟩
    | true =>
      obtain ⟨j, hj, hskip, hrows, hend⟩ := ih { s with tidx := s.tidx + 1 } h (by simp only; omega)
      rw [Nat.add_assoc, Nat.add_comm 1] at hskip hrows hend
      refine ⟨j + 1, by omega, hskip, ?_, hend⟩
      rw [State.encodeRows, State.encodeRow_skipping h, hsep]
      exact hrows

/-- The last two rows are the end of R130. -/
theorem State.encodeRows_finishEncode {s : State} (h : s.estate = .char) (hend : s.textAtEnd = true) :
    s.encodeRows 2 = s.finishEncode := by
  rw [State.encodeRows, State.encodeRow_char h, if_pos hend]
  rfl

/-- `CHAR` at a separator emits the gap, and `SEP` then skips the run (R137): the branch of R130, in two rows more than
there are separators. -/
theorem State.encodeRows_encodeGap {s : State} (h : s.estate = .char) (hend : s.textAtEnd = false)
    (hal : alnum (s.cell s.tidx) = false) :
    ∃ j, 0 < j ∧ j ≤ s.arg0 - s.tidx ∧ s.encodeRows (j + 2) = s.encodeGap ∧ s.encodeGap.arg0 = s.arg0 ∧
      s.encodeGap.tidx = s.tidx + j ∧ s.encodeGap.estate = .char ∧ s.encodeGap.atSep = false := by
  obtain ⟨u, hu⟩ : ∃ u, u = { s.putBits (List.replicate 4 false) with estate := .sep } := ⟨_, rfl⟩
  have hrow : s.encodeRow = u := by
    rw [State.encodeRow_char h, hend, hal, State.emitRun_eq, hu]; rfl
  have harg : u.arg0 = s.arg0 := by rw [hu]; rfl
  have htidx : u.tidx = s.tidx := by rw [hu]; rfl
  have hsep : u.atSep = true := by
    rw [← State.atSep_of_not_alnum hend hal, hu]; rfl
  obtain ⟨j, hj, hskip, hrows, hstop⟩ :=
    u.encodeRows_skipSeps (s.arg0 - s.tidx) (.inr (by rw [hu])) (by rw [harg, htidx])
  have hgap : s.encodeGap = { u with tidx := u.tidx + j, estate := .char } := by
    have hemit : { s with estate := .sep }.emitRun false 4 = u := by rw [State.emitRun_eq, hu]; rfl
    rw [State.encodeGap, hemit, hskip]
  have hpos : 0 < j := by
    rcases Nat.eq_zero_or_pos j with rfl | hpos
    · exact absurd (hsep.symm.trans hstop) (by decide)
    · exact hpos
  rw [hgap]
  exact ⟨j, hpos, hj, by rw [State.encodeRows, hrow, hrows], harg, by rw [htidx], rfl, hstop⟩

/-- The loop of R130 and its end row by row: two rows for each character left and two for the end, and one more if a
separator run is about to begin. -/
theorem State.encodeRows_encodeLoop (s : State) (n : Nat) (h : s.estate = .char) (hn : s.arg0 - s.tidx ≤ n) :
    ∃ k ≤ 2 * (s.arg0 - s.tidx) + s.atSep.toNat + 2, s.encodeRows k = (s.encodeLoop n).finishEncode := by
  induction n generalizing s with
  | zero =>
    have hend : s.textAtEnd = true := State.textAtEnd_of_le (by omega)
    exact ⟨2, by omega, State.encodeRows_finishEncode h hend⟩
  | succ n ih =>
    rw [State.encodeLoop]
    cases hend : s.textAtEnd with
    | true => exact ⟨2, by omega, State.encodeRows_finishEncode h hend⟩
    | false =>
      have hlt : s.tidx < s.arg0 := by
        by_contra hle
        rw [State.textAtEnd_of_le (Nat.not_lt.1 hle)] at hend
        cases hend
      cases hal : alnum (s.cell s.tidx) with
      | true =>
        obtain ⟨c, i, e⟩ := s.encodeLetter_eq hal
        have harg : s.encodeLetter.arg0 = s.arg0 := by rw [e]; rfl
        have htidx : s.encodeLetter.tidx = s.tidx + 1 := by rw [e]
        obtain ⟨k, hk, hrows⟩ := ih s.encodeLetter (by rw [e]; exact h) (by omega)
        have hbool := s.encodeLetter.atSep.toNat_le
        refine ⟨k + 1, by omega, ?_⟩
        rw [State.encodeRows, State.encodeRow_char h, hend, hal]
        exact hrows
      | false =>
        obtain ⟨j, hj, hle, hgap, harg, htidx, hchar, hsep⟩ := State.encodeRows_encodeGap h hend hal
        obtain ⟨k, hk, hrows⟩ := ih s.encodeGap hchar (by omega)
        rw [hsep, Bool.toNat_false] at hk
        rw [State.atSep_of_not_alnum hend hal, Bool.toNat_true]
        refine ⟨j + 2 + k, by omega, ?_⟩
        rw [State.encodeRows_add, hgap]
        exact hrows

/-- Settles O31: the leading run costs one row more than its separators, and the loop begins where no separator
stands. -/
theorem encodeTableIsItsPseudocode : Obligations.EncodeTableIsItsPseudocode := by
  intro s
  obtain ⟨j, hj, hskip, hlead, hsep⟩ := s.beginEncode.encodeRows_skipSeps s.arg0 (.inl rfl) rfl
  have hsep' : ({ s.beginEncode with tidx := s.beginEncode.tidx + j, estate := .char } : State).atSep = false := hsep
  obtain ⟨k, hk, hrows⟩ := State.encodeRows_encodeLoop
    { s.beginEncode with tidx := s.beginEncode.tidx + j, estate := .char } s.arg0 rfl (Nat.sub_le _ _)
  rw [hsep'] at hk
  simp only [State.beginEncode_arg0, State.beginEncode_tidx, Bool.toNat_false] at hk
  refine ⟨j + 1 + k, by omega, ?_, rfl⟩
  rw [State.encodeRows_add, hlead, hrows, State.encodeText, hskip]

/-! ### The runs of the stream -/

/-- The bits of a stream run by run (R142): 1-runs of length 1 or 3, each with a 0-run of length 1, 3 or 7 behind it. -/
inductive ModelRuns : List Bool → Prop where
  | nil : ModelRuns []
  | cons {n z : Nat} {bs : List Bool} (hn : n = 1 ∨ n = 3) (hz : z = 1 ∨ z = 3 ∨ z = 7) (h : ModelRuns bs) :
      ModelRuns (List.replicate n true ++ (List.replicate z false ++ bs))

/-- What is not empty begins with a 1-run, so the 0-run before it ends there. -/
theorem ModelRuns.head {bs : List Bool} (h : ModelRuns bs) : bs = [] ∨ ∃ cs, bs = true :: cs := by
  cases h with
  | nil => exact .inl rfl
  | cons hn hz h => rcases hn with rfl | rfl <;> exact .inr ⟨_, rfl⟩

/-- Symbols with their gaps are runs (R135). -/
theorem ModelRuns.symbols {bs : List Bool} (ds : List Bool) (h : ModelRuns bs) :
    ModelRuns (ds.flatMap symbolBits ++ bs) := by
  induction ds with
  | nil => exact h
  | cons d ds ih =>
    rw [List.flatMap_cons, symbolBits_eq, List.append_assoc, List.append_assoc]
    exact .cons (by cases d <;> decide) (.inl rfl) ih

/-- So is a code with no more 0 bits behind it, or with the four of a separator run (R136, R137). -/
theorem ModelRuns.code {w : Byte} {z : Nat} {bs : List Bool} (hw : 1 ≤ codeLen w) (hz : z = 0 ∨ z = 4)
    (h : ModelRuns bs) :
    ModelRuns (codeBits w ++ (List.replicate z false ++ bs)) := by
  obtain ⟨ds, d, e, -⟩ := codeSymbols_split hw
  have hgap : [false, false, false] ++ (List.replicate z false ++ bs) = List.replicate (3 + z) false ++ bs := by
    rw [← List.append_assoc, List.replicate_add]; rfl
  rw [codeBits_split e, List.append_assoc, List.append_assoc, hgap]
  exact .symbols ds (.cons (by cases d <;> decide) (by omega) h)

/-- A stream from any point of its text: the four 0 bits of a separator run, if one begins there behind a letter, and
then runs. -/
theorem modelRuns_textBits (afterSep : Bool) (l : List Byte) :
    ∃ z bs, textBits afterSep l ++ codeBits eomCode = List.replicate z false ++ bs ∧ ModelRuns bs ∧
      (z = 0 ∨ z = 4) ∧ (afterSep = true → z = 0) := by
  have heom : ModelRuns (codeBits eomCode) := by
    simpa using ModelRuns.code (w := eomCode) (by decide) (.inl rfl) .nil
  induction l generalizing afterSep with
  | nil => exact ⟨0, _, rfl, heom, .inl rfl, fun _ => rfl⟩
  | cons c l ih =>
    rw [textBits]
    split_ifs with hnul hal hafter
    · exact ⟨0, _, rfl, heom, .inl rfl, fun _ => rfl⟩
    · obtain ⟨w, hw, -, hlen, -⟩ := alnum_lookup c hal
      obtain ⟨z, bs, e, hbs, hz, -⟩ := ih false
      rw [hw, Option.getD_some, List.append_assoc, e]
      exact ⟨0, _, rfl, .code hlen hz hbs, .inl rfl, fun _ => rfl⟩
    · obtain ⟨z, bs, e, hbs, hz, hz0⟩ := ih true
      exact ⟨z, bs, e, hbs, hz, fun _ => hz0 rfl⟩
    · obtain ⟨z, bs, e, hbs, -, hz⟩ := ih true
      rw [hz rfl] at e
      refine ⟨4, bs, ?_, hbs, .inr rfl, fun h => absurd h hafter⟩
      rw [List.append_assoc, e]
      rfl

theorem modelRuns_encodedBits (l : List Byte) : ModelRuns (encodedBits l) := by
  obtain ⟨z, bs, e, hbs, -, hz⟩ := modelRuns_textBits true l
  rw [hz rfl] at e
  rw [encodedBits, e]
  exact hbs

/-- The run that starts at `o`, measured up to `cap`, has a length of the timing model (R13, R142). -/
def ModelRunAt (bit : Nat → Bool) (cap o : Nat) : Prop :=
  (bit o = true → runFrom bit cap o = 1 ∨ runFrom bit cap o = 3) ∧
    (bit o = false → runFrom bit cap o = 1 ∨ runFrom bit cap o = 3 ∨ runFrom bit cap o = 7)

/-- Within equal bits no run starts but at the first. -/
theorem eq_of_run_start {bit : Nat → Bool} {v : Bool} {a n o : Nat} (hrun : ∀ k < n, bit (a + k) = v) (hle : a ≤ o)
    (hlt : o < a + n) (hstart : o ≤ a ∨ bit (o - 1) ≠ bit o) : o = a := by
  by_contra hne
  have hbit := hrun (o - a) (by omega)
  have hbit' := hrun (o - 1 - a) (by omega)
  rw [show a + (o - a) = o by omega] at hbit
  rw [show a + (o - 1 - a) = o - 1 by omega] at hbit'
  rcases hstart with h | h
  · omega
  · exact h (hbit'.trans hbit.symm)

/-- Where BUF holds such runs, every run that starts there, up to their end, has a length of the model. -/
theorem ModelRuns.modelRunAt {s : State} {bs : List Bool} (h : ModelRuns bs) {p : Nat} (hb : s.HasBits p bs) {o : Nat}
    (hp : p ≤ o) (ho : o < p + bs.length) (hstart : o = p ∨ s.getBit (o - 1) ≠ s.getBit o) :
    ModelRunAt s.getBit (p + bs.length) o := by
  induction h generalizing p with
  | nil => exact absurd ho (by simpa using hp)
  | @cons n z bs hn hz hbs ih =>
    obtain ⟨hones, hrest⟩ := State.hasBits_append.1 hb
    obtain ⟨hzeros, hrest⟩ := State.hasBits_append.1 hrest
    rw [State.hasBits_replicate] at hones
    rw [List.length_replicate, State.hasBits_replicate] at hzeros
    rw [List.length_replicate, List.length_replicate] at hrest
    have hcap : p + (List.replicate n true ++ (List.replicate z false ++ bs)).length = p + n + z + bs.length := by
      simp only [List.length_append, List.length_replicate]; omega
    rw [hcap] at ho ⊢
    have hpos : 0 < n ∧ 0 < z := by omega
    rcases Nat.lt_or_ge o (p + n) with hlt | hge
    · obtain rfl := eq_of_run_start hones hp hlt (hstart.imp_left Eq.le)
      have hend := hzeros 0 hpos.2
      rw [Nat.add_zero] at hend
      have hlen := runFrom_eq s.getBit true (cap := o + n + z + bs.length) hpos.1 (by omega) hones
        (.inr (by rw [hend]; decide))
      exact ⟨fun _ => by rw [hlen]; exact hn, fun h0 => absurd (h0.symm.trans (hones 0 hpos.1)) (by decide)⟩
    · rcases Nat.lt_or_ge o (p + n + z) with hlt | hge'
      · obtain rfl := eq_of_run_start hzeros hge hlt (hstart.imp_left fun h => by omega)
        have hend : p + n + z = p + n + z + bs.length ∨ s.getBit (p + n + z) ≠ false := by
          rcases hbs.head with rfl | ⟨cs, rfl⟩
          · exact .inl rfl
          · exact .inr (by rw [(State.hasBits_cons.1 hrest).1]; decide)
        have hlen := runFrom_eq s.getBit false hpos.2 (by omega) hzeros hend
        exact ⟨fun h1 => absurd (h1.symm.trans (hzeros 0 hpos.2)) (by decide), fun _ => by rw [hlen]; exact hz⟩
      · exact ih hrest hge' ho (hstart.imp_left fun h => by omega)

/-- Settles O35: the stream is made of such runs from bit 0 to the final offset, and begins with a 1. -/
theorem encodedRunsHaveTheModelLengths : Obligations.EncodedRunsHaveTheModelLengths := by
  intro s t h
  obtain ⟨-, -, rfl⟩ := (exec_encode_iff_fits s t).1 h
  obtain ⟨hoff, -, hbits, -⟩ := s.clearFlags.encodeText_bits
  refine ⟨?_, fun o ho hstart => ?_⟩
  · obtain ⟨bs, hhead⟩ := stream_head s.text
    have hfirst : s.clearFlags.encodeText.HasBits 0 (true :: bs) := by rw [← hhead]; exact hbits
    exact (State.hasBits_cons.1 hfirst).1
  · have hrun := (modelRuns_encodedBits s.text).modelRunAt hbits o.zero_le (by rw [hoff] at ho; simpa using ho) hstart
    rw [hoff]
    rwa [Nat.zero_add] at hrun

end Sys2Proof.Machine
end

section
/-! PROOFS. The statements of 44_decoder.md: what a DECODE leaves (section 2), its table and its pseudocode
(section 3), the streams that raise an error and those that decode to a text, and the round trip with ENCODE
(section 4). -/

namespace Sys2Proof.Machine

/-! ### What a DECODE that succeeds leaves -/

/-- The fields in which the states of one DECODE may differ (R43). -/
theorem DecodeFrame.eq {s t : State} (h : DecodeFrame s t) :
    t = { s with
      err := t.err, res0 := t.res0, dstate := t.dstate, boff := t.boff, olen := t.olen, pend := t.pend
      txt := t.txt, txtDraw := t.txtDraw } := by
  rw [← h.cfg, ← h.arg0, ← h.arg1, ← h.arg2, ← h.notFound, ← h.illegal, ← h.estate, ← h.tidx, ← h.cur, ← h.sidx,
    ← h.buf, ← h.hostQueue, ← h.reply]

/-- A DECODE that leaves ERR 0 has succeeded, and its text and NUL fit TXT (R59, R165). -/
theorem exec_decode_done {s t : State} (h : exec .decode s = .next t) (he : t.err = none) :
    DecodeDone s.clearFlags t ∧ t.olen + 1 ≤ s.cfg.txtBytes := by
  obtain ⟨-, hfit, rfl⟩ := (exec_decode_iff s t).1 h
  exact ⟨s.clearFlags.decodeStream_spec.resolve_right fun hf => hf.err he, hfit⟩

/-- Settles O37: a DECODE without an error is a `DecodeDone` of the state with the flags clear. -/
theorem decodeSuccessLeavesCountAndNul : Obligations.DecodeSuccessLeavesCountAndNul := by
  intro s t h he
  obtain ⟨hd, hfit⟩ := exec_decode_done h he
  refine ⟨hd.frame.eq.trans ?_, ?_, ?_, fun k hk => ?_, hd.frame.getBit⟩
  · rw [he, hd.res0, hd.dstate, hd.draw]
    rfl
  · rw [hd.res0]; exact hd.nul
  · rw [hd.res0]; exact hfit
  · rw [hd.res0] at hk; exact hd.beyond k hk

theorem eq_spaceChar_of_toNat {c : Byte} (h : c.toNat = 0x20) : c = spaceChar := BitVec.eq_of_toNat_eq h

/-- Settles O40: the loop of R150 keeps its text a `CleanText`. -/
theorem decodedTextIsClean : Obligations.DecodedTextIsClean := by
  intro s t h he
  obtain ⟨hd, -⟩ := exec_decode_done h he
  rw [hd.res0]
  refine ⟨fun k hk => ?_, fun hpos h0 => ?_, fun k hk h0 h1 => ?_⟩
  · exact (hd.text.chars k hk).imp_right (.imp_right fun h => by rw [h]; rfl)
  · exact hd.text.lead hpos (eq_spaceChar_of_toNat h0)
  · exact hd.text.spaces k hk (eq_spaceChar_of_toNat h0) (eq_spaceChar_of_toNat h1)

/-! ### The table and the pseudocode -/

theorem State.decodeRows_add (s : State) (m n : Nat) : s.decodeRows (m + n) = (s.decodeRows m).decodeRows n := by
  induction m generalizing s with
  | zero => rw [Nat.zero_add]; rfl
  | succ m ih => rw [Nat.succ_add, State.decodeRows, State.decodeRows, ih]

theorem State.decodeRow_accumulating {s : State} (h : s.dstate = .accumulatingSymbol) :
    s.decodeRow = s.accumulateRow (runFrom s.getBit s.streamBits s.boff) := by
  rw [State.decodeRow, h]
  rfl

/-- At the end of the stream the row of `ACCUMULATING_SYMBOL` finishes. -/
theorem State.decodeRow_end {s : State} (h : s.dstate = .accumulatingSymbol) (hc : s.streamBits ≤ s.boff) :
    s.decodeRow = s.finishDecode := by
  rw [State.decodeRow_accumulating h, runFrom_of_le _ hc]
  rfl

/-- The states in which a code is resolved. -/
def DState.Boundary (d : DState) : Prop := d = .atLetterBoundary ∨ d = .atWordBoundary

theorem gapState_of_le_two {g : Nat} (h1 : 0 < g) (h2 : g ≤ 2) : gapState g = .accumulatingSymbol :=
  if_pos (by omega)

theorem gapState_of_le_six {g : Nat} (h : g = 0 ∨ 3 ≤ g) (h6 : g ≤ 6) : gapState g = .atLetterBoundary :=
  (if_neg (by omega)).trans (if_pos h6)

theorem gapState_of_ge_seven {g : Nat} (h : 7 ≤ g) : gapState g = .atWordBoundary :=
  (if_neg (by omega)).trans (if_neg (by omega))

theorem gapState_boundary {g : Nat} (h : g = 0 ∨ 3 ≤ g) : (gapState g).Boundary := by
  by_cases h6 : g ≤ 6
  · exact .inl (gapState_of_le_six h h6)
  · exact .inr (gapState_of_ge_seven (by omega))

section
variable {s : State} {d : DState} {c : Byte}

theorem State.decodeRow_letter (s : State) :
    (s.setDstate .atLetterBoundary).decodeRow = (s.setDstate .atLetterBoundary).letterRow := rfl

theorem State.decodeRow_word (s : State) :
    (s.setDstate .atWordBoundary).decodeRow = (s.setDstate .atWordBoundary).wordRow := rfl

/-- A code that is not in the table (R163). -/
theorem State.decodeRow_unresolvable (hd : d.Boundary) (hp : 0 < codeLen s.pend) (hk : lookupCode s.pend = none) :
    (s.setDstate d).decodeRow = s.raiseDecodeError .unresolvableCode := by
  rcases hd with rfl | rfl
  · rw [State.decodeRow_letter, State.letterRow, State.setDstate_pend, hk]; rfl
  · rw [State.decodeRow_word, State.wordRow, State.setDstate_pend, if_pos hp, hk]; rfl

/-- The end-of-message code (R163). -/
theorem State.decodeRow_eom (hd : d.Boundary) (hp : 0 < codeLen s.pend) (hk : lookupCode s.pend = some 0) :
    (s.setDstate d).decodeRow = s.finishDecode := by
  rcases hd with rfl | rfl
  · rw [State.decodeRow_letter, State.letterRow, State.setDstate_pend, hk]; rfl
  · rw [State.decodeRow_word, State.wordRow, State.setDstate_pend, if_pos hp, hk]; rfl

/-- A character at the end of a letter (R159). -/
theorem State.decodeRow_letter_char (hk : lookupCode s.pend = some c) (hc : c ≠ 0) :
    (s.setDstate .atLetterBoundary).decodeRow = (s.takeChar c).setDstate .accumulatingSymbol := by
  rw [State.decodeRow_letter, State.letterRow, State.setDstate_pend, hk]
  exact if_neg (mt (isNul_iff c).1 hc)

/-- A character at the end of a word (R161). -/
theorem State.decodeRow_word_char (hk : lookupCode s.pend = some c) (hc : c ≠ 0) :
    (s.setDstate .atWordBoundary).decodeRow = ((s.setDstate .atWordBoundary).takeChar c).wordRowEnd := by
  have hp : 0 < codeLen s.pend := codeLen_pos_of_lookup hk
  rw [State.decodeRow_word, State.wordRow, State.setDstate_pend, if_pos hp, hk]
  exact if_neg (mt (isNul_iff c).1 hc)

end

/-- The rest of a pass as rows of the table from `s` on: one at most where the loop goes on, two where it ends. -/
def Pass.InRowsFrom (p : Pass) (s : State) : Prop :=
  match p with
  | .again t => t.dstate = .accumulatingSymbol ∧ ∃ k ≤ 1, s.decodeRows k = t
  | .stop t => ∃ k ≤ 2, s.decodeRows k = t

/-- What a pass does after its gap has been read, row by row; a code cut at the end of the stream takes the row of R154
in addition (R162). -/
theorem State.afterGap_inRowsFrom {s : State} {g : Nat} (hd : s.dstate = .accumulatingSymbol)
    (hp : 0 < codeLen s.pend) (hend : g = 0 → s.streamBits ≤ s.boff) :
    (s.afterGap g).InRowsFrom (s.setDstate (gapState g)) := by
  rcases State.afterGap_cases s g hp with
      ⟨h1, h2, e⟩ | ⟨_, hg, hk, e⟩ | ⟨_, hg, hk, e⟩ | ⟨c, hk, hc, h0, e⟩ | ⟨c, hk, hc, h3, h6, e⟩ |
        ⟨c, hk, hc, h7, hlt, e⟩ | ⟨c, hk, hc, h7, hle, e⟩ <;> rw [e]
  · refine ⟨hd, 0, Nat.zero_le _, ?_⟩
    rw [gapState_of_le_two h1 h2, ← hd]
    rfl
  · exact ⟨1, by decide, State.decodeRow_unresolvable (gapState_boundary hg) hp hk⟩
  · exact ⟨1, by decide, State.decodeRow_eom (gapState_boundary hg) hp hk⟩
  · refine ⟨2, le_rfl, ?_⟩
    rw [gapState_of_le_six (.inl h0) (h0 ▸ Nat.zero_le _), State.decodeRows, State.decodeRow_letter_char hk hc]
    exact State.decodeRow_end (s := (s.takeChar c).setDstate .accumulatingSymbol) rfl (hend h0)
  · refine ⟨rfl, 1, le_rfl, ?_⟩
    rw [gapState_of_le_six (.inr h3) h6]
    exact State.decodeRow_letter_char hk hc
  · refine ⟨rfl, 1, le_rfl, ?_⟩
    rw [gapState_of_ge_seven h7]
    exact (State.decodeRow_word_char hk hc).trans (if_pos hlt)
  · refine ⟨1, by decide, ?_⟩
    rw [gapState_of_ge_seven h7]
    exact (State.decodeRow_word_char hk hc).trans (if_neg (Nat.not_lt.2 hle))

/-- The loop of R150 row by row: a pass that goes on takes two rows at most and advances BOFF, and the last one takes
three at most, or one at the end of the stream. -/
theorem State.decodeRows_decodeFrom {s : State} (m : Nat) (h : s.LoopTop) (hd : s.dstate = .accumulatingSymbol)
    (hm : s.streamBits - s.boff = m) : ∃ k ≤ 2 * m + 1, s.decodeRows k = s.decodeFrom := by
  induction m using Nat.strong_induction_on generalizing s with
  | _ m ih =>
  have hrow := State.decodeRow_accumulating hd
  rcases s.decodePass_cases with ⟨hc, -⟩ | ⟨hlt, hs, e⟩ | ⟨n, d, hn, hn0, hs, h5, e⟩ | ⟨n, d, g, hn, hn0, hs, h5, hg, e⟩
  · refine ⟨1, by omega, ?_⟩
    rw [State.decodeFrom_end h hc]
    exact State.decodeRow_end hd hc
  · refine ⟨1, by omega, ?_⟩
    have hn0 := (runFrom_spec s.getBit hlt).1
    rw [State.decodeFrom_stop h e, State.decodeRows, hrow, State.accumulateRow, if_neg (by omega), hs]
    rfl
  · refine ⟨1, by omega, ?_⟩
    rw [State.decodeFrom_stop h e, State.decodeRows, hrow, ← hn, State.accumulateRow, if_neg hn0.ne', hs]
    exact if_pos h5
  · have hlt : s.boff < s.streamBits := by
      by_contra hc
      rw [runFrom_of_le _ (Nat.not_lt.1 hc)] at hn
      omega
    rw [← hn, State.accumulateRow, if_neg hn0.ne', hs] at hrow
    replace hrow : s.decodeRow = (s.afterSymbol n g d).setDstate (gapState g) := by
      rw [hrow, hg]
      exact if_neg h5
    obtain ⟨hf, -, hp⟩ := State.afterSymbol_spec (dash := d) h hn h5 hg
    have hin : s.decodePass.InRowsFrom s.decodeRow := by
      rw [e, hrow]
      refine State.afterGap_inRowsFrom hd hp fun h0 => ?_
      rw [hf.streamBits, State.afterSymbol_boff, h0]
      exact (runFrom_eq_zero _ _ _).1 (hg.symm.trans h0)
    rw [State.decodeFrom_eq_pass h]
    cases hpass : s.decodePass with
    | stop t =>
      rw [hpass] at hin
      obtain ⟨k, hk, hrows⟩ := hin
      exact ⟨k + 1, by omega, hrows⟩
    | again t =>
      rw [hpass] at hin
      obtain ⟨hd', k, hk, hrows⟩ := hin
      obtain ⟨hf', htop, hadv⟩ := State.decodePass_again h hpass
      obtain ⟨k', hk', hrows'⟩ := ih (s.streamBits - t.boff) (by omega) htop hd' (by rw [hf'.streamBits])
      refine ⟨k + k' + 1, by omega, ?_⟩
      rw [State.decodeRows, State.decodeRows_add, hrows]
      exact hrows'

/-- Settles O41: the loop begins in `ACCUMULATING_SYMBOL`. -/
theorem decodeTableIsItsPseudocode : Obligations.DecodeTableIsItsPseudocode := by
  intro s
  have hd : s.beginDecode.dstate = .accumulatingSymbol := by
    obtain ⟨z, -, -, -, e⟩ := s.beginDecode_cases
    rw [e]
  obtain ⟨k, hk, hrows⟩ := State.decodeRows_decodeFrom _ s.beginDecode_top hd rfl
  have hcap : s.beginDecode.streamBits = s.arg0 * s.cfg.byteW := (frame_beginDecode s).streamBits
  refine ⟨k, by omega, hrows.trans s.decodeStream_eq.symm, ?_⟩
  exact s.decodeStream_spec.imp DecodeDone.dstate DecodeFailed.dstate

/-! ### The start of a DECODE -/

/-- The first state at the top of the loop of R150, with `z` leading zeros skipped (R27, R152, R153). -/
def State.decodeStart (s : State) (z : Nat) : State :=
  { s.clearFlags with boff := z, olen := 0, pend := 0, dstate := .accumulatingSymbol }

section
variable (s : State) (z : Nat)

@[simp] theorem State.decodeStart_boff : (s.decodeStart z).boff = z := rfl
@[simp] theorem State.decodeStart_olen : (s.decodeStart z).olen = 0 := rfl
@[simp] theorem State.decodeStart_pend : (s.decodeStart z).pend = 0 := rfl
@[simp] theorem State.decodeStart_err : (s.decodeStart z).err = none := rfl
@[simp] theorem State.decodeStart_streamBits : (s.decodeStart z).streamBits = s.arg0 * s.cfg.byteW := rfl
@[simp] theorem State.decodeStart_getBit : (s.decodeStart z).getBit = s.getBit := rfl

end

/-- A DECODE walks its stream from the first 1, or from the end where there is none (R153). -/
theorem State.decodeStream_of_first {s : State} {z : Nat} (hz : z ≤ s.arg0 * s.cfg.byteW)
    (h0 : ∀ k < z, s.getBit k = false) (h1 : z = s.arg0 * s.cfg.byteW ∨ s.getBit z = true) :
    s.clearFlags.decodeStream = (s.decodeStart z).decodeFrom ∧ (s.decodeStart z).LoopTop := by
  have e : s.clearFlags.beginDecode = s.decodeStart z := State.beginDecode_of_first hz h0 h1
  rw [State.decodeStream_eq, e]
  exact ⟨rfl, hz, codeWordOk_zero⟩

theorem State.decodeStream_of_head {s : State} {bs : List Bool} (h : s.HasBits 0 (true :: bs)) :
    s.clearFlags.decodeStream = (s.decodeStart 0).decodeFrom ∧ (s.decodeStart 0).LoopTop :=
  State.decodeStream_of_first (Nat.zero_le _) nofun (.inr (State.hasBits_cons.1 h).1)

/-! ### Streams that raise an error -/

/-- What a DECODE leaves that raises an error before its first character (R172). -/
theorem exec_decode_of_raise {s u : State} {z : Nat} {e : DecodeError} (hbuf : s.arg0 ≤ s.cfg.bufUnits)
    (hfit : 1 ≤ s.cfg.txtBytes) (hs : s.clearFlags.decodeStream = (s.decodeStart z).decodeFrom)
    (h : (s.decodeStart z).decodeFrom = u.raiseDecodeError e) (ho : u.olen = 0) :
    ∃ t, exec .decode s = .next t ∧ t.err = some e ∧ t.dstate = .error ∧ t.res0 = 2 ^ s.cfg.wOff - 1 := by
  have hu := hs.trans h
  have hcfg := s.clearFlags.decodeStream_frame.cfg
  rw [hu] at hcfg
  refine ⟨u.raiseDecodeError e, (exec_decode_iff s _).2 ⟨hbuf, ?_, hu.symm⟩, rfl, rfl, ?_⟩
  · rw [hu, State.raiseDecodeError_olen, ho]
    exact hfit
  · rw [State.raiseDecodeError_res0, errorValue, show u.cfg = s.cfg from hcfg]

/-- A run of another length than a symbol's is an error, however many symbols are pending (R155, R173). -/
theorem State.decodeFrom_malformed {s : State} (h : s.LoopTop) (hc : s.boff < s.streamBits)
    (h1 : s.runLength s.arg0 s.boff ≠ 1) (h3 : s.runLength s.arg0 s.boff ≠ 3) :
    s.decodeFrom = s.raiseDecodeError .malformedRun := by
  have hn : runSymbol (s.runLength s.arg0 s.boff) = none := by rw [runSymbol, if_neg h1, if_neg h3]
  rw [State.runLength_eq] at hn
  apply State.decodeFrom_stop h
  rcases s.decodePass_cases with ⟨he, -⟩ | ⟨-, -, e⟩ | ⟨n, d, rfl, -, hd, -⟩ | ⟨n, d, g, rfl, -, hd, -⟩
  · omega
  · exact e
  · rw [hn] at hd; cases hd
  · rw [hn] at hd; cases hd

/-- Settles O44: the first pass begins at the first 1, behind the leading zeros. -/
theorem malformedFirstRunIsErrorOne : Obligations.MalformedFirstRunIsErrorOne := by
  intro s z hbuf htxt hz h0 hz1 h1 h3
  obtain ⟨hs, htop⟩ := State.decodeStream_of_first hz.le h0 (.inr hz1)
  exact exec_decode_of_raise hbuf htxt hs (State.decodeFrom_malformed htop hz h1 h3) rfl

/-- Settles O45: PEND is not empty when the gap leads to `resolve()`, and nothing is found for it. -/
theorem unresolvableFirstCodeIsErrorTwo : Obligations.UnresolvableFirstCodeIsErrorTwo := by
  intro s w hbuf htxt hw hl hk hb hc
  obtain ⟨bs, hhead⟩ := codeBits_head hl
  obtain ⟨hs, htop⟩ := State.decodeStream_of_head (hhead ▸ hb)
  obtain ⟨g, -, hg3, e, -⟩ := State.decodeFrom_word htop hw hl rfl hb (by simpa using hc)
  rcases State.afterGap_cases ((s.decodeStart 0).atGap w g) g hl with
      ⟨-, h2, -⟩ | ⟨d, -, -, e2⟩ | ⟨_, -, h2, -⟩ | ⟨_, h2, -⟩ | ⟨_, h2, -⟩ | ⟨_, h2, -⟩ | ⟨_, h2, -⟩
  · omega
  · exact exec_decode_of_raise hbuf htxt hs (e.trans (congrArg Pass.finish e2)) rfl
  all_goals exact absurd (hk.symm.trans h2) nofun

/-- Symbols by their last one. -/
theorem symbols_concat (ds : List Bool) (d : Bool) :
    (ds ++ [d]).flatMap symbolBits =
      ds.flatMap symbolBits ++ List.replicate (if d then 3 else 1) true ++ [false] := by
  simp [symbolBits_eq]

theorem symbols_concat_length (ds : List Bool) (d : Bool) :
    ((ds ++ [d]).flatMap symbolBits).length = (ds.flatMap symbolBits).length + (if d then 3 else 1) + 1 := by
  rw [symbols_concat, List.length_append, List.length_append, List.length_replicate]
  rfl

/-- The bits up to the last 1-run begin with a 1. -/
theorem symbols_ones_head (ds : List Bool) (d : Bool) :
    ∃ cs, ds.flatMap symbolBits ++ List.replicate (if d then 3 else 1) true = true :: cs := by
  cases d <;> exact symbols_head ds _

/-- A stream of symbols: its bits up to the last 1-run, and the 0 behind it. -/
theorem State.hasBits_symbols_concat {s : State} {ds : List Bool} {d : Bool} :
    s.HasBits 0 ((ds ++ [d]).flatMap symbolBits) ↔
      s.HasBits 0 (ds.flatMap symbolBits ++ List.replicate (if d then 3 else 1) true) ∧
        s.getBit ((ds.flatMap symbolBits).length + if d then 3 else 1) = false := by
  rw [symbols_concat, State.hasBits_append, State.hasBits_cons, List.length_append, List.length_replicate, Nat.zero_add]
  exact and_congr_right fun _ => and_iff_left (.nil _ _)

/-- Settles O47: the five symbols are read into PEND, and the run behind them is judged first. -/
theorem malformedRunWinsOverASixthSymbol : Obligations.MalformedRunWinsOverASixthSymbol := by
  intro s ds hbuf htxt hlen hb hc h1 h3
  obtain ⟨cs, hhead⟩ := symbols_head ds []
  obtain ⟨hs, htop⟩ := State.decodeStream_of_head (hhead ▸ hb)
  obtain ⟨e, htop'⟩ := State.decodeFrom_symbols htop ds (by simp [hlen]) hb (by simpa using hc)
  have hoff : ((s.decodeStart 0).afterSymbols ds).boff = (ds.flatMap symbolBits).length := Nat.zero_add _
  refine exec_decode_of_raise hbuf htxt hs (e.trans (State.decodeFrom_malformed htop' ?_ ?_ ?_)) rfl
  · rw [hoff]; exact hc
  · rw [hoff]; exact h1
  · rw [hoff]; exact h3

/-- Of a last run of ones, its first one. -/
theorem State.HasBits.first_one {s : State} {o n : Nat} {bs : List Bool} (hn : 0 < n)
    (h : s.HasBits o (bs ++ List.replicate n true)) : s.HasBits o (bs ++ [true]) := by
  obtain ⟨n, rfl⟩ := Nat.exists_eq_succ_of_ne_zero hn.ne'
  rw [List.replicate_succ, List.append_cons] at h
  exact (State.hasBits_append.1 h).1

/-- Settles O46: five symbols are read into PEND, and the sixth finds it full. -/
theorem sixthSymbolIsErrorThree : Obligations.SixthSymbolIsErrorThree := by
  intro s ds hbuf htxt hlen hb hc
  rcases ds.eq_nil_or_concat' with rfl | ⟨ds, d, rfl⟩
  · cases hlen
  have hfive : ds.length = 5 := by simpa using hlen
  rw [symbols_concat_length] at hc
  obtain ⟨hones, hzero⟩ := State.hasBits_symbols_concat.1 hb
  obtain ⟨cs, hhead⟩ := symbols_ones_head ds d
  obtain ⟨hs, htop⟩ := State.decodeStream_of_head (hhead ▸ hones)
  have hpos : 0 < if d then 3 else 1 := by cases d <;> decide
  obtain ⟨e, htop'⟩ := State.decodeFrom_symbols htop ds (by simp [hfive]) (hones.first_one hpos)
    (by rw [State.decodeStart_boff, State.decodeStart_streamBits]; omega)
  have hoff : ((s.decodeStart 0).afterSymbols ds).boff = (ds.flatMap symbolBits).length := Nat.zero_add _
  have hfull : codeLen ((s.decodeStart 0).afterSymbols ds).pend = 5 :=
    (codeWordOk_pushAll ds codeWordOk_zero (by simp [hfive])).2.trans (by simp [hfive])
  refine exec_decode_of_raise hbuf htxt hs (e.trans (State.decodeFrom_sixth htop' d ?_ ?_ (.inr ?_) hfull)) rfl
  · rw [hoff]
    exact Nat.le_of_lt hc
  · rw [hoff]
    have hrun := (State.hasBits_append.1 hones).2
    rwa [Nat.zero_add] at hrun
  · rw [hoff]
    exact hzero

/-! ### Streams that decode to a text -/

/-- `u` is further on in the same DECODE than `s`: the characters `l` have been appended (R164). -/
structure Appended (s u : State) (l : List Byte) : Prop where
  err : u.err = s.err
  olen : u.olen = s.olen + l.length
  kept : ∀ k < s.olen, u.cell k = s.cell k
  text : ∀ k < l.length, u.cell (s.olen + k) = l.getD k 0

/-- DECODE, from `s` on, ends without an error and appends the characters `l` (R165). -/
def State.FinishesWith (s : State) (l : List Byte) : Prop := ∃ u, s.decodeFrom = u.finishDecode ∧ Appended s u l

theorem Appended.trans {s t u : State} {l m : List Byte} (h : Appended s t l) (k : Appended t u m) :
    Appended s u (l ++ m) where
  err := k.err.trans h.err
  olen := by rw [k.olen, h.olen, List.length_append, Nat.add_assoc]
  kept i hi := (k.kept i (by rw [h.olen]; omega)).trans (h.kept i hi)
  text i hi := by
    rw [List.length_append] at hi
    rcases Nat.lt_or_ge i l.length with hl | hl
    · rw [k.kept _ (by rw [h.olen]; omega), h.text i hl, List.getD_append _ _ _ _ hl]
    · have e := k.text (i - l.length) (by omega)
      rw [h.olen, show s.olen + l.length + (i - l.length) = s.olen + i by omega] at e
      rw [e, List.getD_append_right _ _ _ _ hl]

theorem Appended.nil {s u : State} (he : u.err = s.err) (ho : u.olen = s.olen) (hc : ∀ k, u.cell k = s.cell k) :
    Appended s u [] where
  err := he
  olen := ho
  kept k _ := hc k
  text := nofun

/-- What `takeChar` does to the text (R163, R164). -/
theorem appended_takeChar (s : State) (c : Byte) : Appended s (s.takeChar c) [c] where
  err := rfl
  olen := rfl
  kept k hk := by rw [State.cell_takeChar, if_neg (Nat.ne_of_lt hk)]
  text k hk := by
    obtain rfl : k = 0 := Nat.lt_one_iff.1 hk
    rw [State.cell_takeChar]
    exact if_pos rfl

theorem State.FinishesWith.of_appended {s t : State} {l m : List Byte} (e : s.decodeFrom = t.decodeFrom)
    (h : Appended s t l) (k : t.FinishesWith m) : s.FinishesWith (l ++ m) := by
  obtain ⟨u, eu, hu⟩ := k
  exact ⟨u, e.trans eu, h.trans hu⟩

/-- At the end of the stream nothing is appended (R154). -/
theorem State.finishesWith_nil_of_end {s : State} (h : s.LoopTop) (hc : s.streamBits ≤ s.boff) : s.FinishesWith [] :=
  ⟨s, State.decodeFrom_end h hc, .nil rfl rfl fun _ => rfl⟩

/-- What a DECODE leaves when its stream decodes to `l` (R165). -/
theorem exec_decode_of_finishesWith {s : State} {z : Nat} {l : List Byte} (hbuf : s.arg0 ≤ s.cfg.bufUnits)
    (hfit : l.length + 1 ≤ s.cfg.txtBytes) (hs : s.clearFlags.decodeStream = (s.decodeStart z).decodeFrom)
    (h : (s.decodeStart z).FinishesWith l) :
    ∃ t, exec .decode s = .next t ∧ t.err = none ∧ t.dstate = .done ∧ t.res0 = l.length ∧ t.HasText l ∧
      t.cell t.res0 = 0 := by
  obtain ⟨u, eu, hu⟩ := h
  have hlen : u.olen = l.length := hu.olen.trans (Nat.zero_add _)
  refine ⟨u.finishDecode, (exec_decode_iff s _).2 ⟨hbuf, ?_, (hs.trans eu).symm⟩, hu.err, rfl, hlen, fun k hk => ?_, ?_⟩
  · rw [hs, eu, State.finishDecode_olen, hlen]
    exact hfit
  · have e := hu.text k hk
    rw [State.decodeStart_olen, Nat.zero_add] at e
    rw [State.cell_finishDecode, if_neg (by omega), e]
  · rw [State.cell_finishDecode]
    exact if_pos rfl

/-- A character whose code has been read and which no signal follows is the last one, whatever the gap is but the one
inside a code (R159, R161, R162). -/
theorem State.afterGap_last {s : State} {c : Byte} {g : Nat} (h : s.LoopTop) (hk : lookupCode s.pend = some c)
    (hc : c ≠ 0) (hg : g = 0 ∨ 3 ≤ g) (hend : s.streamBits ≤ s.boff) :
    ∃ u, (s.afterGap g).finish = u.finishDecode ∧ Appended s u [c] := by
  rcases State.afterGap_cases s g (codeLen_pos_of_lookup hk) with
      ⟨h0, h2, -⟩ | ⟨_, -, h2, -⟩ | ⟨_, -, h2, -⟩ | ⟨c', h2, -, -, e⟩ | ⟨c', h2, -, -, -, e⟩ |
        ⟨_, -, -, -, h2, -⟩ | ⟨c', h2, -, -, -, e⟩
  · omega
  · rw [hk] at h2; cases h2
  · rw [hk] at h2; cases h2; exact absurd rfl hc
  · rw [hk] at h2; cases h2
    exact ⟨_, by rw [e]; rfl, appended_takeChar s c⟩
  · rw [hk] at h2; cases h2
    have hf := frame_takeLetter s c
    have htop : ((s.takeChar c).setDstate .accumulatingSymbol).LoopTop := h.of_frame hf rfl rfl
    rw [e, Pass.finish_again]
    refine ⟨_, State.decodeFrom_end htop (by rw [hf.streamBits]; exact hend), ?_⟩
    exact (appended_takeChar s c).trans (m := []) (.nil rfl rfl fun _ => rfl)
  · omega
  · rw [hk] at h2; cases h2
    have hd : Appended s (s.setDstate .atWordBoundary) [] := .nil rfl rfl fun _ => rfl
    exact ⟨_, by rw [e]; rfl, hd.trans (appended_takeChar _ c)⟩

/-- A letter with a gap of `3 + z` and more signal behind it (R159, R161). -/
theorem State.FinishesWith.letter {s : State} (h : s.LoopTop) {w c : Byte} {z : Nat} {bs : List Bool} {l : List Byte}
    (hw : codeWordOk w = true) (hk : lookupCode w = some c) (hc0 : c ≠ 0) (hp : s.pend = 0)
    (hb : s.HasBits s.boff (codeBits w ++ (List.replicate z false ++ true :: bs)))
    (hc : s.boff + (codeBits w ++ (List.replicate z false ++ true :: bs)).length ≤ s.streamBits)
    (rest : ∀ t : State, t.LoopTop → DecodeFrame s t → t.pend = 0 → t.boff = s.boff + (codeBits w).length + z →
      t.HasBits t.boff (true :: bs) → t.FinishesWith l) :
    s.FinishesWith (c :: (if z ≤ 3 then [] else [spaceChar]) ++ l) := by
  simp only [List.length_append, List.length_replicate, List.length_cons] at hc
  rw [← List.append_assoc, State.hasBits_append] at hb
  obtain ⟨hb1, hb2⟩ := hb
  simp only [List.length_append, List.length_replicate, ← Nat.add_assoc] at hb2
  have hone : s.HasBits s.boff (codeBits w ++ List.replicate z false ++ [true]) := by
    refine State.hasBits_append.2 ⟨hb1, State.hasBits_cons.2 ⟨?_, .nil _ _⟩⟩
    simpa only [List.length_append, List.length_replicate, ← Nat.add_assoc] using (State.hasBits_cons.1 hb2).1
  obtain ⟨t, e, ht, hf, htp, htb, hte, -, hto, htc⟩ := State.decodeFrom_letter h hw (codeLen_pos_of_lookup hk) hk hc0
    hp hone (by omega)
  refine .of_appended e ⟨hte, ?_, fun k hk => ?_, fun k hk => ?_⟩
    (rest t ht hf htp htb (by rw [htb]; exact hb2.of_frame hf))
  · rw [hto]
    split_ifs <;> rfl
  · rw [htc, if_neg (by omega), if_neg (by omega)]
  · by_cases hz : z ≤ 3
    · rw [if_pos hz] at hk ⊢
      obtain rfl : k = 0 := Nat.lt_one_iff.1 hk
      rw [htc]
      exact if_pos rfl
    · rw [if_neg hz] at hk ⊢
      obtain rfl | rfl : k = 0 ∨ k = 1 := Nat.le_one_iff_eq_zero_or_eq_one.1 (Nat.le_of_lt_succ hk)
      · rw [htc]
        exact if_pos rfl
      · rw [htc, if_neg (by omega), if_pos ⟨by omega, rfl⟩]
        rfl

/-! ### Streams without a complete code -/

/-- A stream that gives no character leaves the NUL in cell 0 (R165). -/
theorem exec_decode_of_finishesWith_nil {s : State} {z : Nat} (hbuf : s.arg0 ≤ s.cfg.bufUnits)
    (hfit : 1 ≤ s.cfg.txtBytes) (hs : s.clearFlags.decodeStream = (s.decodeStart z).decodeFrom)
    (h : (s.decodeStart z).FinishesWith []) :
    ∃ t, exec .decode s = .next t ∧ t.err = none ∧ t.dstate = .done ∧ t.res0 = 0 ∧ t.cell 0 = 0 := by
  obtain ⟨t, ht, he, hd, hr, -, hn⟩ := exec_decode_of_finishesWith (l := []) hbuf hfit hs h
  rw [hr] at hn
  exact ⟨t, ht, he, hd, hr, hn⟩

/-- Settles O48: the leading zeros are the whole stream. -/
theorem decodeOfSilenceIsEmpty : Obligations.DecodeOfSilenceIsEmpty := by
  intro s hbuf htxt hsil
  obtain ⟨hs, htop⟩ := State.decodeStream_of_first le_rfl hsil (.inl rfl)
  exact exec_decode_of_finishesWith_nil hbuf htxt hs (State.finishesWith_nil_of_end htop le_rfl)

/-- Settles O49: the last 0 is a gap inside a code, so PEND is kept, and the end of the stream is found there. -/
theorem codeCutAfterAGapIsDropped : Obligations.CodeCutAfterAGapIsDropped := by
  intro s ds hbuf htxt hlen hb hc
  rcases ds.eq_nil_or_concat' with rfl | ⟨ds, d, rfl⟩
  · obtain ⟨hs, htop⟩ := State.decodeStream_of_first (s := s) (Nat.zero_le _) nofun (.inl hc.symm)
    exact exec_decode_of_finishesWith_nil hbuf htxt hs (State.finishesWith_nil_of_end htop hc.le)
  rw [symbols_concat_length] at hc
  rw [List.length_append] at hlen
  obtain ⟨hones, hzero⟩ := State.hasBits_symbols_concat.1 hb
  obtain ⟨cs, hhead⟩ := symbols_ones_head ds d
  obtain ⟨hs, htop⟩ := State.decodeStream_of_head (hhead ▸ hones)
  have hgap : 1 = runFrom s.getBit (s.arg0 * s.cfg.byteW) ((ds.flatMap symbolBits).length + if d then 3 else 1) := by
    refine (runFrom_eq _ false Nat.one_pos hc.ge (fun k hk => ?_) (.inl hc.symm)).symm
    obtain rfl := Nat.lt_one_iff.1 hk
    exact hzero
  obtain ⟨e, htop', -⟩ := State.decodeFrom_code htop ds d (g := 1) (by simpa using hlen) hones
    (by rw [State.decodeStart_boff, State.decodeStart_streamBits]; omega)
    (.inr (by simpa using hzero)) (by simpa using hgap)
  refine exec_decode_of_finishesWith_nil hbuf htxt hs ?_
  refine .of_appended (t := (s.decodeStart 0).afterCode ds d 1) (l := []) e ?_ ?_
  · exact .nil (State.afterCode_err ..) (State.afterCode_olen ..) fun _ => rfl
  · refine State.finishesWith_nil_of_end htop' ?_
    rw [(frame_afterCode ..).streamBits, State.afterCode_boff, State.decodeStart_boff, State.decodeStart_streamBits]
    omega

/-! ### Streams of one and two letters -/

/-- Settles O50: no gap is there, and the code is resolved all the same. -/
theorem codeCutInItsLastSymbolIsResolved : Obligations.CodeCutInItsLastSymbolIsResolved := by
  intro s w c hbuf htxt hw hk hc0 hb hc
  obtain ⟨ds, d, hds, hlen⟩ := codeSymbols_split (codeLen_pos_of_lookup hk)
  have hfive := ((codeWordOk_iff w).1 hw).1
  rw [hds, symbols_concat_length, Nat.add_sub_cancel] at hc
  rw [hds, symbols_concat, List.dropLast_concat] at hb
  obtain ⟨cs, hhead⟩ := symbols_ones_head ds d
  obtain ⟨hs, htop⟩ := State.decodeStream_of_head (hhead ▸ hb)
  obtain ⟨e, htop', -⟩ := State.decodeFrom_code htop ds d (g := 0) (by simp; omega) hb (by simp [hc])
    (.inl (by simp [hc])) (runFrom_of_le _ (by simp [hc])).symm
  have hpend : ((s.decodeStart 0).afterCode ds d 0).pend = w := by
    rw [State.afterCode_pend, ← hds]
    exact pushAll_codeSymbols w hw
  obtain ⟨u, eu, hu⟩ := State.afterGap_last htop' (by rw [hpend]; exact hk) hc0 (.inl rfl) (by
    rw [(frame_afterCode ..).streamBits, State.afterCode_boff]
    simp [hc])
  have hcode : Appended (s.decodeStart 0) ((s.decodeStart 0).afterCode ds d 0) [] :=
    .nil (State.afterCode_err ..) (State.afterCode_olen ..) fun _ => rfl
  obtain ⟨t, ht, he, hd, hr, htext, hn⟩ :=
    exec_decode_of_finishesWith (l := [c]) hbuf htxt hs ⟨u, e.trans eu, hcode.trans hu⟩
  rw [hr] at hn
  exact ⟨t, ht, he, hd, hr, htext 0 Nat.one_pos, hn⟩

/-- A code ends with three zeros (R136). -/
theorem State.HasBits.codeBits_zeros {s : State} {o : Nat} {w : Byte} (hl : 1 ≤ codeLen w)
    (h : s.HasBits o (codeBits w)) : ∀ k < 3, s.getBit (o + ((codeBits w).length - 3) + k) = false := by
  obtain ⟨ds, d, e, -⟩ := codeSymbols_split hl
  have hlen : (codeBits w).length - 3 = (ds.flatMap symbolBits).length + (if d then 3 else 1) := by
    rw [codeBits_length e, Nat.add_sub_cancel]
  rw [codeBits_split e, State.hasBits_append, List.length_append, List.length_replicate, ← hlen] at h
  exact (State.hasBits_replicate (n := 3)).1 h.2

/-- A letter with silence behind it: the character, and no space however long the silence is (R161, R169). -/
theorem State.finishesWith_lastLetter {s : State} (h : s.LoopTop) {w c : Byte} (hw : codeWordOk w = true)
    (hk : lookupCode w = some c) (hc0 : c ≠ 0) (hp : s.pend = 0) (hb : s.HasBits s.boff (codeBits w))
    (hc : s.boff + (codeBits w).length ≤ s.streamBits)
    (hsil : ∀ p, s.boff + (codeBits w).length ≤ p → p < s.streamBits → s.getBit p = false) : s.FinishesWith [c] := by
  have hl := codeLen_pos_of_lookup hk
  obtain ⟨g, hg, hg3, e, htop⟩ := State.decodeFrom_word h hw hl hp hb hc
  have hend : s.boff + ((codeBits w).length - 3) + g = s.streamBits := by
    have hlen : 3 ≤ (codeBits w).length := by
      obtain ⟨ds, d, es, -⟩ := codeSymbols_split hl
      rw [codeBits_length es]
      exact Nat.le_add_left _ _
    have hrun : runFrom s.getBit s.streamBits (s.boff + ((codeBits w).length - 3)) =
        s.streamBits - (s.boff + ((codeBits w).length - 3)) := by
      refine runFrom_eq _ false (by omega) (by omega) (fun k hk => ?_) (.inl (by omega))
      rcases Nat.lt_or_ge k 3 with hk3 | hk3
      · exact hb.codeBits_zeros hl k hk3
      · exact hsil _ (by omega) (by omega)
    omega
  obtain ⟨u, eu, hu⟩ := State.afterGap_last htop hk hc0 (.inr hg3) (by
    rw [(frame_atGap ..).streamBits]
    exact hend.ge)
  have hcode : Appended s (s.atGap w g) [] := .nil rfl rfl fun _ => rfl
  exact ⟨u, e.trans eu, hcode.trans hu⟩

/-- Settles O51: the gap decides about the space, and the second letter has silence behind it. -/
theorem gapLengthSeparatesLettersAndWords : Obligations.GapLengthSeparatesLettersAndWords := by
  intro s v w a b z hbuf htxt hv hw hkv hkw ha hb hbits hc hsil
  obtain ⟨bs, hhead⟩ := codeBits_head (codeLen_pos_of_lookup hkw)
  have hassoc : codeBits v ++ List.replicate z false ++ codeBits w =
      codeBits v ++ (List.replicate z false ++ true :: bs) := by rw [hhead, List.append_assoc]
  rw [hassoc] at hbits hc hsil
  obtain ⟨cs, hfirst⟩ := codeBits_head (codeLen_pos_of_lookup hkv)
  obtain ⟨hs, htop⟩ : s.clearFlags.decodeStream = (s.decodeStart 0).decodeFrom ∧ (s.decodeStart 0).LoopTop :=
    State.decodeStream_of_head (hfirst ▸ (State.hasBits_append.1 hbits).1)
  have hlen : (codeBits v ++ (List.replicate z false ++ true :: bs)).length =
      (codeBits v).length + z + (codeBits w).length := by
    rw [hhead]
    simp only [List.length_append, List.length_replicate, Nat.add_assoc]
  have hfin : (s.decodeStart 0).FinishesWith (a :: (if z ≤ 3 then [] else [spaceChar]) ++ [b]) := by
    refine .letter htop hv hkv ha rfl hbits (by simpa using hc) fun t ht hf htp htb htbits => ?_
    rw [State.decodeStart_boff, Nat.zero_add] at htb
    refine State.finishesWith_lastLetter ht hw hkw hb htp (hhead ▸ htbits) ?_ fun p hp1 hp2 => ?_
    · rw [hf.streamBits, htb, ← hlen]
      exact hc
    · rw [hf.streamBits] at hp2
      rw [hf.getBit]
      exact hsil p (by rwa [hlen, ← htb]) hp2
  by_cases hz : z ≤ 3
  · rw [if_pos hz] at hfin
    simp only [if_pos hz]
    exact exec_decode_of_finishesWith (l := [a, b]) hbuf (Nat.le_of_succ_le htxt) hs hfin
  · rw [if_neg hz] at hfin
    simp only [if_neg hz]
    exact exec_decode_of_finishesWith (l := [a, spaceChar, b]) hbuf htxt hs hfin

/-! ### The round trip -/

/-- Where a gap is due, the rest of the stream has four zeros more exactly where the rest of the text has a space. -/
theorem textBits_false_eq (l : List Byte) :
    ∃ z, textBits false l = List.replicate z false ++ textBits true l ∧
      normalizeFrom false l = (if z ≤ 3 then [] else [spaceChar]) ++ normalizeFrom true l := by
  cases l with
  | nil => exact ⟨0, rfl, rfl⟩
  | cons c l =>
    by_cases hsep : isSep c = true
    · obtain ⟨hnul, hal⟩ := (isSep_iff c).1 hsep
      exact ⟨4, by simp [textBits, hnul, hal], by simp [normalizeFrom, hnul, hal]⟩
    · refine ⟨0, ?_, ?_⟩
      · rw [textBits_true, List.dropWhile_cons_of_neg hsep]; rfl
      · rw [normalizeFrom_true, List.dropWhile_cons_of_neg hsep]; rfl

/-- A letter or digit is not NUL after folding. -/
theorem upper_ne_zero {c : Byte} (h : alnum c = true) : upper c ≠ 0 := by
  intro h0
  have hn := not_isNul_of_alnum h
  rw [← isNul_upper, h0] at hn
  cases hn

/-- DECODE of the stream of a text appends its normal form and stops at the end-of-message code (R174, R175). -/
theorem State.finishesWith_normalize {s : State} (l : List Byte) (h : s.LoopTop) (hp : s.pend = 0)
    (hb : s.HasBits s.boff (encodedBits l)) (hc : s.boff + (encodedBits l).length ≤ s.streamBits) :
    s.FinishesWith (normalize l) := by
  induction l generalizing s with
  | nil =>
    obtain ⟨u, e, -, he, ho, hcell⟩ := State.decodeFrom_eom h hp hb hc
    exact ⟨u, e, .nil he ho hcell⟩
  | cons c l ih =>
    by_cases hnul : isNul c = true
    · have e : encodedBits (c :: l) = codeBits eomCode := by simp [encodedBits, textBits, hnul]
      rw [e] at hb hc
      obtain ⟨u, e, -, he, ho, hcell⟩ := State.decodeFrom_eom h hp hb hc
      rw [show normalize (c :: l) = [] by simp [normalize, normalizeFrom, hnul]]
      exact ⟨u, e, .nil he ho hcell⟩
    by_cases hal : alnum c = true
    · obtain ⟨w, hw, hok, -, hk⟩ := alnum_lookup c hal
      obtain ⟨z, hbits, hnorm⟩ := textBits_false_eq l
      obtain ⟨bs, hhead⟩ := stream_head l
      have e : encodedBits (c :: l) = codeBits w ++ (List.replicate z false ++ true :: bs) := by
        simp [encodedBits, textBits, hnul, hal, hw, hbits, ← hhead]
      have en : normalize (c :: l) = upper c :: (if z ≤ 3 then [] else [spaceChar]) ++ normalize l := by
        simp [normalize, normalizeFrom, hnul, hal, hnorm]
      rw [e] at hb hc
      rw [en]
      refine .letter h hok hk (upper_ne_zero hal) hp hb hc fun t ht hf htp htb hbits => ?_
      rw [← hhead] at hbits hc
      refine ih ht htp hbits ?_
      rw [hf.streamBits, htb]
      simpa [encodedBits, Nat.add_assoc] using hc
    · have e : encodedBits (c :: l) = encodedBits l := by simp [encodedBits, textBits, hnul, hal]
      rw [e] at hb hc
      rw [show normalize (c :: l) = normalize l by simp [normalize, normalizeFrom, hnul, hal]]
      exact ih h hp hb hc

/-- A stream of units that begins with what ENCODE writes for a text decodes to its normal form. -/
theorem exec_decode_of_encodedBits {s : State} {l : List Byte} (hbuf : s.arg0 ≤ s.cfg.bufUnits)
    (hfit : (normalize l).length + 1 ≤ s.cfg.txtBytes) (hb : s.HasBits 0 (encodedBits l))
    (hc : (encodedBits l).length ≤ s.arg0 * s.cfg.byteW) :
    ∃ t, exec .decode s = .next t ∧ t.err = none ∧ t.dstate = .done ∧ t.res0 = (normalize l).length ∧
      t.HasText (normalize l) ∧ t.cell t.res0 = 0 := by
  obtain ⟨bs, hhead⟩ : ∃ bs, encodedBits l = true :: bs := stream_head l
  obtain ⟨hs, htop⟩ := State.decodeStream_of_head (hhead ▸ hb)
  exact exec_decode_of_finishesWith hbuf hfit hs (State.finishesWith_normalize l htop rfl hb (by simpa using hc))

/-- Settles O43: the stream ENCODE leaves lies in the units it counts, and DECODE reads no bit behind it. -/
theorem decodeInvertsEncode : Obligations.DecodeInvertsEncode := by
  intro s t n hv h hn hbuf htxt
  obtain ⟨-, -, rfl⟩ := (exec_encode_iff_fits s t).1 h
  obtain ⟨-, hres, hbits, -⟩ := s.clearFlags.encodeText_bits
  have hcfg : s.clearFlags.encodeText.cfg = s.cfg := by
    obtain ⟨k, -, e⟩ := s.clearFlags.encodeText_eq
    rw [e]; rfl
  have hcap : (encodedBits s.text).length ≤ n * s.cfg.byteW :=
    (le_ceilDiv_mul _ hv.1).trans (Nat.mul_le_mul_right _ (hres ▸ hn))
  generalize s.clearFlags.encodeText = v at hcfg hbits
  rw [← hcfg] at hbuf htxt hcap
  exact exec_decode_of_encodedBits (s := { v with arg0 := n }) hbuf htxt hbits hcap

end Sys2Proof.Machine
end

section
/-! PROOFS. The statements of 60_exceptions.md: what a DECODE that raises an error leaves, how RES0 and ERR agree
(section 1), and what an illegal command word does (section 2). -/

namespace Sys2Proof.Machine

/-! ### Decode errors -/

/-- A DECODE that leaves an error has raised it (R183). -/
theorem exec_decode_failed {s t : State} (h : exec .decode s = .next t) (he : t.err ≠ none) :
    DecodeFailed s.clearFlags t := by
  obtain ⟨-, -, rfl⟩ := (exec_decode_iff s t).1 h
  exact s.clearFlags.decodeStream_spec.resolve_left fun hd => he hd.err

/-- Settles O38: a DECODE with an error is a `DecodeFailed` of the state with the flags clear. -/
theorem decodeErrorEntry : Obligations.DecodeErrorEntry := by
  intro s t h he
  have hf := exec_decode_failed h he
  refine ⟨hf.frame.eq.trans ?_, hf.frame.getBit⟩
  rw [hf.res0, hf.dstate]
  rfl

/-- A text that fits TXT is no error value of RES0, by the bound of R8. -/
theorem ne_errorValue_of_fits {c : Config} {n : Nat} (hv : c.Valid) (hn : n + 1 ≤ c.txtBytes) : n ≠ errorValue c := by
  obtain ⟨-, hoff, -, htxt⟩ := hv
  obtain ⟨hpow, -⟩ := two_pow_wOff hoff
  rw [errorValue]
  omega

/-- Settles O39: without an error RES0 counts a text that fits TXT, with one it is the error value. -/
theorem decodeResultAgreesWithErr : Obligations.DecodeResultAgreesWithErr := by
  intro s t hv h
  by_cases he : t.err = none
  · obtain ⟨hd, hfit⟩ := exec_decode_done h he
    have hres : t.res0 ≠ errorValue s.cfg := hd.res0 ▸ ne_errorValue_of_fits hv hfit
    exact iff_of_false hres (not_not.2 he)
  · exact iff_of_true (exec_decode_failed h he).res0 he

/-! ### Illegal command words -/

/-- A CMD write of a word that is no command runs none (R186). -/
theorem writeCmd_of_illegal {w : Byte} (hw : ¬ (1 ≤ w.toNat ∧ w.toNat ≤ 0xB)) (s : State) :
    writeCmd w s = .next s.illegalCommand := by
  obtain ⟨-, hlegal, hrange⟩ := decoderAcceptsExactlyTheElevenWords
  rw [writeCmd]
  cases hd : decode w with
  | ok i => exact absurd ((hrange w).1 ((hlegal w).1 ⟨i, hd⟩)) hw
  | error r => rfl

/-- Settles O6: a word the decoder rejects gives `State.illegalCommand`; a command that completes leaves ILL clear. -/
theorem illegalWordSetsIllOnly : Obligations.IllegalWordSetsIllOnly := by
  refine ⟨fun s v rest hv hq hlt hillegal => ?_, fun s t i h => ?_⟩
  · have hw : (BitVec.ofNat 8 v).toNat = v := by rw [BitVec.toNat_ofNat, Nat.mod_eq_of_lt hlt]
    calc step s
      _ = hostWriteReg 0 v { s with hostQueue := rest } := step_serves hv hq
      _ = writeCmd (BitVec.ofNat 8 v) { s with hostQueue := rest } := hostWriteReg_cmd hlt _
      _ = .next { s with hostQueue := rest, err := none, notFound := false, illegal := true } :=
        writeCmd_of_illegal (hw.symm ▸ hillegal) _
  · obtain ⟨-, -, hill, -⟩ := (exec_next h).flags
    exact hill

end Sys2Proof.Machine
end

section
/-! PROOFS. The statements of 70_reset_and_hazards.md: an engine without a host transaction waits (section 1), and every
command completes with the operands reset leaves (section 2). -/

namespace Sys2Proof.Machine

/-! ### The idle engine -/

/-- Settles O7: the step finds no transaction to serve; reset leaves none pending. -/
theorem idleEngineWaits : Obligations.IdleEngineWaits := by
  have hidle (s : State) (hv : s.cfg.Valid) (hq : s.hostQueue = []) : step s = .next s := by
    rw [step, serveNext, if_pos hv, hq]
  exact ⟨hidle, fun c hv => hidle (State.resetWith c) hv rfl⟩

/-! ### The first command after reset -/

/-- The command placed by `State.withFetchWord` is what the next step runs (R42, R71). -/
theorem step_withFetchWord_encode {s : State} (hv : s.cfg.Valid) (i : Instr) :
    step (s.withFetchWord 8 (encode i).toNat) = exec i s := by
  rw [step_withFetchWord hv, writeCmd, decode_encode]

/-- An outcome has one next state. -/
theorem forall_next_of_eq {o : Host.Outcome State Fault Refusal} {u : State} {P : State → Prop} (h : o = .next u)
    (hu : P u) : ∀ t, o = .next t → P t := by
  rintro t rfl
  cases h
  exact hu

section
variable (c : Config)

/-- GETB reads bit 0, which nothing has written (R109, R41). -/
theorem exec_getb_reset (h : 0 < c.capBits) :
    exec .getb (State.resetWith c) =
      .next { State.resetWith c with res0 := (Config.unwrittenBit 0).toNat } :=
  if_pos h

/-- SETB of the value 0 at bit 0 (R110). -/
theorem exec_setb_reset (h : 0 < c.capBits) :
    exec .setb (State.resetWith c) = .next ((State.resetWith c).setBit 0 false) :=
  (exec_setb_of_bitOperand rfl).trans (if_pos h)

/-- SETRUN with count 0 writes nothing, and its final offset is the 0 that RES0 holds (R111). -/
theorem exec_setrun_reset : exec .setrun (State.resetWith c) = .next (State.resetWith c) :=
  (exec_setrun_of_bitOperand (v := false) rfl).trans (if_pos (.inl rfl))

/-- RUNLEN over no unit answers 0 (R121, R122). -/
theorem exec_runlen_reset : exec .runlen (State.resetWith c) = .next (State.resetWith c) := by
  have hrun : (State.resetWith c).runLength 0 0 = 0 :=
    ((State.resetWith c).runLength_eq_zero_iff 0 0).2 (Nat.zero_mul _).le
  calc exec .runlen (State.resetWith c)
    _ = .next { (State.resetWith c).clearFlags with res0 := (State.resetWith c).runLength 0 0 } :=
      exec_runlen_of_le (Nat.zero_le c.bufUnits)
    _ = .next (State.resetWith c) := by rw [hrun]; rfl

/-- ENCODE of the empty text emits the end-of-message code (R138, R143). -/
theorem exec_encode_reset (h : 16 ≤ c.capBits) :
    ∃ t, exec .encode (State.resetWith c) = .next t ∧ t.boff = 16 ∧ t.HasBits 0 (codeBits eomCode) ∧
      t.res0 = ceilDiv 16 c.byteW := by
  obtain ⟨t, ht, hoff, hres, hbits, -⟩ :=
    encodeOfNoLettersIsTheMarker (State.resetWith c) 0 (Nat.zero_le c.txtBytes) h le_rfl nofun (.inl rfl)
  exact ⟨t, ht, hoff, hbits, hres⟩

/-- DECODE of no unit gives the empty text (R153). -/
theorem exec_decode_reset (h : 1 ≤ c.txtBytes) :
    ∃ t, exec .decode (State.resetWith c) = .next t ∧ t.res0 = 0 ∧ t.cell 0 = 0 ∧ t.err = none ∧
      t.dstate = .done := by
  have hsilent : ∀ p < 0 * c.byteW, (State.resetWith c).getBit p = false := by
    rw [Nat.zero_mul]
    exact nofun
  obtain ⟨t, ht, herr, hd, hres, hnul⟩ :=
    decodeOfSilenceIsEmpty (State.resetWith c) (Nat.zero_le c.bufUnits) h hsilent
  exact ⟨t, ht, hres, hnul, herr, hd⟩

/-- The operands reset leaves meet the precondition of every command (R205). -/
theorem exec_reset_completes (hv : c.Valid) (hcap : 16 ≤ c.capBits) (htxt : 1 ≤ c.txtBytes) (i : Instr) :
    ∃ t, exec i (State.resetWith c) = .next t := by
  have hpos : 0 < c.capBits := by omega
  obtain ⟨hw, -⟩ := hv
  cases i with
  | ctm => exact ⟨_, rfl⟩
  | mtc => exact ⟨_, exec_mtc _⟩
  | bmask => exact ⟨_, if_pos hw⟩
  | byoff => exact ⟨_, rfl⟩
  | bidx => exact ⟨_, rfl⟩
  | getb => exact ⟨_, exec_getb_reset c hpos⟩
  | setb => exact ⟨_, exec_setb_reset c hpos⟩
  | setrun => exact ⟨_, exec_setrun_reset c⟩
  | runlen => exact ⟨_, exec_runlen_reset c⟩
  | encode => exact (exec_encode_reset c hcap).imp fun _ h => h.1
  | decode => exact (exec_decode_reset c htxt).imp fun _ h => h.1

end

/-- Settles O11: every operand is 0, so each precondition holds, and each command's next state is the one above. -/
theorem everyCommandCompletesAfterReset : Obligations.EveryCommandCompletesAfterReset := by
  intro c hv hcap htxt
  obtain ⟨te, hencode, hte⟩ := exec_encode_reset c hcap
  obtain ⟨td, hdecode, htd⟩ := exec_decode_reset c htxt
  refine ⟨fun i => ?_, forall_next_of_eq (exec_getb_reset c (by omega)) rfl,
    forall_next_of_eq (exec_setrun_reset c) rfl, forall_next_of_eq (exec_runlen_reset c) rfl,
    forall_next_of_eq hencode hte, forall_next_of_eq hdecode htd⟩
  rw [step_withFetchWord_encode hv]
  exact exec_reset_completes c hv hcap htxt i

end Sys2Proof.Machine
end

section
/-! PROOFS. The invariant of the engine between transactions (10_state.md sections 2 to 4, 7 and 8): it holds at reset,
each host transaction keeps it, and so does every step. -/

namespace Sys2Proof.Machine

/-! ### What the registers can hold -/

section
variable {c : Config} (hv : c.Valid)
include hv

/-- An offset or a count of bits fits a register (R8). -/
theorem capBits_lt_two_pow_wOff : c.capBits < 2 ^ c.wOff := by
  obtain ⟨-, hoff, hcap, -⟩ := hv
  obtain ⟨hpow, -⟩ := two_pow_wOff hoff
  omega

/-- A text length fits a register (R8). -/
theorem txtBytes_lt_two_pow_wOff : c.txtBytes < 2 ^ c.wOff := by
  obtain ⟨-, hoff, -, htxt⟩ := hv
  obtain ⟨hpow, -⟩ := two_pow_wOff hoff
  omega

/-- A byte fits a register. -/
theorem lt_two_pow_wOff_of_lt {n : Nat} (hn : n < 256) : n < 2 ^ c.wOff := by
  obtain ⟨-, hoff, -, -⟩ := hv
  obtain ⟨hpow, hmin⟩ := two_pow_wOff hoff
  omega

end

theorem errorValue_lt (c : Config) : errorValue c < 2 ^ c.wOff := Nat.sub_one_lt (Nat.two_pow_pos _).ne'

/-- BMASK's answer fits RES0, whether its mask does or not (R106). -/
theorem maskResult_lt (c : Config) (m : Nat) : maskResult c m < 2 ^ c.wOff := by
  rw [maskResult]
  split_ifs with hm
  · exact hm
  · exact Nat.mod_lt _ (Nat.two_pow_pos _)

/-- The scanner counts bits of BUF (R120, R122). -/
theorem State.runLength_le_capBits {s : State} {n : Nat} (hn : n ≤ s.cfg.bufUnits) (o : Nat) :
    s.runLength n o ≤ s.cfg.capBits := by
  have hunits : n * s.cfg.byteW ≤ s.cfg.capBits := Nat.mul_le_mul_right _ hn
  rcases Nat.lt_or_ge o (n * s.cfg.byteW) with ho | ho
  · obtain ⟨-, hle, -⟩ := s.runLength_spec ho
    omega
  · rw [(s.runLength_eq_zero_iff n o).2 ho]
    exact Nat.zero_le _

theorem codeWordOk_eomCode : codeWordOk eomCode = true := by decide

/-- SIDX holds the number of symbols of the end-of-message code (R33, R138). -/
theorem sidx_eomCode_le : (BitVec.ofNat 3 (codeLen eomCode)).toNat ≤ Config.maxCodeLen := by decide

/-! ### The state updates -/

/-- With ERR and NF clear, STATUS is consistent once both state machines are in a terminal state. -/
theorem State.StatusOk.of_clear {s : State} (herr : s.err = none) (hnf : s.notFound = false)
    (hd : s.dstate = .done ∨ s.dstate = .error) (he : s.estate = .done) : s.StatusOk where
  err_result h := absurd herr h
  err_alone h := absurd herr h
  notFound_alone h := absurd (hnf.symm.trans h) Bool.false_ne_true
  dstate_terminal := hd
  estate_terminal := he

/-- Reset gives every register the value 0, both state machines a terminal state, and lists nothing in the memories
(R41; the sequencing registers by notes/assumptions/7.md). -/
theorem State.inv_resetWith {c : Config} (hv : c.Valid) : (State.resetWith c).Inv where
  valid := hv
  arg0_fits := Nat.two_pow_pos _
  arg1_fits := Nat.two_pow_pos _
  arg2_fits := Nat.two_pow_pos _
  res0_fits := Nat.two_pow_pos _
  boff_bound := Nat.zero_le _
  tidx_bound := Nat.zero_le _
  olen_bound := Nat.zero_le _
  pend_ok := codeWordOk_zero
  cur_ok := codeWordOk_zero
  sidx_bound := Nat.zero_le _
  status := .of_clear rfl rfl (.inl rfl) rfl
  buf_wf := .nil
  buf_bound := nofun
  txt_wf := .nil
  txt_bound := nofun

section
variable {s : State} (h : s.Inv)
include h

/-- Clearing the flags is consistent with any result (R27). -/
theorem State.Inv.clearFlags : s.clearFlags.Inv :=
  { h with status := .of_clear rfl rfl h.status.dstate_terminal h.status.estate_terminal }

/-- An illegal command word sets ILL alone (R186). -/
theorem State.Inv.illegalCommand : s.illegalCommand.Inv :=
  { h with status := .of_clear rfl rfl h.status.dstate_terminal h.status.estate_terminal }

/-- A command that clears the flags and writes a register value to RES0. -/
theorem State.Inv.result {r : Nat} (hr : r < 2 ^ s.cfg.wOff) : { s.clearFlags with res0 := r }.Inv :=
  { h with
    res0_fits := hr
    status := .of_clear rfl rfl h.status.dstate_terminal h.status.estate_terminal }

/-- A table lookup sets NF only with 0 in RES0 (R95, R96, R185). -/
theorem State.Inv.lookup (r : Option Byte) : (s.clearFlags.answerLookup r).Inv := by
  cases r with
  | some v => exact h.result (lt_two_pow_wOff_of_lt h.valid v.isLt)
  | none =>
    exact { h with
      res0_fits := Nat.two_pow_pos _
      status :=
        { err_result := absurd rfl
          err_alone := absurd rfl
          notFound_alone := fun _ => ⟨rfl, rfl⟩
          dstate_terminal := h.status.dstate_terminal
          estate_terminal := h.status.estate_terminal } }

/-- A new content of BUF, canonical and inside its bits (R34, R58). -/
theorem State.Inv.withBuf {m : Memory Bool} (hwf : m.wf) (hbound : ∀ p ∈ m, p.1 < s.cfg.capBits) :
    { s with buf := m }.Inv :=
  { h with buf_wf := hwf, buf_bound := hbound, status := { h.status with } }

theorem State.Inv.setBit {o : Nat} (v : Bool) (ho : o < s.cfg.capBits) : (s.setBit o v).Inv :=
  h.withBuf (Memory.write_wf o v h.buf_wf) (Memory.write_bound ho h.buf_bound)

theorem State.Inv.writeUnit {i : Nat} (v : Nat) (hi : i < s.cfg.bufUnits) : (s.writeUnit i v).Inv := by
  rw [State.writeUnit_frame]
  exact h.withBuf (State.writeUnit_wf i v h.buf_wf) (State.writeUnit_bound hi h.buf_bound)

theorem State.Inv.setCell {i : Nat} (b : Byte) (hi : i < s.cfg.txtBytes) : (s.setCell i b).Inv :=
  { h with
    txt_wf := Memory.write_wf i b h.txt_wf
    txt_bound := Memory.write_bound hi h.txt_bound
    status := { h.status with } }

theorem State.Inv.answer (v : Nat) : (s.answer v).Inv := { h with status := { h.status with } }

theorem State.Inv.withQueue (q : List HostTxn) : { s with hostQueue := q }.Inv :=
  { h with status := { h.status with } }

/-- SETRUN writes bits of BUF and leaves its final offset in RES0; an empty run writes nothing and leaves its own offset
(R105, R111). -/
theorem State.Inv.afterSetrun (v : Bool) (hrun : runInRange s.cfg s.arg0 s.arg2) : (s.afterSetrun v).Inv := by
  have hwf : (s.afterSetrun v).buf.wf := State.setRun_wf (s := s.clearFlags) s.arg0 v s.arg2 h.buf_wf
  rw [State.afterSetrun_frame]
  rcases hrun with hempty | hfits
  · have hres : s.arg0 + s.arg2 < 2 ^ s.cfg.wOff := by rw [hempty]; exact h.arg0_fits
    refine (h.result hres).withBuf hwf ?_
    rw [State.afterSetrun_buf_of_empty v hempty]
    exact h.buf_bound
  · exact (h.result (hfits.trans_lt (capBits_lt_two_pow_wOff h.valid))).withBuf hwf
      (State.setRun_bound (s := s.clearFlags) hfits h.buf_bound)

/-! ### The two state machines -/

/-- ENCODE leaves its cursors at the ends of its stream and its text, and the end-of-message code in CUR (R130). -/
theorem State.Inv.encodeText (htxt : s.arg0 ≤ s.cfg.txtBytes) (hcap : (encodedBits s.text).length ≤ s.cfg.capBits) :
    s.clearFlags.encodeText.Inv := by
  obtain ⟨k, hk, e⟩ := s.clearFlags.encodeText_eq
  obtain ⟨hw, -⟩ := h.valid
  have hend : 0 + (encodedBits s.text).length ≤ s.cfg.capBits := (Nat.zero_add _).trans_le hcap
  rw [e]
  exact { h with
    res0_fits := ((ceilDiv_le hw).trans hcap).trans_lt (capBits_lt_two_pow_wOff h.valid)
    boff_bound := hend
    tidx_bound := hk.trans htxt
    cur_ok := codeWordOk_eomCode
    sidx_bound := sidx_eomCode_le
    status := .of_clear rfl rfl h.status.dstate_terminal rfl
    buf_wf := Memory.putBits_wf 0 _ h.buf_wf
    buf_bound := Memory.putBits_bound hend h.buf_bound }

/-- A state that DECODE can reach meets the invariant by what DECODE writes (R43). -/
theorem State.Inv.of_decodeFrame {t : State} (hf : DecodeFrame s t) (hres : t.res0 < 2 ^ s.cfg.wOff)
    (hboff : t.boff ≤ s.cfg.capBits) (holen : t.olen ≤ s.cfg.txtBytes) (hpend : codeWordOk t.pend = true)
    (hstatus : t.StatusOk) (hwf : t.txt.wf) (hbound : ∀ p ∈ t.txt, p.1 < s.cfg.txtBytes) : t.Inv := by
  rw [hf.eq] at hstatus ⊢
  exact { h with
    res0_fits := hres, boff_bound := hboff, olen_bound := holen, pend_ok := hpend, status := hstatus
    txt_wf := hwf, txt_bound := hbound }

/-- A DECODE that succeeds lists cells up to its NUL, and its count is in RES0 (R165). -/
theorem State.Inv.decodeDone {t : State} (hd : DecodeDone s.clearFlags t) (hbuf : s.arg0 ≤ s.cfg.bufUnits)
    (hfit : t.olen + 1 ≤ s.cfg.txtBytes) : t.Inv := by
  have holen : t.olen ≤ s.cfg.txtBytes := Nat.le_of_succ_le hfit
  have hbound : ∀ p ∈ t.txt, p.1 < s.cfg.txtBytes := fun p hp =>
    (hd.listed p hp).elim (h.txt_bound p) fun hle => Nat.lt_of_lt_of_le (Nat.lt_succ_of_le hle) hfit
  exact h.clearFlags.of_decodeFrame hd.frame (hd.res0 ▸ holen.trans_lt (txtBytes_lt_two_pow_wOff h.valid))
    (hd.boff_le.trans (Nat.mul_le_mul_right _ hbuf)) holen hd.pend_ok
    (.of_clear hd.err hd.frame.notFound (.inl hd.dstate) (hd.frame.estate.trans h.status.estate_terminal))
    (hd.wf h.txt_wf) hbound

/-- A DECODE that raises an error leaves ERR, DSTATE and RES0 in agreement, and lists no cell (R172, R183). -/
theorem State.Inv.decodeFailed {t : State} (hf : DecodeFailed s.clearFlags t) (hbuf : s.arg0 ≤ s.cfg.bufUnits)
    (hfit : t.olen + 1 ≤ s.cfg.txtBytes) : t.Inv := by
  have hstatus : t.StatusOk :=
    { err_result := fun _ => ⟨hf.dstate, by rw [hf.res0, hf.frame.cfg]⟩
      err_alone := fun _ => ⟨hf.frame.notFound, hf.frame.illegal⟩
      notFound_alone := fun hnf => absurd (hf.frame.notFound.symm.trans hnf) Bool.false_ne_true
      dstate_terminal := .inr hf.dstate
      estate_terminal := hf.frame.estate.trans h.status.estate_terminal }
  have htxt : t.txt = [] := hf.txt
  exact h.clearFlags.of_decodeFrame hf.frame (hf.res0 ▸ errorValue_lt s.cfg)
    (hf.boff_le.trans (Nat.mul_le_mul_right _ hbuf)) (Nat.le_of_succ_le hfit) hf.pend_ok hstatus
    (htxt ▸ List.Pairwise.nil) (by rw [htxt]; nofun)

end

/-! ### Outcomes -/

/-- The next state of an outcome, if there is one, meets the invariant. -/
def InvAfter (o : Host.Outcome State Fault Refusal) : Prop := ∀ t, o = .next t → t.Inv

theorem InvAfter.next {t : State} (h : t.Inv) : InvAfter (.next t) := by
  rintro _ ⟨⟩
  exact h

theorem InvAfter.fault (f : Fault) : InvAfter (.fault f) := nofun

theorem InvAfter.refused (r : Refusal) : InvAfter (.refused r) := nofun

/-- A tested precondition may be used for the outcome where it holds. -/
theorem InvAfter.ite {g : Prop} [Decidable g] {a b : Host.Outcome State Fault Refusal} (ha : g → InvAfter a)
    (hb : InvAfter b) : InvAfter (if g then a else b) := by
  split_ifs with hg
  · exact ha hg
  · exact hb

/-- Every command keeps the invariant, by the update it makes where its preconditions hold. -/
theorem exec_invAfter {s : State} (h : s.Inv) (i : Instr) : InvAfter (exec i s) := by
  cases i with
  | ctm => exact .next (h.lookup _)
  | mtc => exact .next (h.lookup _)
  | bmask => exact .ite (fun _ => .next (h.result (maskResult_lt _ _))) (.fault _)
  | byoff => exact .next (h.result ((Nat.div_le_self _ _).trans_lt h.arg0_fits))
  | bidx => exact .next (h.result ((Nat.mod_le _ _).trans_lt h.arg0_fits))
  | getb =>
    have hbit : (s.getBit s.arg0).toNat < 256 := (Bool.toNat_le _).trans_lt (by decide)
    exact .ite (fun _ => .next (h.result (lt_two_pow_wOff_of_lt h.valid hbit))) (.fault _)
  | setb =>
    cases hv : bitOperand s.arg1 with
    | none => rw [exec, execSetb, hv]; exact .refused _
    | some v =>
      rw [exec_setb_of_bitOperand hv]
      exact .ite (fun ho => .next (h.clearFlags.setBit v ho)) (.fault _)
  | setrun =>
    cases hv : bitOperand s.arg1 with
    | none => rw [exec, execSetrun, hv]; exact .refused _
    | some v =>
      rw [exec_setrun_of_bitOperand hv]
      exact .ite (fun hrun => .next (h.afterSetrun v hrun)) (.fault _)
  | runlen =>
    have hfits (hn : s.arg1 ≤ s.cfg.bufUnits) : s.runLength s.arg1 s.arg0 < 2 ^ s.cfg.wOff :=
      (State.runLength_le_capBits hn s.arg0).trans_lt (capBits_lt_two_pow_wOff h.valid)
    exact .ite (fun hn => .next (h.result (hfits hn))) (.fault _)
  | encode =>
    intro t ht
    obtain ⟨htxt, hcap, rfl⟩ := (exec_encode_iff_fits s t).1 ht
    exact h.encodeText htxt hcap
  | decode =>
    intro t ht
    obtain ⟨hbuf, hfit, rfl⟩ := (exec_decode_iff s t).1 ht
    rcases s.clearFlags.decodeStream_spec with hd | hf
    · exact h.decodeDone hd hbuf hfit
    · exact h.decodeFailed hf hbuf hfit

/-! ### Host transactions -/

theorem writeCmd_invAfter {s : State} (h : s.Inv) (w : Byte) : InvAfter (writeCmd w s) := by
  rw [writeCmd]
  cases decode w with
  | ok i => exact exec_invAfter h i
  | error r => exact .next h.illegalCommand

/-- An operand register takes a value only if it fits (R22 to R24). -/
theorem hostWriteReg_invAfter {s : State} (h : s.Inv) (r v : Nat) : InvAfter (hostWriteReg r v s) := by
  rw [hostWriteReg]
  cases regOf r with
  | none => exact .refused _
  | some reg =>
    cases reg with
    | cmd => exact .ite (fun _ => writeCmd_invAfter h _) (.refused _)
    | arg0 => exact .ite (fun hv => .next { h with arg0_fits := hv, status := { h.status with } }) (.refused _)
    | arg1 => exact .ite (fun hv => .next { h with arg1_fits := hv, status := { h.status with } }) (.refused _)
    | arg2 => exact .ite (fun hv => .next { h with arg2_fits := hv, status := { h.status with } }) (.refused _)
    | res0 => exact .refused _
    | status => exact .refused _

theorem hostReadReg_invAfter {s : State} (h : s.Inv) (r : Nat) : InvAfter (hostReadReg r s) := by
  rw [hostReadReg]
  cases regOf r with
  | none => exact .refused _
  | some reg => exact .next (h.answer _)

/-- Each of the six kinds of transaction keeps the invariant (R42). -/
theorem transact_invAfter {s : State} (h : s.Inv) (x : HostTxn) : InvAfter (transact x s) := by
  cases x with
  | writeReg r v => exact hostWriteReg_invAfter h r v
  | readReg r => exact hostReadReg_invAfter h r
  | writeBuf i v => exact .ite (fun hi => .ite (fun _ => .next (h.writeUnit v hi)) (.refused _)) (.refused _)
  | readBuf i => exact .ite (fun _ => .next (h.answer _)) (.refused _)
  | writeTxt i v => exact .ite (fun hi => .ite (fun _ => .next (h.setCell _ hi)) (.refused _)) (.refused _)
  | readTxt i => exact .ite (fun _ => .next (h.answer _)) (.refused _)

/-! ### The statements -/

/-- Settles O9, by the fields of `State.resetWith`. -/
theorem resetMeetsTheInvariant : Obligations.ResetMeetsTheInvariant := fun _ hv => State.inv_resetWith hv

/-- Settles O10: an idle step changes nothing, any other serves one transaction. -/
theorem stepKeepsTheInvariant : Obligations.StepKeepsTheInvariant := by
  intro s t h hstep
  cases hq : s.hostQueue with
  | nil =>
    obtain ⟨hidle, -⟩ := idleEngineWaits
    rw [hidle s h.valid hq] at hstep
    exact InvAfter.next h t hstep
  | cons x rest =>
    rw [step_serves h.valid hq] at hstep
    exact transact_invAfter (h.withQueue rest) x t hstep

end Sys2Proof.Machine
end

section
/-! PROOFS. The statements of 30_encoding.md section 1 and 10_state.md section 8 on the words of commands and the step
that runs one, and the statement of 41_bit_addressing.md on BMASK for every `BYTE_W`. -/

namespace Sys2Proof.Machine

/-- Settles O1, by the round trip of each command. -/
theorem encodedCommandDecodesBack : Obligations.EncodedCommandDecodesBack := by
  intro i _
  obtain ⟨-, hdec, htable, -⟩ := roundTrip i
  exact ⟨hdec, htable⟩

/-- A word with a reserved field other than 0 is rejected before its OPC is read (R71). -/
theorem decode_of_rsvField {w : Byte} (h : rsvField w ≠ 0) : decode w = .error .reservedBits := if_pos h

/-- A word with a reserved OPC is rejected under that name (R71, R74). -/
theorem decode_of_opcInstr_none {w : Byte} (hr : rsvField w = 0) (ho : opcInstr (opcField w) = none) :
    decode w = .error .reservedOpcode := by
  rw [decode, if_neg (not_not.2 hr), ho]

/-- Settles O3: six words are those of their commands, the others fail one of the decoder's two tests. -/
theorem writtenOutWordsDecode : Obligations.WrittenOutWordsDecode :=
  ⟨decode_encode .ctm, decode_encode .bmask, decode_encode .setrun, decode_encode .runlen, decode_encode .encode,
    decode_encode .decode, decode_of_rsvField (by decide), decode_of_opcInstr_none rfl rfl,
    decode_of_opcInstr_none rfl rfl⟩

/-- Settles O4: the step serves the write, and the write is what its word decodes to. -/
theorem commandWriteRunsTheDecodedCommand : Obligations.CommandWriteRunsTheDecodedCommand := by
  intro s v i rest hv hq hlt hdec
  calc step s
    _ = hostWriteReg 0 v { s with hostQueue := rest } := step_serves hv hq
    _ = writeCmd (BitVec.ofNat 8 v) { s with hostQueue := rest } := hostWriteReg_cmd hlt _
    _ = exec i { s with hostQueue := rest } := by rw [writeCmd, hdec]

/-- Settles O5: the command's word stands at the front of the pending transactions. -/
theorem fetchWordRunsNext : Obligations.FetchWordRunsNext := fun _ i hv => step_withFetchWord_encode hv i

/-- Settles O21: the answer is `maskResult`, which fits RES0 in any case and is the mask where the mask fits. -/
theorem bmaskCompletesForEveryWidth : Obligations.BmaskCompletesForEveryWidth := by
  intro s hk
  exact ⟨maskResult s.cfg (bitMask s.cfg s.arg0), maskResult_lt _ _, if_pos hk, fun hfits => if_pos hfits⟩

end Sys2Proof.Machine
end
